-- ==== Sys2Proof/Word.lean ====
section
/-! DEFINITION. The word types of the block: an 8-bit byte of a buffer and a host register of XLEN bits
(`10_state.md` R20). -/

namespace Sys2Proof

/-- One byte of SRC or DST (`10_state.md` R41, R42). -/
abbrev Byte := BitVec 8

/-- One host register of `x` bits, where `x` is XLEN (`10_state.md` R20, `00_scope.md` R7). -/
abbrev Word (x : Nat) := BitVec x

end Sys2Proof
end

