-- ==== Sys2Proof/Config.lean ====
section
/-! DEFINITION. What an implementation fixes: the settled constants and the parameters of
`00_scope.md` R7 with the constraints of R8, and the free values of `93_implementation_defined.md`. -/

namespace Sys2Proof.Config

/-- MINMATCH of `00_scope.md` R7: the shortest match and the width of the hashed prefix. -/
def minMatch : Nat := 4

/-- MAX_DISTANCE of `00_scope.md` R7. -/
def maxDistance : Nat := 65535

/-- OFFSET_BYTES of `00_scope.md` R7. -/
def offsetBytes : Nat := 2

/-- NIBBLE_MAX of `00_scope.md` R7: the saturating value of either nibble. -/
def nibbleMax : Nat := 15

/-- EXT_CONTINUE of `00_scope.md` R7: the extension byte that continues the extension. -/
def extContinue : Nat := 255

/-- VARIANT_THRESHOLD of `00_scope.md` R7. -/
def variantThreshold : Nat := 65536

/-- HASH_MUL of `00_scope.md` R7, `40_primitives.md` R137. -/
def hashMul : Nat := 2654435761

/-- ENTRY_W_NARROW of `00_scope.md` R7. -/
def entryWNarrow : Nat := 16

/-- MAX_LEN of `00_scope.md` R7 for registers of `x` bits: the largest non-negative signed value. -/
def maxLen (x : Nat) : Nat := 2 ^ (x - 1) - 1

/-- MAX_COMPRESS_LEN of `00_scope.md` R7 for registers of `x` bits: the largest `n` with
`n + max(8, (n + 19) div 20) ≤ MAX_LEN` (`92_eei_decisions.md` D4); `n + (n + 19) div 20 ≤ m` says
`21 n ≤ 20 m`. -/
def maxCompressLen (x : Nat) : Nat := min (maxLen x - 8) (20 * maxLen x / 21)

/-- The parameters of `00_scope.md` R7 whose value is the spec's choice, and the open one, ADDR_W: named
arguments of the machine. A state carries them beside the block they build (`State.params`), so what is
said of every state is said of every choice (log 13). -/
structure Params where
  /-- XLEN, the width of the host registers (log 26) -/
  xlen : Nat
  /-- ADDR_W, open in the spec (log 20) -/
  addrW : Nat
  /-- HASH_LOG_WIDE -/
  hashLogWide : Nat
  /-- HASH_LOG_NARROW -/
  hashLogNarrow : Nat
  /-- HASH_WORD_BITS -/
  hashWordBits : Nat
  /-- ENTRY_W_WIDE -/
  entryWWide : Nat
  /-- SKIP_STRENGTH -/
  skipStrength : Nat
  /-- ATTEMPT_INIT -/
  attemptInit : Nat
  /-- MFLIMIT -/
  mfLimit : Nat
  /-- LASTLITERALS -/
  lastLiterals : Nat
  /-- MINLENGTH -/
  minLength : Nat
  /-- DEC_MARGIN -/
  decMargin : Nat
deriving DecidableEq, Repr

/-- The default values of `00_scope.md` R7, and of `92_eei_decisions.md` for ADDR_W: what
`State.reset` holds (log 13). -/
def params : Params where
  xlen := 32
  addrW := 32
  hashLogWide := 12
  hashLogNarrow := 13
  hashWordBits := 32
  entryWWide := 32
  skipStrength := 6
  attemptInit := 67
  mfLimit := 12
  lastLiterals := 5
  minLength := 13
  decMargin := 8

/-- The constraints of `00_scope.md` R8 (a) to (f) between the parameters. -/
abbrev Params.wf (P : Params) : Prop :=
  1 ≤ P.attemptInit / 2 ^ P.skipStrength ∧
  P.decMargin ≤ P.mfLimit ∧
  minMatch ≤ P.mfLimit ∧ minMatch + P.lastLiterals ≤ P.mfLimit ∧
  P.mfLimit + 1 ≤ P.minLength ∧
  1 ≤ P.hashLogWide ∧ P.hashLogWide ≤ P.hashWordBits ∧
  1 ≤ P.hashLogNarrow ∧ P.hashLogNarrow ≤ P.hashWordBits ∧
  variantThreshold ≤ 2 ^ entryWNarrow

/-- A byte the spec leaves at "any value": a byte under a match with offset 0 (U1, `44_decoder.md`
R244) or a DST byte past the final cursor (U10, R249). The argument is the draw's number, so no two
draws are known to be equal (log 8, log 9, log 23). -/
opaque freeByte : Nat → Byte

/-- The value a host read of `x[CMD]` returns: "any value of 32 bits" (U8, `10_state.md` R21), at XLEN.
The second argument is the draw's number (log 10, log 23). -/
opaque freeWord : (x : Nat) → Nat → Word x

/-- NBCOMMON of two equal words, by their width in bytes and the word: `40_primitives.md` R136 puts them
outside the domain and does not define the result (DESIGN CHOICE, log 27). -/
opaque nbCommonEqual : Nat → Nat → Nat

end Sys2Proof.Config
end

