-- ==== Sys2Proof/Syntax.lean ====
section
/-! DEFINITION. The abstract syntax: one constructor for each of the nine rows of
`spec/opcode_table.json`, three commands and six sequence forms. -/

namespace Sys2Proof

/-- The block's instructions on its two levels (`30_encoding.md` R91, R103). A command's operands are
the host registers. A sequence form's operands in the instruction word are the nibbles of its control
byte that the form leaves free; the fields that follow the control byte in the stream are read by the
form's meaning. -/
inductive Instr
  /-- COMPRESS, command word 1 (`45_commands.md` R283). -/
  | compress
  /-- DECOMPRESS_FIXED, command word 2 (`45_commands.md` R284). -/
  | decompressFixed
  /-- DECOMPRESS_UNKNOWN, command word 3 (`45_commands.md` R285). -/
  | decompressUnknown
  /-- SEQ.SS: control byte `LLLLMMMM`, both lengths short (`44_decoder.md` R250). -/
  | seqSS (ll ml : BitVec 4)
  /-- SEQ.XS: control byte `1111MMMM`, literal length extended (`44_decoder.md` R251). -/
  | seqXS (ml : BitVec 4)
  /-- SEQ.SX: control byte `LLLL1111`, match length extended (`44_decoder.md` R252). -/
  | seqSX (ll : BitVec 4)
  /-- SEQ.XX: control byte `11111111`, both lengths extended (`44_decoder.md` R253). -/
  | seqXX
  /-- LAST.S: control byte `LLLLxxxx`, terminal (`44_decoder.md` R254). The low nibble is carried and
  not looked at. -/
  | lastS (ll x : BitVec 4)
  /-- LAST.X: control byte `1111xxxx`, terminal, literal length extended (`44_decoder.md` R255). -/
  | lastX (x : BitVec 4)
deriving DecidableEq, Repr

end Sys2Proof
end

