-- ==== Sys2Proof/WellFormed.lean ====
section
/-! DEFINITION. Which instruction terms the encoding tables admit: the constraints of the rows of
`spec/opcode_table.json` (`30_encoding.md` R103). -/

namespace Sys2Proof

/-- A nibble that is short, that is, not saturated (`30_encoding.md` R97, R103). -/
def shortNibble (v : BitVec 4) : Bool := v != 15

/-- The row constraints of `30_encoding.md` R103: a short form's nibble is at most 14. -/
def Instr.wellFormed : Instr → Bool
  | .compress => true
  | .decompressFixed => true
  | .decompressUnknown => true
  | .seqSS ll ml => shortNibble ll && shortNibble ml
  | .seqXS ml => shortNibble ml
  | .seqSX ll => shortNibble ll
  | .seqXX => true
  | .lastS ll _ => shortNibble ll
  | .lastX _ => true

end Sys2Proof
end

