-- ==== Sys2Proof/Decode.lean ====
section
/-! DEFINITION. Decoding of command words and of the token stream, and after it the encoders
(`30_encoding.md`). Everything here is about bits and bytes; the machine's cursors enter only as the
context that tells SEQ from LAST. -/

namespace Sys2Proof

/-- Why a decoder gives no instruction. -/
inductive DecodeError
  /-- A reserved command word: `OP` = 0 or `RSV` not 0 (`30_encoding.md` R92). The machine answers it
  with InvalidArgument (`45_commands.md` R281): safe. -/
  | reservedCommand
  /-- There is no control byte to decode (`44_decoder.md` R231, R234). The machine answers it with the
  end of the command or with SourceExhausted: safe. -/
  | noControlByte
deriving DecidableEq, Repr

/-! ## Command words -/

/-- `30_encoding.md` R90 to R92: the three command words; every other word is reserved. RSV is every
bit above OP. -/
def decodeCommand {x : Nat} (w : Word x) : Except DecodeError Instr :=
  if w.extractLsb' 2 (x - 2) = 0 then
    if w.extractLsb' 0 2 = 1 then .ok .compress
    else if w.extractLsb' 0 2 = 2 then .ok .decompressFixed
    else if w.extractLsb' 0 2 = 3 then .ok .decompressUnknown
    else .error .reservedCommand
  else .error .reservedCommand

/-! ## The control byte and the length extension -/

/-- Field LL of a control byte, bits[7:4] (`30_encoding.md` R97). -/
def tokenLL (t : Byte) : BitVec 4 := t.extractLsb' 4 4

/-- Field ML of a control byte, bits[3:0] (`30_encoding.md` R97). -/
def tokenML (t : Byte) : BitVec 4 := t.extractLsb' 0 4

/-- The control byte with the given nibbles (`30_encoding.md` R97). -/
def token (ll ml : BitVec 4) : Byte := ll ++ ml

/-- The length extension at the front of a byte string: the sum of its bytes and how many they are,
or `none` when no closing byte is found (`30_encoding.md` R98, `42_length_codec.md` R175). -/
def extSum : List Byte → Option (Nat × Nat)
  | [] => none
  | b :: rest =>
    if b.toNat = Config.extContinue then
      match extSum rest with
      | none => none
      | some (v, c) => some (Config.extContinue + v, c + 1)
    else some (b.toNat, 1)

/-! ## SEQ or LAST -/

/-- What a decoder knows besides the bytes when it meets a control byte at stream index `ip`
(`30_encoding.md` R102, `44_decoder.md` R230). -/
structure Context where
  /-- the running command is DECOMPRESS_UNKNOWN -/
  unknown : Bool
  /-- stream index of the control byte -/
  ip : Nat
  /-- output cursor before the sequence -/
  op : Nat
  /-- read limit -/
  ilim : Nat
  /-- output bound -/
  oend : Nat
deriving DecidableEq, Repr

/-- Whether a sequence with a literal run of `len` bytes behind `ext` extension bytes is taken as
terminal: its run ends inside the margin (`44_decoder.md` R236), or, unknown-size, exactly at the read
limit (R239). -/
def takenAsTerminal (P : Config.Params) (c : Context) (len ext : Nat) : Bool :=
  decide (c.oend < c.op + len + P.decMargin) ||
    (c.unknown && decide (c.ip + 1 + ext + len = c.ilim))

/-- The row of `30_encoding.md` R103 that a control byte belongs to, once it is known whether the
sequence is terminal. -/
def sequenceForm (terminal : Bool) (t : Byte) : Instr :=
  if terminal then
    if shortNibble (tokenLL t) then .lastS (tokenLL t) (tokenML t) else .lastX (tokenML t)
  else if shortNibble (tokenLL t) then
    if shortNibble (tokenML t) then .seqSS (tokenLL t) (tokenML t) else .seqSX (tokenLL t)
  else
    if shortNibble (tokenML t) then .seqXS (tokenML t) else .seqXX

/-- Whether the sequence that starts with control byte `t` and goes on with the bytes `rest` is taken
as terminal. A literal extension that is cut off leaves the run's length unknown; the sequence is then
read as SEQ, and its meaning ends with SourceExhausted as either form's would (log 6). -/
def terminalAt (P : Config.Params) (c : Context) (t : Byte) (rest : List Byte) : Bool :=
  if shortNibble (tokenLL t) then takenAsTerminal P c (tokenLL t).toNat 0
  else
    match extSum rest with
    | none => false
    | some (v, n) => takenAsTerminal P c (Config.nibbleMax + v) n

/-- Decode the sequence at the front of the unread stream bytes (`30_encoding.md` R102 to R104). -/
def decodeSequence (P : Config.Params) (c : Context) : List Byte → Except DecodeError Instr
  | [] => .error .noControlByte
  | t :: rest => .ok (sequenceForm (terminalAt P c t rest) t)

/-! ## Encoders -/

/-- What an instruction is written as: a 32-bit command word or a control byte. -/
inductive Code
  /-- a word for `x[CMD]` (`30_encoding.md` R90) -/
  | command (w : Word 32)
  /-- the control byte of a sequence (`30_encoding.md` R97) -/
  | controlByte (t : Byte)
deriving DecidableEq, Repr

/-- The encoding of an instruction, from `30_encoding.md` R91 and R103. -/
def encode : Instr → Code
  | .compress => .command 0x00000001
  | .decompressFixed => .command 0x00000002
  | .decompressUnknown => .command 0x00000003
  | .seqSS ll ml => .controlByte (token ll ml)
  | .seqXS ml => .controlByte (token 15 ml)
  | .seqSX ll => .controlByte (token ll 15)
  | .seqXX => .controlByte (token 15 15)
  | .lastS ll x => .controlByte (token ll x)
  | .lastX x => .controlByte (token 15 x)

/-- Whether an instruction is one of the terminal forms. -/
def Instr.isTerminal : Instr → Bool
  | .lastS _ _ => true
  | .lastX _ => true
  | _ => false

/-- Decode a code whose terminal or non-terminal reading is given. -/
def decodeCode (terminal : Bool) : Code → Except DecodeError Instr
  | .command w => decodeCommand w
  | .controlByte t => .ok (sequenceForm terminal t)

/-- NIBBLE: the 4-bit code of a length value (`42_length_codec.md` R171). -/
def nibble (v : Nat) : Nat := min v Config.nibbleMax

/-- The bytes `k` times 255 and then `r` (`42_length_codec.md` R172). -/
def extRun : Nat → Nat → List Byte
  | 0, r => [BitVec.ofNat 8 r]
  | k + 1, r => BitVec.ofNat 8 Config.extContinue :: extRun k r

/-- ENC_EXT: the extension bytes of a value `v` of at least 15 (`42_length_codec.md` R172). -/
def extBytes (v : Nat) : List Byte :=
  extRun ((v - Config.nibbleMax) / Config.extContinue) ((v - Config.nibbleMax) % Config.extContinue)

/-- The extension bytes of any value: none below 15 (`42_length_codec.md` R170). -/
def extOf (v : Nat) : List Byte := if v < Config.nibbleMax then [] else extBytes v

/-- `litext(L)` of `30_encoding.md` R98: the number of LITEXT bytes. -/
def litext (len : Nat) : Nat :=
  if len < Config.nibbleMax then 0 else 1 + (len - Config.nibbleMax) / Config.extContinue

/-- `matchext(M)` of `30_encoding.md` R99: the number of MATCHEXT bytes. -/
def matchext (m : Nat) : Nat :=
  if m < Config.nibbleMax + Config.minMatch then 0
  else 1 + (m - (Config.nibbleMax + Config.minMatch)) / Config.extContinue

/-- Two bytes, the low one first (`40_primitives.md` R133, `30_encoding.md` R100). -/
def le16 (v : Nat) : List Byte := [BitVec.ofNat 8 v, BitVec.ofNat 8 (v / 256)]

/-- The control byte of a literal-run length and a match-length code, packed by shift and or
(`42_length_codec.md` R173, R174). -/
def controlByte (len code : Nat) : Byte := BitVec.ofNat 8 (nibble len * 16 + nibble code)

/-- Format SEQ: a non-terminal sequence in the field order of `30_encoding.md` R96. -/
def seqBytes (lits : List Byte) (offset m : Nat) : List Byte :=
  controlByte lits.length (m - Config.minMatch) :: extOf lits.length ++ lits ++ le16 offset ++
    extOf (m - Config.minMatch)

/-- Format LAST: a terminal sequence (`30_encoding.md` R101), low nibble 0 (`43_encoder.md` R203). -/
def lastBytes (lits : List Byte) : List Byte :=
  controlByte lits.length 0 :: extOf lits.length ++ lits

/-! ## The opcode table's words -/

/-- The `k` low bytes of `w`, least significant first. -/
def wordBytes : Nat → Nat → List Byte
  | 0, _ => []
  | k + 1, w => BitVec.ofNat 8 w :: wordBytes k (w / 256)

/-- A stream that starts with the `nbits` bits of a table word and goes on with zeros, longer than any
sequence with an 8-bit word and zeros behind it (15 literals and five more bytes). -/
def tableStream (nbits w : Nat) : List Byte := wordBytes (nbits / 8) w ++ List.replicate 31 0

/-- The context in which a table word is read as a sequence: the start of a fixed-size decoder command
with room for any such sequence, so that it is not taken as terminal (log 7). -/
def tableContext (nbits : Nat) : Context where
  unknown := false
  ip := 0
  op := 0
  ilim := nbits / 8 + 31
  oend := 64

/-- The instruction the decoder reads from a word of the opcode table: a 32-bit row is a command word,
a shorter one the control byte at the front of a stream. -/
def decodeTableWord (nbits w : Nat) : Option Instr :=
  if nbits = 32 then (decodeCommand (BitVec.ofNat 32 w)).toOption
  else (decodeSequence Config.params (tableContext nbits) (tableStream nbits w)).toOption

end Sys2Proof
end

