-- ==== Sys2Proof/Machine/State.lean ====
section
/-! DEFINITION. The machine's state as plain data, the reasons a step can stop, and the state after
reset (`10_state.md`). -/

namespace Sys2Proof.Machine

/-- A byte store in one canonical form: addresses strictly rising. An address that is not listed has
no value: nothing has written it, and a read of it faults (log 2). -/
abbrev Memory := List Host.Cell

/-- TAB, the match table, as (entry index, position) pairs in one canonical form: indices strictly
rising and no position 0. An entry that is not listed holds 0 (`10_state.md` R43). -/
abbrev Tab := List (Nat × Nat)

/-- The match-finder variant of a COMPRESS command (`41_match_finder.md` R150, `45_commands.md` R282). -/
inductive Variant
  | narrow
  | wide
deriving DecidableEq, Repr

/-- What the block is doing (`10_state.md` R50, `60_exceptions.md` R309, `44_decoder.md` R230). -/
inductive Phase
  /-- no command runs; the block waits for a write to `x[CMD]` -/
  | idle
  /-- DECOMPRESS_FIXED runs: the flag `unknown` of `44_decoder.md` R230 is false -/
  | fixed
  /-- DECOMPRESS_UNKNOWN runs: the flag `unknown` is true -/
  | unknown
deriving DecidableEq, Repr

/-- The working registers of `10_state.md` R32. Exact non-negative integers (`00_scope.md` R9,
`40_primitives.md` R138, log 15). -/
structure Work where
  /-- input length of COMPRESS -/
  n : Nat
  /-- NARROW or WIDE -/
  variant : Variant
  /-- stream cursor of a decoder (`10_state.md` R30), scan position of the encoder -/
  ip : Nat
  /-- output cursor in DST -/
  op : Nat
  /-- input position where the pending literal run starts -/
  anchor : Nat
  /-- next scan position -/
  fwd : Nat
  /-- attempt count of the running search -/
  attempts : Nat
  /-- scan step of the current attempt -/
  step : Nat
  /-- candidate position, then running position inside the match source -/
  ref : Nat
  /-- table index -/
  h : Nat
  /-- index in DST of the control byte being emitted -/
  tokpos : Nat
  /-- `n - MFLIMIT` -/
  mflimit : Nat
  /-- `n - LASTLITERALS` -/
  matchlimit : Nat
  /-- read limit -/
  ilim : Nat
  /-- output bound -/
  oend : Nat
  /-- control byte of the current sequence -/
  token : Byte
  /-- `L`: literal-run length of the current sequence -/
  litLen : Nat
  /-- `M`: match length of the current sequence -/
  matchLen : Nat
  /-- back-reference distance -/
  offset : Nat
deriving DecidableEq, Repr

/-- A buffer the platform maps behind a handle: `size` bytes of the store from address `base` on
(`20_memory.md` R75; `size` is `SRC_EXTENT` or `DST_CAP` of `10_state.md` R41, R42; log 1). -/
structure Window (x : Nat) where
  handle : Word x
  base : Nat
  size : Nat
deriving DecidableEq, Repr

/-- What the host and the platform do between commands (`70_reset_and_hazards.md` R346, log 3). -/
inductive HostAction (x : Nat)
  /-- write a value to register number `r` (`10_state.md` R20) -/
  | writeReg (r : Nat) (v : Word x)
  /-- read register number `r` (`10_state.md` R20) -/
  | readReg (r : Nat)
  /-- store a byte of a buffer (`70_reset_and_hazards.md` R346 (1)) -/
  | storeByte (a : Nat) (b : Byte)
  /-- map a buffer behind a handle (`20_memory.md` R75) -/
  | mapBuffer (w : Window x)
  /-- reset the block (`70_reset_and_hazards.md` R345, log 19) -/
  | reset
deriving DecidableEq, Repr

/-- The block built with parameters `P`, and what surrounds it: the six registers that store something,
the running command with its working registers and match table, the store behind the buffers, and the
host's side. -/
structure Block (P : Config.Params) where
  /-- `x[1]` SRC_BASE (`10_state.md` R22) -/
  srcBase : Word P.xlen
  /-- `x[2]` SRC_LEN (`10_state.md` R23) -/
  srcLen : Word P.xlen
  /-- `x[3]` DST_BASE (`10_state.md` R24) -/
  dstBase : Word P.xlen
  /-- `x[4]` DST_LEN (`10_state.md` R25) -/
  dstLen : Word P.xlen
  /-- `x[5]` RESULT (`10_state.md` R26) -/
  result : Word P.xlen
  /-- `x[6]` STATUS (`10_state.md` R27) -/
  status : Word P.xlen
  /-- the running command, if any -/
  phase : Phase
  /-- working registers (`10_state.md` R32) -/
  work : Work
  /-- the match table (`10_state.md` R43) -/
  tab : Tab
  /-- the platform's byte store, in which SRC and DST are windows (log 1) -/
  mem : Memory
  /-- the platform's map from handles to windows (log 1) -/
  windows : List (Window P.xlen)
  /-- pending host actions, oldest first (log 3) -/
  host : List (HostAction P.xlen)
  /-- what the last host register read returned (log 24) -/
  hostData : Word P.xlen
  /-- how many free values have been drawn (log 23) -/
  freeCount : Nat
deriving DecidableEq, Repr

/-- The machine's state: the parameters of `00_scope.md` R7, which no step changes, and the block built
with them (log 13, log 26). -/
structure State where
  params : Config.Params
  block : Block params
deriving DecidableEq, Repr

/-- Why the machine stops: the points where the spec gives no successor state (`00_scope.md` R12,
`70_reset_and_hazards.md` R340). -/
inductive Fault
  /-- A command reads SRC outside the bytes mapped behind `x[SRC_BASE]` (U2, `70_reset_and_hazards.md`
  R341). Raised by the reads of the sequence forms and by COMPRESS. Safe. -/
  | srcOutsideExtent
  /-- A command writes DST outside the bytes mapped behind `x[DST_BASE]` (U3, U4,
  `70_reset_and_hazards.md` R341, R343). Raised by the sequence forms and by COMPRESS. Safe. -/
  | dstOutsideExtent
  /-- The SRC and DST ranges of a command overlap (U5, `70_reset_and_hazards.md` R342). Raised by the
  three commands at launch. Safe. -/
  | buffersOverlap
  /-- A host access to a register number above 6 (U9, `10_state.md` R20). Raised by the host actions.
  Safe. -/
  | noSuchRegister
  /-- A read of a byte of the store that nothing has written (log 2). Raised by the reads of the
  sequence forms and by COMPRESS. Safe. -/
  | unwrittenByte
deriving DecidableEq, Repr

/-- Why the machine gives an instruction no meaning. -/
inductive Refusal
  /-- The instruction named by its mnemonic has no meaning in the model yet. Raised by `exec` alone;
  no arm of this model raises it. Safe. -/
  | notModelled (mnemonic : String)
deriving DecidableEq, Repr

/-- The working registers after reset. The spec leaves them unspecified and never reads them before
it writes them (`10_state.md` R33, R50); 0 is a DESIGN CHOICE (log 11). -/
def Work.reset : Work where
  n := 0
  variant := .narrow
  ip := 0
  op := 0
  anchor := 0
  fwd := 0
  attempts := 0
  step := 0
  ref := 0
  h := 0
  tokpos := 0
  mflimit := 0
  matchlimit := 0
  ilim := 0
  oend := 0
  token := 0
  litLen := 0
  matchLen := 0
  offset := 0

/-- A block right after reset, for any parameters: `10_state.md` R50, `70_reset_and_hazards.md` R345.
The registers are 0 and the block is idle as the spec says; the table, the working registers and the
model's other fields are DESIGN CHOICES (log 11). -/
def Block.reset {P : Config.Params} : Block P where
  srcBase := 0
  srcLen := 0
  dstBase := 0
  dstLen := 0
  result := 0
  status := 0
  phase := .idle
  work := Work.reset
  tab := []
  mem := []
  windows := []
  host := []
  hostData := 0
  freeCount := 0

/-- The machine right after reset, with the default parameters of `00_scope.md` R7. -/
def State.reset : State where
  params := Config.params
  block := Block.reset

end Sys2Proof.Machine
end

