-- ==== Sys2Proof/Machine/Flags.lean ====
section
/-! DEFINITION. The one status field of the block and the arithmetic of the error return:
`STATUS.CAUSE` (`10_state.md` R27, R31), `neg32` and the signed reading of a register
(`40_primitives.md` R138, `45_commands.md` R281). -/

namespace Sys2Proof.Machine

/-- The error causes of `60_exceptions.md` R300. -/
inductive Cause
  /-- `60_exceptions.md` R301 -/
  | outputOverflow
  /-- `60_exceptions.md` R302 -/
  | backReferenceUnderflow
  /-- `60_exceptions.md` R303 -/
  | invalidArgument
  /-- `60_exceptions.md` R304 -/
  | sourceExhausted
deriving DecidableEq, Repr

/-- The codes of `60_exceptions.md` R300, as STATUS holds them: RSV is 0 (R310). -/
def causeCode {x : Nat} : Cause → Word x
  | .outputOverflow => 1
  | .backReferenceUnderflow => 2
  | .invalidArgument => 3
  | .sourceExhausted => 4

/-- CAUSE = OK (`60_exceptions.md` R300, R309). -/
def causeOk {x : Nat} : Word x := 0

/-- Field CAUSE of a STATUS value, bits[2:0] (`10_state.md` R27). -/
def statusCause {x : Nat} (v : Word x) : BitVec 3 := v.extractLsb' 0 3

/-- Field RSV of a STATUS value, every bit above CAUSE (`10_state.md` R27). -/
def statusRsv {x : Nat} (v : Word x) : BitVec (x - 3) := v.extractLsb' 3 (x - 3)

/-- `neg32(c) = (2^32 - c) mod 2^32` (`00_scope.md` R9, `40_primitives.md` R138 (f)), for registers of
`x` bits: the two's-complement negation at XLEN. -/
def neg32 {x : Nat} (c : Nat) : Word x := BitVec.ofNat x (2 ^ x - c % 2 ^ x)

/-- `s(v)` of `45_commands.md` R281: the signed reading of a register of `x` bits. -/
def signed {x : Nat} (v : Word x) : Int :=
  if v.toNat < 2 ^ (x - 1) then (v.toNat : Int) else (v.toNat : Int) - 2 ^ x

end Sys2Proof.Machine
end

