-- ==== Sys2Proof/Machine/Ops.lean ====
section
/-! DEFINITION. The named operations over memory and registers: the byte store and its little-endian
accesses (`20_memory.md`, `40_primitives.md`), the SRC and DST windows, free values, and the two ends
of a command, `finish` and `raise`, which are the block's trap entry (`60_exceptions.md` R309, R310).
There is no return from an error (R312), so no operation for one. -/

namespace Sys2Proof.Machine

variable {P : Config.Params}

/-! ## Sparse lists in canonical form -/

/-- The value listed at a key. -/
def Assoc.get {α : Type} : List (Nat × α) → Nat → Option α
  | [], _ => none
  | (k, v) :: rest, a => if k = a then some v else Assoc.get rest a

/-- List a value at a key, in place of what was listed there. -/
def Assoc.put {α : Type} : List (Nat × α) → Nat → α → List (Nat × α)
  | [], a, v => [(a, v)]
  | (k, w) :: rest, a, v =>
    if a < k then (a, v) :: (k, w) :: rest
    else if a = k then (a, v) :: rest
    else (k, w) :: Assoc.put rest a v

/-- List nothing at a key. -/
def Assoc.del {α : Type} : List (Nat × α) → Nat → List (Nat × α)
  | [], _ => []
  | (k, w) :: rest, a => if a = k then rest else (k, w) :: Assoc.del rest a

/-- The canonical form: keys strictly rising. -/
abbrev Assoc.wf {α : Type} (l : List (Nat × α)) : Prop := l.Pairwise fun x y => x.1 < y.1

/-! ## The byte store -/

/-- The byte at an address, or `none` where nothing has been written (log 2). -/
def Memory.read (m : Memory) (a : Nat) : Option Byte := Assoc.get m a

/-- Write one byte. -/
def Memory.write (m : Memory) (a : Nat) (b : Byte) : Memory := Assoc.put m a b

/-- The canonical form of the store. -/
abbrev Memory.wf (m : Memory) : Prop := Assoc.wf m

/-- Write bytes to consecutive addresses, the lowest first. -/
def Memory.writeBytes : Memory → Nat → List Byte → Memory
  | m, _, [] => m
  | m, a, b :: bs => Memory.writeBytes (m.write a b) (a + 1) bs

/-- Copy `k` bytes from `a` to `b`, byte by byte in increasing order, each byte read after all earlier
bytes of the same copy have been written (`44_decoder.md` R242, `20_memory.md` R70, R73); `none` when
a byte to be read was never written. -/
def Memory.copy : Nat → Memory → Nat → Nat → Option Memory
  | 0, m, _, _ => some m
  | k + 1, m, a, b =>
    match m.read a with
    | none => none
    | some v => Memory.copy k (m.write b v) (a + 1) (b + 1)

/-- `MemRead` of `k` bytes, little-endian, at any alignment (`00_scope.md` R11, `20_memory.md` R60 to
R63; READ_LE16, READ_LE32, READ_LE64 of `40_primitives.md` R130 to R132 for `k` = 2, 4, 8). -/
def Memory.readLE : Nat → Memory → Nat → Option Nat
  | 0, _, _ => some 0
  | k + 1, m, a =>
    match m.read a, Memory.readLE k m (a + 1) with
    | some b, some v => some (b.toNat + 256 * v)
    | _, _ => none

/-- `MemWrite` of the `k` low bytes of `v`, little-endian, at any alignment (`00_scope.md` R11;
WRITE_LE16, WRITE_LE32, WRITE_LE64 of `40_primitives.md` R133 to R135 for `k` = 2, 4, 8). -/
def Memory.writeLE (m : Memory) (a k v : Nat) : Memory := m.writeBytes a (wordBytes k v)

/-! ## Primitives on words -/

/-- How many of the `k` low bytes of a number are 0 before the first one that is not: `ctz div 8`. -/
def zeroBytes : Nat → Nat → Nat
  | 0, _ => 0
  | k + 1, v => if v % 256 = 0 then zeroBytes k (v / 256) + 1 else 0

/-- NBCOMMON of two different little-endian words of `w` bytes: `ctz(a ^ b) div 8` (`40_primitives.md`
R136). Of two equal words the rule does not define it, and the model gives a free value (DESIGN CHOICE,
log 27). No rule of the machine calls it (R136, `43_encoder.md` R199). -/
def nbCommon (w a b : Nat) : Nat :=
  if a = b then Config.nbCommonEqual w a else zeroBytes w (a ^^^ b)

/-- HASH with a product of `bits` bits and a table index of `log` bits (`40_primitives.md` R137). -/
def hash (bits log w : Nat) : Nat := (w * Config.hashMul % 2 ^ bits) / 2 ^ (bits - log)

/-- `BOUND(n) = n + max(8, (n + 19) div 20)` (`70_reset_and_hazards.md` R343). -/
def bound (n : Nat) : Nat := n + max 8 ((n + 19) / 20)

/-! ## The windows SRC and DST -/

/-- The significant bits of a handle: the low ADDR_W (`10_state.md` R22, log 20). -/
def significant (P : Config.Params) (handle : Word P.xlen) : Nat := handle.toNat % 2 ^ P.addrW

/-- The buffer mapped behind a handle; nothing is mapped behind a handle the platform does not know,
nor behind the handle value 0 (`20_memory.md` R75, log 1). -/
def Block.window (s : Block P) (handle : Word P.xlen) : Window P.xlen :=
  if significant P handle = 0 then ⟨handle, 0, 0⟩
  else
    (s.windows.find? fun w => significant P w.handle == significant P handle).getD
      ⟨handle, 0, 0⟩

/-- The SRC space (`10_state.md` R41). -/
def Block.src (s : Block P) : Window P.xlen := s.window s.srcBase

/-- The DST space (`10_state.md` R42). -/
def Block.dst (s : Block P) : Window P.xlen := s.window s.dstBase

/-- The byte `SRC:i`, if it is mapped and written. -/
def Block.srcByte (s : Block P) (i : Nat) : Option Byte :=
  if i < s.src.size then s.mem.read (s.src.base + i) else none

/-- The byte `DST:i`, if it is mapped and written. -/
def Block.dstByte (s : Block P) (i : Nat) : Option Byte :=
  if i < s.dst.size then s.mem.read (s.dst.base + i) else none

/-- The fault of a read of SRC up to index `i` exclusive that could not be made. -/
def Block.srcFault (s : Block P) (i : Nat) : Fault :=
  if i ≤ s.src.size then .unwrittenByte else .srcOutsideExtent

/-- The first `k` bytes of SRC from index `i` on, cut before the first byte that cannot be read. -/
def Block.srcBytes (s : Block P) : Nat → Nat → List Byte
  | 0, _ => []
  | k + 1, i =>
    match s.srcByte i with
    | none => []
    | some b => b :: Block.srcBytes s k (i + 1)

/-- Store bytes in DST from index `i` on. -/
def Block.writeDst (s : Block P) (i : Nat) (bs : List Byte) : Block P :=
  { s with mem := s.mem.writeBytes (s.dst.base + i) bs }

/-! ## Free values -/

/-- `k` free bytes, numbered from draw `c` on. -/
def freeBytes : Nat → Nat → List Byte
  | _, 0 => []
  | c, k + 1 => Config.freeByte c :: freeBytes (c + 1) k

/-- Give `k` bytes of DST from index `i` on free values (`44_decoder.md` R244, R249). -/
def Block.freeDst (s : Block P) (i k : Nat) : Block P :=
  { s with
    mem := s.mem.writeBytes (s.dst.base + i) (freeBytes s.freeCount k)
    freeCount := s.freeCount + k }

/-- What a command leaves past its final cursor: every DST byte from `lo` up to the bound `hi`
exclusive, as far as it is mapped, holds any value (`20_memory.md` R67, `44_decoder.md` R249,
`45_commands.md` R286, log 9). -/
def Block.scratchDst (s : Block P) (lo hi : Nat) : Block P := s.freeDst lo (min hi s.dst.size - lo)

/-! ## The ends of a command -/

/-- `finish(v)` (`60_exceptions.md` R309): RESULT and STATUS are written and the block goes idle. -/
def Block.finish (s : Block P) (v : Nat) : Block P :=
  { s with result := BitVec.ofNat P.xlen v, status := causeOk, phase := .idle }

/-- `raise <Cause>(c)` (`60_exceptions.md` R310): RESULT and STATUS are written and the block goes
idle. This is everything that happens; nothing is saved and control goes nowhere. -/
def Block.raise (s : Block P) (cause : Cause) (c : Nat) : Block P :=
  { s with result := neg32 c, status := causeCode cause, phase := .idle }

/-! ## Launch -/

/-- Whether two ranges of addresses, given by base and length, have an address in common. -/
def rangesMeet (a k b l : Nat) : Bool := decide (max a b < min (a + k) (b + l))

/-- Whether the bytes of SRC that a command may read (below `n`) and the bytes of DST that it may
write (below `m`) overlap (`70_reset_and_hazards.md` R342, log 17). -/
def Block.overlap (s : Block P) (n m : Nat) : Bool :=
  rangesMeet s.src.base (min n s.src.size) s.dst.base (min m s.dst.size)

/-- The conditions of CHECK_ARGS that do not depend on the command: a null handle or a negative
SRC_LEN (`45_commands.md` R281). -/
def Block.badSource (s : Block P) : Bool :=
  s.srcBase == 0 || s.dstBase == 0 || decide (signed s.srcLen < 0)

end Sys2Proof.Machine
end

