-- ==== Sys2Proof/Machine/Operands.lean ====
section
/-! DEFINITION. The operand forms of a sequence, read from the stream at the cursor with the checks of
`44_decoder.md` R231: control byte, literal-run length, offset, match length (`30_encoding.md` R107).
Each operation is one step of `44_decoder.md` on the working registers. -/

namespace Sys2Proof.Machine

variable {P : Config.Params}

/-- What a decoder step does: it goes on, it ends the command by `raise` in the state it has reached
(`60_exceptions.md` R306, R307), or it stops the model. -/
inductive Flow (P : Config.Params)
  /-- go on in this state -/
  | go (s : Block P)
  /-- end the command with this cause; everything done so far stands, and the cursors hold what
  `60_exceptions.md` R307 says -/
  | raised (c : Cause) (s : Block P)
  /-- no successor state -/
  | fault (f : Fault)
deriving DecidableEq, Repr

/-- One step after another: a `raise` or a fault ends the sequence (`00_scope.md` R12). -/
def Flow.andThen (f : Flow P) (k : Block P → Flow P) : Flow P :=
  match f with
  | .go s => k s
  | .raised c s => .raised c s
  | .fault r => .fault r

/-- Whether DECOMPRESS_UNKNOWN runs: the flag `unknown` of `44_decoder.md` R230. -/
def Block.isUnknown (s : Block P) : Bool := s.phase == .unknown

/-- The stream bytes from the cursor up to the read limit (`44_decoder.md` R231), cut before the first
one that is not mapped or was never written. -/
def Block.unread (s : Block P) : List Byte := s.srcBytes (s.work.ilim - s.work.ip) s.work.ip

/-- `MemRead(SRC:i, k)` (`00_scope.md` R11) where all `k` bytes are mapped and written. -/
def Block.srcLE (s : Block P) (k i : Nat) : Option Nat :=
  if i + k ≤ s.src.size then Memory.readLE k s.mem (s.src.base + i) else none

/-- READ_TOKEN, first line: the control byte at the cursor is taken (`44_decoder.md` R234). -/
def takeToken (t : Byte) (s : Block P) : Block P :=
  { s with work := { s.work with token := t, ip := s.work.ip + 1 } }

/-- `L` is set (`42_length_codec.md` R177). -/
def setLitLen (v : Nat) (s : Block P) : Block P := { s with work := { s.work with litLen := v } }

/-- `M <- C + 4` (`42_length_codec.md` R178). -/
def setMatchLen (code : Nat) (s : Block P) : Block P :=
  { s with work := { s.work with matchLen := code + Config.minMatch } }

/-- The cursor moves over `k` stream bytes (`10_state.md` R30). -/
def advance (k : Nat) (s : Block P) : Block P :=
  { s with work := { s.work with ip := s.work.ip + k } }

/-- DEC_EXT (`42_length_codec.md` R175): `set` receives `15 + ` the sum of the extension bytes. When
the read limit comes before a closing byte, SourceExhausted with the cursor at the missing byte
(`44_decoder.md` R231). -/
def decExt (set : Nat → Block P → Block P) (s : Block P) : Flow P :=
  match extSum s.unread with
  | some (v, k) => .go (set (Config.nibbleMax + v) (advance k s))
  | none =>
    if s.unread.length = s.work.ilim - s.work.ip then
      .raised .sourceExhausted (advance s.unread.length s)
    else .fault (s.srcFault (s.work.ip + s.unread.length + 1))

/-- Literal-run length of a short form (`42_length_codec.md` R177). -/
def litShort (ll : BitVec 4) (s : Block P) : Flow P := .go (setLitLen ll.toNat s)

/-- Literal-run length of an extended form: `L` is the saturated nibble until DEC_EXT has read the whole
extension (`42_length_codec.md` R177). -/
def litExtended (s : Block P) : Flow P := decExt setLitLen (setLitLen Config.nibbleMax s)

/-- Match length of a short form (`42_length_codec.md` R178). -/
def matchShort (ml : BitVec 4) (s : Block P) : Flow P := .go (setMatchLen ml.toNat s)

/-- Match length of an extended form (`42_length_codec.md` R178). -/
def matchExtended (s : Block P) : Flow P := decExt setMatchLen s

/-- READ_OFFSET (`44_decoder.md` R240): two bytes, then the underflow check. -/
def readOffset (s : Block P) : Flow P :=
  if s.work.ilim < s.work.ip + Config.offsetBytes then .raised .sourceExhausted s
  else
    match s.srcLE Config.offsetBytes s.work.ip with
    | none => .fault (s.srcFault (s.work.ip + Config.offsetBytes))
    | some v =>
      let s' := advance Config.offsetBytes { s with work := { s.work with offset := v } }
      if s.work.op < v then .raised .backReferenceUnderflow s' else .go s'

end Sys2Proof.Machine
end

