-- ==== Sys2Proof/Machine/Decoder.lean ====
section
/-! DEFINITION. The steps of the decoder that act on DST and on the command: the two copies, the ends
of a decoder command, and the fetch of the next sequence (`44_decoder.md` R232 to R249). -/

namespace Sys2Proof.Machine

variable {P : Config.Params}

/-- Whether the `k` bytes of DST from the output cursor on are mapped. -/
def Block.roomInDst (s : Block P) (k : Nat) : Bool := k == 0 || decide (s.work.op + k ≤ s.dst.size)

/-- Whether the `k` bytes of SRC from the stream cursor on are mapped. -/
def Block.roomInSrc (s : Block P) (k : Nat) : Bool := k == 0 || decide (s.work.ip + k ≤ s.src.size)

/-- The literal run of a sequence of either kind: CHECK_RUN's two checks in their order
(`44_decoder.md` R236, R238; `60_exceptions.md` R306 checks 3 and 4), then the copy of `L` bytes and
the advance of both cursors. -/
def copyLiterals (s : Block P) : Flow P :=
  if s.work.oend < s.work.op + s.work.litLen then .raised .outputOverflow s
  else if s.work.ilim < s.work.ip + s.work.litLen then .raised .sourceExhausted s
  else if !s.roomInSrc s.work.litLen then .fault .srcOutsideExtent
  else if !s.roomInDst s.work.litLen then .fault .dstOutsideExtent
  else
    match s.mem.copy s.work.litLen (s.src.base + s.work.ip) (s.dst.base + s.work.op) with
    | none => .fault .unwrittenByte
    | some m =>
      .go { s with
        mem := m
        work := { s.work with op := s.work.op + s.work.litLen, ip := s.work.ip + s.work.litLen } }

/-- The output cursor moves over the match (`44_decoder.md` R242). -/
def advanceOut (k : Nat) (s : Block P) : Block P :=
  { s with work := { s.work with op := s.work.op + k } }

/-- The bound check of READ_MATCHLEN and COPY_MATCH (`44_decoder.md` R241, R242). With offset 0 the
bytes of the match get free values (R244, log 8). -/
def copyMatch (s : Block P) : Flow P :=
  if s.work.oend < s.work.op + s.work.matchLen then .raised .outputOverflow s
  else if !s.roomInDst s.work.matchLen then .fault .dstOutsideExtent
  else if s.work.offset = 0 then
    .go (advanceOut s.work.matchLen (s.freeDst s.work.op s.work.matchLen))
  else
    match s.mem.copy s.work.matchLen (s.dst.base + (s.work.op - s.work.offset))
        (s.dst.base + s.work.op) with
    | none => .fault .unwrittenByte
    | some m => .go (advanceOut s.work.matchLen { s with mem := m })

/-- The value a decoder command finishes with: bytes produced (unknown-size) or bytes consumed
(fixed-size) (`44_decoder.md` R247). -/
def Block.finishValue (s : Block P) : Nat := if s.isUnknown then s.work.op else s.work.ip

/-- The success end of a decoder command (`44_decoder.md` R247, R249). -/
def Block.decodeFinish (s : Block P) : Block P :=
  (s.scratchDst s.work.op s.work.oend).finish s.finishValue

/-- The error end of a decoder command: the consumed count is the cursor (`44_decoder.md` R247, R249,
`60_exceptions.md` R310). -/
def Block.decodeRaise (s : Block P) (c : Cause) : Block P :=
  (s.scratchDst s.work.op s.work.oend).raise c s.work.ip

/-- What a sequence's steps come to for the machine: the next sequence is due (NEXT, `44_decoder.md`
R243), or the command has ended. -/
def Flow.outcome : Flow P → Host.Outcome State Fault Refusal
  | .go s => .next ⟨P, s⟩
  | .raised c s => .next ⟨P, s.decodeRaise c⟩
  | .fault f => .fault f

/-- A terminal sequence's steps end the command (`44_decoder.md` R236, R239). -/
def Flow.terminal (f : Flow P) : Host.Outcome State Fault Refusal :=
  match f with
  | .go s => .next ⟨P, s.decodeFinish⟩
  | .raised c s => .next ⟨P, s.decodeRaise c⟩
  | .fault f => .fault f

/-- The context of `30_encoding.md` R102 in a state. -/
def Block.context (s : Block P) : Context where
  unknown := s.isUnknown
  ip := s.work.ip
  op := s.work.op
  ilim := s.work.ilim
  oend := s.work.oend

/-- What the top of the decoder's loop finds. -/
inductive Fetched (P : Config.Params)
  /-- the command ends here -/
  | ended (s : Block P)
  /-- a sequence, still at the cursor -/
  | sequence (i : Instr)
  /-- the control byte cannot be read -/
  | fault (f : Fault)
deriving DecidableEq, Repr

/-- LOOP_TOP and the reading of the control byte (`44_decoder.md` R233, R234; `60_exceptions.md` R306
check 1). The sequence is told to be SEQ or LAST here, by looking ahead at its literal extension. -/
def Block.fetch (s : Block P) : Fetched P :=
  if s.isUnknown && decide (s.work.ilim ≤ s.work.ip) then .ended s.decodeFinish
  else if s.work.ilim < s.work.ip + 1 then .ended (s.decodeRaise .sourceExhausted)
  else
    match decodeSequence P s.context s.unread with
    | .ok i => .sequence i
    | .error _ => .fault (s.srcFault (s.work.ip + 1))

/-- DEC_START (`44_decoder.md` R232): the first values of the decoder's working registers. -/
def Block.startDecoder (s : Block P) (p : Phase) : Block P :=
  { s with
    phase := p
    work := { s.work with ip := 0, op := 0, ilim := s.srcLen.toNat, oend := s.dstLen.toNat } }

end Sys2Proof.Machine
end

