-- ==== Sys2Proof/Machine/MatchFinder.lean ====
section
/-! DEFINITION. The match finder (`41_match_finder.md`): TABLE_CLEAR, INSERT, LOOKUP, VERIFY, PROBE, in
both variants. SRC is given as the function from an index to its byte. -/

namespace Sys2Proof.Machine

/-- The working state of a running encoder: working registers, match table and the bytes written to
DST so far, index 0 first (`43_encoder.md` R190). -/
structure Enc where
  w : Work
  tab : Tab
  out : List Byte
deriving DecidableEq, Repr

/-- HASH_LOG of a variant (`41_match_finder.md` R150). -/
def hashLog (P : Config.Params) : Variant → Nat
  | .narrow => P.hashLogNarrow
  | .wide => P.hashLogWide

/-- ENTRY_W of a variant (`10_state.md` R44). -/
def entryW (P : Config.Params) : Variant → Nat
  | .narrow => Config.entryWNarrow
  | .wide => P.entryWWide

/-- Variant selection (`45_commands.md` R282). -/
def variantOf (n : Nat) : Variant := if n < Config.variantThreshold then .narrow else .wide

/-- Entry `h` of TAB: 0 unless something else is listed (`10_state.md` R43). -/
def Tab.get (t : Tab) (h : Nat) : Nat := (Assoc.get t h).getD 0

/-- Write entry `h` of TAB, keeping the canonical form. -/
def Tab.set (t : Tab) (h p : Nat) : Tab := if p = 0 then Assoc.del t h else Assoc.put t h p

/-- The canonical form of the table: indices strictly rising, no position 0 listed. -/
abbrev Tab.wf (t : Tab) : Prop := Assoc.wf t ∧ ∀ e ∈ t, e.2 ≠ 0

/-- TABLE_CLEAR: every entry of the variant's geometry becomes 0 (`41_match_finder.md` R151). -/
def tableClear (P : Config.Params) (v : Variant) (t : Tab) : Tab :=
  t.filter fun e => decide (2 ^ hashLog P v ≤ e.1)

/-- `Src32(p)`, little-endian (`00_scope.md` R11, READ_LE32 of `40_primitives.md` R131). -/
def src32 (src : Nat → Byte) (p : Nat) : Nat :=
  (src p).toNat + 256 * (src (p + 1)).toNat + 65536 * (src (p + 2)).toNat +
    16777216 * (src (p + 3)).toNat

/-- The bucket of position `p` (`40_primitives.md` R137). -/
def bucket (P : Config.Params) (v : Variant) (src : Nat → Byte) (p : Nat) : Nat :=
  hash P.hashWordBits (hashLog P v) (src32 src p)

/-- INSERT (`41_match_finder.md` R152). An entry holds ENTRY_W bits (`10_state.md` R43, R44). The spec
says that every position fits; of one that does not, at parameters other than the defaults, the entry
keeps the low ENTRY_W bits (DESIGN CHOICE, log 28). -/
def insertPos (P : Config.Params) (src : Nat → Byte) (p : Nat) (e : Enc) : Enc :=
  { e with tab := Tab.set e.tab (bucket P e.w.variant src p) (p % 2 ^ entryW P e.w.variant) }

/-- LOOKUP (`41_match_finder.md` R153). -/
def lookupPos (P : Config.Params) (src : Nat → Byte) (p : Nat) (e : Enc) : Nat :=
  Tab.get e.tab (bucket P e.w.variant src p)

/-- VERIFY (`41_match_finder.md` R154). -/
def verify (v : Variant) (src : Nat → Byte) (p ref : Nat) : Bool :=
  (v == .narrow || decide (p - ref ≤ Config.maxDistance)) && src32 src ref == src32 src p

/-- PROBE (`41_match_finder.md` R155): lookup, then insert, then verify. The index is left in `h`, the
candidate in `ref`. -/
def probe (P : Config.Params) (src : Nat → Byte) (p : Nat) (e : Enc) : Enc × Bool :=
  let ref := lookupPos P src p e
  let e' := insertPos P src p e
  ({ e' with w := { e'.w with h := bucket P e.w.variant src p, ref := ref } },
    verify e.w.variant src p ref)

end Sys2Proof.Machine
end

