-- ==== Sys2Proof/Machine/Encoder.lean ====
section
/-! DEFINITION. The greedy encoder (`43_encoder.md` R190 to R204), one definition per step rule and a
label for each `goto`. The bytes written to DST are collected in order; index `op` of DST is always
the end of what has been collected. -/

namespace Sys2Proof.Machine

/-- Where the encoder goes next: the names of the steps of `43_encoder.md` section 1. -/
inductive EncLabel
  | seed
  | search
  | catchUp
  | emitLiterals
  | emitMatch
  | extend
  | emitMatchlen
  | afterMatch
  | lastLiterals
  | done
deriving DecidableEq, Repr

/-- `MemWrite` of bytes at the output cursor, which moves behind them. -/
def Enc.emit (e : Enc) (bs : List Byte) : Enc :=
  { e with out := e.out ++ bs, w := { e.w with op := e.w.op + bs.length } }

/-- The `k` bytes `SRC:a ..`. -/
def slice (src : Nat → Byte) : Nat → Nat → List Byte
  | _, 0 => []
  | a, k + 1 => src a :: slice src (a + 1) k

/-- ENC_LITLEN (`42_length_codec.md` R173). -/
def encLitLen (len : Nat) (e : Enc) : Enc :=
  let e := { e with w := { e.w with tokpos := e.w.op, litLen := len } }
  let e := e.emit [controlByte len 0]
  e.emit (extOf len)

/-- ENC_MATCHLEN (`42_length_codec.md` R174): the control byte is read back and its low nibble set. -/
def encMatchLen (m : Nat) (e : Enc) : Enc :=
  let code := m - Config.minMatch
  let e := { e with
    out := e.out.modify e.w.tokpos fun t => t ||| BitVec.ofNat 8 (nibble code)
    w := { e.w with matchLen := m } }
  e.emit (extOf code)

/-- ENC_START (`43_encoder.md` R191): the first label and the first values of the registers. -/
def encStart (P : Config.Params) (n : Nat) (e : Enc) : EncLabel × Enc :=
  let e := { e with w := { e.w with n := n, ip := 0, anchor := 0, op := 0 } }
  if n < P.minLength then (.lastLiterals, e)
  else
    (.seed, { e with w := { e.w with mflimit := n - P.mfLimit, matchlimit := n - P.lastLiterals } })

/-- SEED (`43_encoder.md` R192). -/
def encSeed (P : Config.Params) (src : Nat → Byte) (e : Enc) : EncLabel × Enc :=
  let e := insertPos P src 0 e
  (.search, { e with w := { e.w with ip := 1 } })

/-- The loop of SEARCH (`43_encoder.md` R193). Every attempt moves `ip` forward, so the fuel, one more
than the input length, is never used up (`70_reset_and_hazards.md` R351, log 18). -/
def searchLoop (P : Config.Params) (src : Nat → Byte) : Nat → Enc → EncLabel × Enc
  | 0, e => (.lastLiterals, e)
  | fuel + 1, e =>
    let step := e.w.attempts / 2 ^ P.skipStrength
    let ip := e.w.fwd
    let e := { e with
      w := { e.w with step := step, attempts := e.w.attempts + 1, ip := ip, fwd := ip + step } }
    if e.w.mflimit < ip + step then (.lastLiterals, e)
    else
      match probe P src ip e with
      | (e', true) => (.catchUp, e')
      | (e', false) => searchLoop P src fuel e'

/-- SEARCH (`43_encoder.md` R193). -/
def encSearch (P : Config.Params) (src : Nat → Byte) (e : Enc) : EncLabel × Enc :=
  searchLoop P src (e.w.n + 1)
    { e with w := { e.w with attempts := P.attemptInit, fwd := e.w.ip } }

/-- The loop of CATCH_UP on `ip` and `ref` (`43_encoder.md` R196); it can walk back at most `ref`
bytes. -/
def catchUpLoop (src : Nat → Byte) (anchor : Nat) : Nat → Nat → Nat × Nat
  | ip, 0 => (ip, 0)
  | ip, ref + 1 =>
    if anchor < ip && src (ip - 1) == src ref then catchUpLoop src anchor (ip - 1) ref
    else (ip, ref + 1)

/-- CATCH_UP (`43_encoder.md` R196). -/
def encCatchUp (src : Nat → Byte) (e : Enc) : EncLabel × Enc :=
  let r := catchUpLoop src e.w.anchor e.w.ip e.w.ref
  (.emitLiterals, { e with w := { e.w with ip := r.1, ref := r.2 } })

/-- EMIT_LITERALS (`43_encoder.md` R197). -/
def encEmitLiterals (src : Nat → Byte) (e : Enc) : EncLabel × Enc :=
  let len := e.w.ip - e.w.anchor
  (.emitMatch, (encLitLen len e).emit (slice src e.w.anchor len))

/-- EMIT_MATCH (`43_encoder.md` R198). -/
def encEmitMatch (e : Enc) : EncLabel × Enc := (.extend, e.emit (le16 (e.w.ip - e.w.ref)))

/-- The loop of EXTEND (`43_encoder.md` R199): how many bytes from `ref` and `ip` on agree, at most
`k`. -/
def extendLoop (src : Nat → Byte) : Nat → Nat → Nat → Nat
  | 0, _, _ => 0
  | k + 1, ip, ref => if src ref = src ip then extendLoop src k (ip + 1) (ref + 1) + 1 else 0

/-- EXTEND (`43_encoder.md` R199): the four verified bytes and the longest agreement after them, cut
at `matchlimit`. -/
def encExtend (src : Nat → Byte) (e : Enc) : EncLabel × Enc :=
  let ip := e.w.ip + Config.minMatch
  let ref := e.w.ref + Config.minMatch
  let k := extendLoop src (e.w.matchlimit - ip) ip ref
  (.emitMatchlen,
    { e with w := { e.w with ip := ip + k, ref := ref + k, matchLen := Config.minMatch + k } })

/-- EMIT_MATCHLEN (`43_encoder.md` R200). -/
def encEmitMatchlen (e : Enc) : EncLabel × Enc :=
  let e := encMatchLen e.w.matchLen e
  (.afterMatch, { e with w := { e.w with anchor := e.w.ip } })

/-- AFTER_MATCH (`43_encoder.md` R201). -/
def encAfterMatch (P : Config.Params) (src : Nat → Byte) (e : Enc) : EncLabel × Enc :=
  if e.w.mflimit < e.w.ip then (.lastLiterals, e)
  else
    match probe P src e.w.ip e with
    | (e', true) => (.emitMatch, encLitLen 0 e')
    | (e', false) => (.search, { e' with w := { e'.w with ip := e'.w.ip + 1 } })

/-- LAST_LITERALS (`43_encoder.md` R203). -/
def encLastLiterals (src : Nat → Byte) (e : Enc) : EncLabel × Enc :=
  let len := e.w.n - e.w.anchor
  (.done, (encLitLen len e).emit (slice src e.w.anchor len))

/-- One step of the encoder: the rule of the label. -/
def encStep (P : Config.Params) (src : Nat → Byte) (l : EncLabel) (e : Enc) : EncLabel × Enc :=
  match l with
  | .seed => encSeed P src e
  | .search => encSearch P src e
  | .catchUp => encCatchUp src e
  | .emitLiterals => encEmitLiterals src e
  | .emitMatch => encEmitMatch e
  | .extend => encExtend src e
  | .emitMatchlen => encEmitMatchlen e
  | .afterMatch => encAfterMatch P src e
  | .lastLiterals => encLastLiterals src e
  | .done => (.done, e)

/-- Steps of the encoder until it is done. -/
def encRun (P : Config.Params) (src : Nat → Byte) : Nat → EncLabel × Enc → EncLabel × Enc
  | 0, r => r
  | k + 1, r => if r.1 = .done then r else encRun P src k (encStep P src r.1 r.2)

/-- ENCODE (`43_encoder.md` R204) after TABLE_CLEAR and variant selection (`45_commands.md` R283). A
sequence takes at most seven steps and covers at least four input bytes, so the fuel is never used up
(`70_reset_and_hazards.md` R351, log 18). -/
def encode (P : Config.Params) (src : Nat → Byte) (n : Nat) (w : Work) (t : Tab) : EncLabel × Enc :=
  let v := variantOf n
  encRun P src (2 * n + 8)
    (encStart P n { w := { w with variant := v }, tab := tableClear P v t, out := [] })

end Sys2Proof.Machine
end

