-- ==== Sys2Proof/Machine/Commands.lean ====
section
/-! DEFINITION. The meanings of the three commands (`45_commands.md`): CHECK_ARGS, the launch premises
that the model tests, and the bodies. COMPRESS is one step; a decoder command starts the decoder, whose
sequences are the machine's next steps (`10_state.md` R28, log 5). -/

namespace Sys2Proof.Machine

variable {P : Config.Params}

/-- CHECK_ARGS for COMPRESS (`45_commands.md` R281). DST_LEN is not looked at. -/
def Block.badCompress (s : Block P) : Bool :=
  s.badSource || decide ((Config.maxCompressLen P.xlen : Int) < signed s.srcLen)

/-- CHECK_ARGS for the decoder commands (`45_commands.md` R281). -/
def Block.badDecompress (s : Block P) : Bool := s.badSource || decide (signed s.dstLen < 0)

/-- The function from an index of SRC to its byte, for an input all of whose bytes can be read. -/
def Block.srcFun (s : Block P) (i : Nat) : Byte := (s.srcByte i).getD 0

/-- The effect of a COMPRESS whose encoder came to `e` (`45_commands.md` R283, R286): the stream in
DST, free values from its end up to the bound, RESULT and STATUS. -/
def Block.compressed (s : Block P) (e : Enc) : Block P :=
  let s := { s.writeDst 0 e.out with work := e.w, tab := e.tab }
  (s.scratchDst e.out.length (bound e.w.n)).finish e.out.length

/-- The body of COMPRESS (`45_commands.md` R283). The encoder reads every byte of its input and writes its output
without gaps from DST:0 on, so the reads are tested before and the writes after it (log 14). -/
def Block.compress (s : Block P) : Host.Outcome State Fault Refusal :=
  if s.badCompress then .next ⟨P, s.raise .invalidArgument 0⟩
  else if s.overlap s.srcLen.toNat (bound s.srcLen.toNat) then .fault .buffersOverlap
  else if (s.srcBytes s.srcLen.toNat 0).length < s.srcLen.toNat then
    .fault (s.srcFault ((s.srcBytes s.srcLen.toNat 0).length + 1))
  else
    let e := (encode P s.srcFun s.srcLen.toNat s.work s.tab).2
    if s.dst.size < e.out.length then .fault .dstOutsideExtent
    else .next ⟨P, s.compressed e⟩

/-- COMPRESS (`45_commands.md` R283). -/
def execCompress (s : State) : Host.Outcome State Fault Refusal := s.block.compress

/-- The start of a decoder command: CHECK_ARGS, the disjointness premise, DEC_START. -/
def Block.startDecompress (s : Block P) (p : Phase) : Host.Outcome State Fault Refusal :=
  if s.badDecompress then .next ⟨P, s.raise .invalidArgument 0⟩
  else if s.overlap s.srcLen.toNat s.dstLen.toNat then .fault .buffersOverlap
  else .next ⟨P, s.startDecoder p⟩

/-- DECOMPRESS_FIXED (`45_commands.md` R284). -/
def execDecompressFixed (s : State) : Host.Outcome State Fault Refusal :=
  s.block.startDecompress .fixed

/-- DECOMPRESS_UNKNOWN (`45_commands.md` R285). -/
def execDecompressUnknown (s : State) : Host.Outcome State Fault Refusal :=
  s.block.startDecompress .unknown

end Sys2Proof.Machine
end

