-- ==== Sys2Proof/Machine/Sequences.lean ====
section
/-! DEFINITION. The meanings of the six sequence forms (`44_decoder.md` R250 to R255), met at the
stream cursor. Each runs the steps of `44_decoder.md` section 1 in their order; a step that raises ends
the command (`60_exceptions.md` R306). -/

namespace Sys2Proof.Machine

/-- SEQ.SS (`44_decoder.md` R250). -/
def execSeqSS (ll ml : BitVec 4) (s : State) : Host.Outcome State Fault Refusal :=
  ((((litShort ll (takeToken (token ll ml) s.block)).andThen copyLiterals).andThen readOffset).andThen
    (matchShort ml)).andThen copyMatch |>.outcome

/-- SEQ.XS (`44_decoder.md` R251). -/
def execSeqXS (ml : BitVec 4) (s : State) : Host.Outcome State Fault Refusal :=
  ((((litExtended (takeToken (token 15 ml) s.block)).andThen copyLiterals).andThen readOffset).andThen
    (matchShort ml)).andThen copyMatch |>.outcome

/-- SEQ.SX (`44_decoder.md` R252). -/
def execSeqSX (ll : BitVec 4) (s : State) : Host.Outcome State Fault Refusal :=
  ((((litShort ll (takeToken (token ll 15) s.block)).andThen copyLiterals).andThen readOffset).andThen
    matchExtended).andThen copyMatch |>.outcome

/-- SEQ.XX (`44_decoder.md` R253). -/
def execSeqXX (s : State) : Host.Outcome State Fault Refusal :=
  ((((litExtended (takeToken (token 15 15) s.block)).andThen copyLiterals).andThen readOffset).andThen
    matchExtended).andThen copyMatch |>.outcome

/-- LAST.S (`44_decoder.md` R254). The low nibble is not looked at. -/
def execLastS (ll x : BitVec 4) (s : State) : Host.Outcome State Fault Refusal :=
  (litShort ll (takeToken (token ll x) s.block)).andThen copyLiterals |>.terminal

/-- LAST.X (`44_decoder.md` R255). The low nibble is not looked at. -/
def execLastX (x : BitVec 4) (s : State) : Host.Outcome State Fault Refusal :=
  (litExtended (takeToken (token 15 x) s.block)).andThen copyLiterals |>.terminal

end Sys2Proof.Machine
end

