-- ==== Sys2Proof/Machine/Dispatch.lean ====
section
/-! DEFINITION. The dispatch of an instruction to its meaning, one arm per constructor. -/

namespace Sys2Proof.Machine

-- `45_commands.md` R280, `44_decoder.md` R250 to R255.
def exec (i : Instr) (s : State) : Host.Outcome State Fault Refusal :=
  match i with
  | .compress => Sys2Proof.Machine.execCompress s
  | .decompressFixed => Sys2Proof.Machine.execDecompressFixed s
  | .decompressUnknown => Sys2Proof.Machine.execDecompressUnknown s
  | .seqSS ll ml => Sys2Proof.Machine.execSeqSS ll ml s
  | .seqXS ml => Sys2Proof.Machine.execSeqXS ml s
  | .seqSX ll => Sys2Proof.Machine.execSeqSX ll s
  | .seqXX => Sys2Proof.Machine.execSeqXX s
  | .lastS ll x => Sys2Proof.Machine.execLastS ll x s
  | .lastX x => Sys2Proof.Machine.execLastX x s

end Sys2Proof.Machine
end

