-- ==== Sys2Proof/Machine/HostSide.lean ====
section
/-! DEFINITION. The host's side: register accesses by number (`10_state.md` R20), the start of a
command by a write to `x[CMD]` (`45_commands.md` R280), the platform's buffers, reset. -/

namespace Sys2Proof.Machine

variable {P : Config.Params}

/-- START (`45_commands.md` R280): a reserved word ends at once with InvalidArgument (R281). -/
def startCommand (w : Word P.xlen) (s : Block P) : Host.Outcome State Fault Refusal :=
  match decodeCommand w with
  | .ok i => exec i ⟨P, s⟩
  | .error _ => .next ⟨P, s.raise .invalidArgument 0⟩

/-- A host write to register `r` (`10_state.md` R20 to R27). RESULT and STATUS ignore it (U13); a
number above 6 does not exist (U9). -/
def writeRegister (r : Nat) (v : Word P.xlen) (s : Block P) : Host.Outcome State Fault Refusal :=
  match r with
  | 0 => startCommand v s
  | 1 => .next ⟨P, { s with srcBase := v }⟩
  | 2 => .next ⟨P, { s with srcLen := v }⟩
  | 3 => .next ⟨P, { s with dstBase := v }⟩
  | 4 => .next ⟨P, { s with dstLen := v }⟩
  | 5 => .next ⟨P, s⟩
  | 6 => .next ⟨P, s⟩
  | _ => .fault .noSuchRegister

/-- A host read of register `r`; CMD stores nothing and reads as any value (`10_state.md` R21, U8,
log 10). -/
def readRegister (r : Nat) (s : Block P) : Host.Outcome State Fault Refusal :=
  match r with
  | 0 => .next ⟨P, { s with hostData := Config.freeWord P.xlen s.freeCount, freeCount := s.freeCount + 1 }⟩
  | 1 => .next ⟨P, { s with hostData := s.srcBase }⟩
  | 2 => .next ⟨P, { s with hostData := s.srcLen }⟩
  | 3 => .next ⟨P, { s with hostData := s.dstBase }⟩
  | 4 => .next ⟨P, { s with hostData := s.dstLen }⟩
  | 5 => .next ⟨P, { s with hostData := s.result }⟩
  | 6 => .next ⟨P, { s with hostData := s.status }⟩
  | _ => .fault .noSuchRegister

/-- Reset of the block (`70_reset_and_hazards.md` R345, `10_state.md` R50): the registers take their
reset values and the block is idle; SRC and DST, the platform and the host are not touched (log 19). The
block's parameters stay what it is built with. -/
def Block.resetBlock (s : Block P) : Block P :=
  { Block.reset with
    mem := s.mem
    windows := s.windows
    host := s.host
    hostData := s.hostData
    freeCount := s.freeCount }

/-- One host action on an idle block (`10_state.md` R28, log 3). -/
def hostAct (a : HostAction P.xlen) (s : Block P) : Host.Outcome State Fault Refusal :=
  match a with
  | .writeReg r v => writeRegister r v s
  | .readReg r => readRegister r s
  | .storeByte addr b => .next ⟨P, { s with mem := s.mem.write addr b }⟩
  | .mapBuffer w => .next ⟨P, { s with
      windows := w :: s.windows.filter fun x =>
        significant P x.handle != significant P w.handle }⟩
  | .reset => .next ⟨P, s.resetBlock⟩

/-- A step of an idle block: the oldest pending host action, or nothing (`60_exceptions.md` R334). -/
def idleStep (s : Block P) : Host.Outcome State Fault Refusal :=
  match s.host with
  | [] => .next ⟨P, s⟩
  | a :: rest => hostAct a { s with host := rest }

/-- A step of a running decoder: the next sequence (`44_decoder.md` R233, R243). -/
def decoderStep (s : Block P) : Host.Outcome State Fault Refusal :=
  match s.fetch with
  | .ended s' => .next ⟨P, s'⟩
  | .sequence i => exec i ⟨P, s⟩
  | .fault f => .fault f

/-- The address behind the SRC handle that `withFetchWord` maps its stream at. -/
def fetchSrcBase : Nat := 0

/-- The address behind the DST handle that `withFetchWord` maps. -/
def fetchDstBase : Nat := 4096

/-- `s` with a stream placed for a running fixed-size decoder, so that the next step runs the sequence
at its front: handles, windows, lengths, cursors and the stream's bytes (log 4, log 7). -/
def Block.withStream (s : Block P) (bs : List Byte) : Block P :=
  { s with
    srcBase := 1
    srcLen := BitVec.ofNat P.xlen bs.length
    dstBase := 2
    dstLen := 64
    phase := .fixed
    work := { s.work with ip := 0, op := 0, ilim := bs.length, oend := 64 }
    mem := s.mem.writeBytes fetchSrcBase bs
    windows := ⟨1, fetchSrcBase, bs.length⟩ :: ⟨2, fetchDstBase, 64⟩ :: s.windows }

/-- `s` with a pending host write of a command word, so that the next step runs that command. -/
def Block.withCommand (s : Block P) (w : Word P.xlen) : Block P :=
  { s with phase := .idle, host := .writeReg 0 w :: s.host }

end Sys2Proof.Machine
end

