-- ==== Sys2Proof/Machine/Step.lean ====
section
/-! DEFINITION. One step of the machine, and the placing of a word where the next step fetches it. -/

namespace Sys2Proof.Machine

/-- One step of a block: a running decoder decodes its next sequence; an idle block takes the next host
action, which is a whole command when it is a write to `x[CMD]` of COMPRESS (`10_state.md` R28, log 5). -/
def Block.step {P : Config.Params} (s : Block P) : Host.Outcome State Fault Refusal :=
  match s.phase with
  | .idle => idleStep s
  | .fixed => decoderStep s
  | .unknown => decoderStep s

/-- One step of the machine, at the parameters of its state. -/
def step (s : State) : Host.Outcome State Fault Refusal := s.block.step

/-- `s` with the instruction of an opcode-table word where the next step fetches: a 32-bit word as the
next host write to `x[CMD]`, a control byte at the front of a running decoder's stream (log 4). -/
def State.withFetchWord (s : State) (nbits w : Nat) : State :=
  if nbits = 32 then ⟨s.params, s.block.withCommand (BitVec.ofNat s.params.xlen w)⟩
  else ⟨s.params, s.block.withStream (tableStream nbits w)⟩

end Sys2Proof.Machine
end

