-- ==== Sys2Proof/Machine/Listing.lean ====
section
/-! DEFINITION. The spec's listings, written apart from the machine's steps, so that a statement can
say that the machine does what the listings say; the machine calls none of this. The decoder listings
of `44_decoder.md` R245 and R246 are one function on a byte string; a byte that the spec leaves
unspecified (R244) is `none`. The encoder listing of `43_encoder.md` R204 is a function from the input
to sequences as values; its table is a function (`41_match_finder.md` R156). -/

namespace Sys2Proof.Machine

/-- How a listing ends: by `finish` or by `raise` with a cause, with the value that names, and the
bytes written to DST below the output cursor. -/
structure ListingEnd where
  cause : Option Cause
  value : Nat
  out : List (Option Byte)
deriving DecidableEq, Repr

/-- A length code and where the stream goes on: the nibble, or `15 +` the extension at index `ip`. -/
def listingLength (nib : Nat) (bs : List Byte) (ip : Nat) : Option (Nat × Nat) :=
  if nib < 15 then some (nib, ip)
  else
    match extSum (bs.drop ip) with
    | none => none
    | some (v, k) => some (15 + v, ip + k)

/-- `for k in 0 .. M - 1: DST:op + k <- DST:op - offset + k`, on the bytes written so far; with offset
0 the bytes are unspecified (`44_decoder.md` R242, R244). -/
def listingCopy : Nat → Nat → List (Option Byte) → List (Option Byte)
  | 0, _, out => out
  | k + 1, offset, out =>
    listingCopy k offset
      (out ++ [if offset = 0 then none else (out[out.length - offset]?).getD none])

/-- The loop of DECODE_FIXED (`44_decoder.md` R245) and DECODE_UNKNOWN (R246) on the stream `bs` with
output bound `oend`. Every pass reads at least the control byte, so one more pass than there are bytes
is never needed. -/
def listingLoop (margin : Nat) (unknown : Bool) (bs : List Byte) (oend : Nat) :
    Nat → Nat → List (Option Byte) → ListingEnd
  | 0, ip, out => ⟨some .sourceExhausted, ip, out⟩
  | fuel + 1, ip, out =>
    if unknown && decide (bs.length ≤ ip) then ⟨none, out.length, out⟩
    else
      match bs[ip]? with
      | none => ⟨some .sourceExhausted, ip, out⟩
      | some t =>
        match listingLength (t.toNat / 16) bs (ip + 1) with
        | none => ⟨some .sourceExhausted, bs.length, out⟩
        | some (len, ip) =>
          if oend < out.length + len + margin && decide (oend < out.length + len) then
            ⟨some .outputOverflow, ip, out⟩
          else if bs.length < ip + len then ⟨some .sourceExhausted, ip, out⟩
          else
            let lits : List (Option Byte) := ((bs.drop ip).take len).map some
            let ip' := ip + len
            if oend < out.length + len + margin then
              ⟨none, if unknown then out.length + len else ip', out ++ lits⟩
            else if unknown && ip' == bs.length then ⟨none, out.length + len, out ++ lits⟩
            else
              match bs[ip']?, bs[ip' + 1]? with
              | some lo, some hi =>
                let offset := lo.toNat + 256 * hi.toNat
                if out.length + len < offset then
                  ⟨some .backReferenceUnderflow, ip' + 2, out ++ lits⟩
                else
                  match listingLength (t.toNat % 16) bs (ip' + 2) with
                  | none => ⟨some .sourceExhausted, bs.length, out ++ lits⟩
                  | some (code, ip) =>
                    if oend < out.length + len + (code + 4) then
                      ⟨some .outputOverflow, ip, out ++ lits⟩
                    else
                      listingLoop margin unknown bs oend fuel ip
                        (listingCopy (code + 4) offset (out ++ lits))
              | _, _ => ⟨some .sourceExhausted, ip', out ++ lits⟩

/-- DECODE_FIXED (`unknown` false) or DECODE_UNKNOWN (`unknown` true) on a stream. -/
def listing (P : Config.Params) (unknown : Bool) (bs : List Byte) (oend : Nat) : ListingEnd :=
  listingLoop P.decMargin unknown bs oend (bs.length + 1) 0 []

/-! ## Streams as values -/

/-- A non-terminal sequence as values (`30_encoding.md` R110). -/
structure SeqItem where
  lits : List Byte
  offset : Nat
  m : Nat
deriving DecidableEq, Repr

/-- `k` bytes copied from `offset` before the end, one after another. -/
def copyBack : Nat → Nat → List Byte → List Byte
  | 0, _, out => out
  | k + 1, offset, out => copyBack k offset (out ++ [(out[out.length - offset]?).getD 0])

/-- The output after one sequence. -/
def SeqItem.apply (out : List Byte) (q : SeqItem) : List Byte :=
  copyBack q.m q.offset (out ++ q.lits)

/-- The output after a list of sequences. -/
def replay : List Byte → List SeqItem → List Byte
  | out, [] => out
  | out, q :: qs => replay (q.apply out) qs

/-- The bytes of a stream: the sequences, then the terminal one (`30_encoding.md` R95). -/
def streamBytes : List SeqItem → List Byte → List Byte
  | [], last => lastBytes last
  | q :: qs, last => seqBytes q.lits q.offset q.m ++ streamBytes qs last

/-! ## The encoder listing -/

/-- `TAB[h] <- p` on a table that is a function. -/
def listingStore (tab : Nat → Nat) (h p : Nat) : Nat → Nat := fun x => if x = h then p else tab x

/-- The `repeat` of ENCODE: the position and the candidate at which it stops, and the table; `none`
for `goto last`. -/
def listingSearch (P : Config.Params) (v : Variant) (src : Nat → Byte) (mflimit : Nat) :
    Nat → Nat → Nat → (Nat → Nat) → Option (Nat × Nat × (Nat → Nat))
  | 0, _, _, _ => none
  | fuel + 1, attempts, ip, tab =>
    if mflimit < ip + attempts / 2 ^ P.skipStrength then none
    else
      let ref := tab (bucket P v src ip)
      let tab' := listingStore tab (bucket P v src ip) ip
      if verify v src ip ref then some (ip, ref, tab')
      else listingSearch P v src mflimit fuel (attempts + 1) (ip + attempts / 2 ^ P.skipStrength) tab'

/-- How far `while ip > anchor and ref > 0 and Src(ip - 1) = Src(ref - 1)` walks back, at most `k`
bytes. -/
def listingBack (src : Nat → Byte) (ip ref : Nat) : Nat → Nat
  | 0 => 0
  | k + 1 => if src (ip - 1) = src (ref - 1) then listingBack src (ip - 1) (ref - 1) k + 1 else 0

/-- How far `while ip < matchlimit and Src(ref) = Src(ip)` walks on, at most `k` bytes. -/
def listingOn (src : Nat → Byte) (ip ref : Nat) : Nat → Nat
  | 0 => 0
  | k + 1 => if src ref = src ip then listingOn src (ip + 1) (ref + 1) k + 1 else 0

/-- The loop of ENCODE (`43_encoder.md` R204): the sequences and where the terminal run starts. With
a candidate the pass starts at the label `next`, with an empty literal run; without one it starts with
a search. -/
def listingItems (P : Config.Params) (v : Variant) (src : Nat → Byte) (n : Nat) :
    Nat → Option Nat → (Nat → Nat) → Nat → Nat → List SeqItem × Nat
  | 0, _, _, _, anchor => ([], anchor)
  | fuel + 1, cand, tab, ip, anchor =>
    let start :=
      match cand with
      | some ref => some (ip, ref, tab)
      | none =>
        match listingSearch P v src (n - P.mfLimit) (n + 1) P.attemptInit ip tab with
        | none => none
        | some (p, ref, tab) =>
          let b := listingBack src p ref (min (p - anchor) ref)
          some (p - b, ref - b, tab)
    match start with
    | none => ([], anchor)
    | some (mstart, ref, tab) =>
      let m := 4 + listingOn src (mstart + 4) (ref + 4) (n - P.lastLiterals - (mstart + 4))
      let item : SeqItem := ⟨slice src anchor (mstart - anchor), mstart - ref, m⟩
      let ip := mstart + m
      if n - P.mfLimit < ip then ([item], ip)
      else
        let ref := tab (bucket P v src ip)
        let tab := listingStore tab (bucket P v src ip) ip
        let r :=
          if verify v src ip ref then listingItems P v src n fuel (some ref) tab ip ip
          else listingItems P v src n fuel none tab (ip + 1) ip
        (item :: r.1, r.2)

/-- ENCODE (`43_encoder.md` R204) on an input of `n` bytes: the sequences and the terminal run. -/
def listingEncode (P : Config.Params) (src : Nat → Byte) (n : Nat) : List SeqItem × List Byte :=
  if n < P.minLength then ([], slice src 0 n)
  else
    let r := listingItems P (variantOf n) src n (n + 1) none (fun _ => 0) 1 0
    (r.1, slice src r.2 (n - r.2))

end Sys2Proof.Machine
end

