-- ==== Sys2Proof/Safety.lean ====
section
/-! DEFINITION. What counts as a launch the spec covers, what a running decoder keeps, and the terms
in which statements speak of a sequence's and a command's effect. -/

namespace Sys2Proof.Machine

variable {P : Config.Params}

/-! ## Arguments and launch premises -/

/-- CHECK_ARGS passes for COMPRESS (`45_commands.md` R281). -/
abbrev Block.compressArgs (s : Block P) : Prop :=
  s.srcBase ≠ 0 ∧ s.dstBase ≠ 0 ∧ 0 ≤ s.srcLen.toInt ∧ s.srcLen.toInt ≤ Config.maxCompressLen P.xlen

/-- CHECK_ARGS passes for a decoder command (`45_commands.md` R281). -/
abbrev Block.decompressArgs (s : Block P) : Prop :=
  s.srcBase ≠ 0 ∧ s.dstBase ≠ 0 ∧ 0 ≤ s.srcLen.toInt ∧ 0 ≤ s.dstLen.toInt

/-- The first `n` bytes of SRC are mapped and provided (`70_reset_and_hazards.md` R341, R346 (1)). -/
abbrev Block.srcReadable (s : Block P) (n : Nat) : Prop := ∀ i, i < n → (s.srcByte i).isSome

/-- No byte of SRC below `n` and no byte of DST below `m` share an address
(`70_reset_and_hazards.md` R342). -/
abbrev Block.disjoint (s : Block P) (n m : Nat) : Prop :=
  ∀ i, i < n → ∀ j, j < m → i < s.src.size → j < s.dst.size →
    s.src.base + i ≠ s.dst.base + j

/-- The parameters keep `00_scope.md` R8, registers are wide enough for BOUND(0) = 8 to be a RESULT (D4),
and the table entries of the variant COMPRESS selects hold every position of its input (`10_state.md` R44:
"Every position stored fits its entry"). -/
abbrev Block.compressParams (s : Block P) : Prop :=
  P.wf ∧ 5 ≤ P.xlen ∧ s.srcLen.toNat ≤ 2 ^ entryW P (variantOf s.srcLen.toNat)

/-- The launch premises of COMPRESS (`70_reset_and_hazards.md` R341 to R343). -/
abbrev Block.compressPremises (s : Block P) : Prop :=
  s.srcReadable s.srcLen.toNat ∧ bound s.srcLen.toNat ≤ s.dst.size ∧
    s.disjoint s.srcLen.toNat (bound s.srcLen.toNat)

/-- The launch premises of a decoder command (`70_reset_and_hazards.md` R341, R342). -/
abbrev Block.decompressPremises (s : Block P) : Prop :=
  s.srcReadable s.srcLen.toNat ∧ s.dstLen.toNat ≤ s.dst.size ∧
    s.disjoint s.srcLen.toNat s.dstLen.toNat

/-! ## Invariants -/

/-- What a running decoder keeps of its cursors and bounds (`10_state.md` R30, `44_decoder.md` R231,
R232, R248): the bounds are the sampled lengths, at most MAX_LEN, and the cursors stay within them. -/
abbrev Block.cursorsOk (s : Block P) : Prop :=
  s.work.ilim = s.srcLen.toNat ∧ s.work.oend = s.dstLen.toNat ∧
    s.work.ilim ≤ Config.maxLen P.xlen ∧ s.work.oend ≤ Config.maxLen P.xlen ∧
    s.work.ip ≤ s.work.ilim ∧ s.work.op ≤ s.work.oend

/-- What holds of every state that the machine can reach: the store and the table are in canonical
form, every table entry lies in the larger geometry and fits the wider entry (`10_state.md` R43, R44),
STATUS holds one of the five codes with RSV 0 (R27), and a running decoder's cursors are in bounds. -/
abbrev Block.inv (s : Block P) : Prop :=
  s.mem.wf ∧ Tab.wf s.tab ∧ (∀ e ∈ s.tab, e.1 < 2 ^ max P.hashLogNarrow P.hashLogWide ∧
      e.2 < 2 ^ max Config.entryWNarrow P.entryWWide) ∧
    s.status.toNat ≤ 4 ∧ (s.phase ≠ .idle → s.cursorsOk)

/-- A decoder command that was launched under its premises and still runs. -/
abbrev Block.decoding (s : Block P) : Prop :=
  s.phase ≠ .idle ∧ s.cursorsOk ∧ s.decompressPremises ∧
    ∀ i, i < s.work.op → (s.dstByte i).isSome

/-! ## Effects -/

/-- The machine comes from `s` to `t` by some number of steps, with no fault and no refusal. -/
def Block.runs (s t : Block P) : Prop :=
  ∃ k, Sys2Proof.core.run k (⟨P, s⟩ : State) = .next ⟨P, t⟩

/-- RESULT at the end of a listing (`44_decoder.md` R247). -/
def ListingEnd.result {x : Nat} (l : ListingEnd) : Word x :=
  match l.cause with
  | none => BitVec.ofNat x l.value
  | some _ => neg32 l.value

/-- STATUS at the end of a listing (`60_exceptions.md` R309, R310). -/
def ListingEnd.status {x : Nat} (l : ListingEnd) : Word x :=
  match l.cause with
  | none => causeOk
  | some c => causeCode c

/-- An address is outside DST's bytes from index `lo` up to index `hi` exclusive. -/
abbrev Block.outsideDst (s : Block P) (lo hi a : Nat) : Prop := a < s.dst.base + lo ∨ s.dst.base + hi ≤ a

/-- Nothing but RESULT, STATUS, the phase, the working registers, the table, the store and the count
of free values differs: `x[1]` to `x[4]`, the windows and the host's side are as before. -/
abbrev Block.sameSetup (s t : Block P) : Prop :=
  t.srcBase = s.srcBase ∧ t.srcLen = s.srcLen ∧ t.dstBase = s.dstBase ∧ t.dstLen = s.dstLen ∧
    t.windows = s.windows ∧ t.host = s.host ∧ t.hostData = s.hostData

/-- The command has ended in `t` with this RESULT and STATUS (`60_exceptions.md` R309, R310), nothing
else of the registers changed, and the store is unchanged but for DST's indices from `lo` up to `hi`
exclusive. -/
def Block.endsWith (s t : Block P) (result status : Word P.xlen) (lo hi : Nat) : Prop :=
  t.result = result ∧ t.status = status ∧ t.phase = .idle ∧ s.sameSetup t ∧
    ∀ a, s.outsideDst lo hi a → t.mem.read a = s.mem.read a

/-- The stream at the cursor starts with these bytes, all below the read limit. -/
abbrev Block.streamHas (s : Block P) (bs : List Byte) : Prop :=
  s.srcBytes bs.length s.work.ip = bs ∧ s.work.ip + bs.length ≤ s.work.ilim

/-- DST takes `k` more bytes behind the output cursor: they are mapped, below the bound, and apart from
the bytes of SRC the command may read. -/
abbrev Block.dstTakes (s : Block P) (k : Nat) : Prop :=
  s.work.op + k ≤ s.work.oend ∧ s.work.op + k ≤ s.dst.size ∧
    s.disjoint s.work.ilim s.work.oend

/-- A non-terminal sequence with these literals, offset and match length can run to its end at the
cursor: none of the checks of `60_exceptions.md` R306 fails. -/
abbrev Block.seqReady (s : Block P) (lits : List Byte) (offset m : Nat) : Prop :=
  4 ≤ m ∧ offset < 65536 ∧ s.streamHas (seqBytes lits offset m) ∧ s.dstTakes (lits.length + m) ∧
    offset ≤ s.work.op + lits.length ∧ ∀ i, i < s.work.op → (s.dstByte i).isSome

/-- What a non-terminal sequence leaves in the working registers (`44_decoder.md` R250 to R253). -/
def Work.afterSequence (w : Work) (lits : List Byte) (offset m : Nat) : Work :=
  { w with
    ip := w.ip + (1 + litext lits.length + lits.length + 2 + matchext m)
    op := w.op + lits.length + m
    token := controlByte lits.length (m - 4)
    litLen := lits.length
    matchLen := m
    offset := offset }

/-- The effect of a non-terminal sequence with an offset other than 0 (`44_decoder.md` R250): the
literals behind the output cursor, then the match, each of whose bytes is the byte `offset` before it;
nothing else but the working registers changes. -/
def Block.seqEffect (s t : Block P) (lits : List Byte) (offset m : Nat) : Prop :=
  t = { s with mem := t.mem, work := s.work.afterSequence lits offset m } ∧
    (∀ k, k < lits.length → t.dstByte (s.work.op + k) = lits[k]?) ∧
    (∀ k, k < m →
      t.dstByte (s.work.op + lits.length + k) = t.dstByte (s.work.op + lits.length + k - offset)) ∧
    ∀ a, s.outsideDst s.work.op (s.work.op + lits.length + m) a → t.mem.read a = s.mem.read a

/-- A terminal sequence with these literals can run to its end at the cursor; its control byte is not
constrained. -/
abbrev Block.lastReady (s : Block P) (lits : List Byte) : Prop :=
  s.srcBytes (litext lits.length + lits.length) (s.work.ip + 1) = extOf lits.length ++ lits ∧
    s.work.ip + (1 + litext lits.length + lits.length) ≤ s.work.ilim ∧ s.dstTakes lits.length

/-- The effect of a terminal sequence (`44_decoder.md` R254, R255): the literals behind the output
cursor, and the command ends with the bytes produced or consumed. -/
def Block.lastEffect (s t : Block P) (lits : List Byte) : Prop :=
  s.endsWith t
      (BitVec.ofNat P.xlen
        (if s.phase = .unknown then s.work.op + lits.length
          else s.work.ip + (1 + litext lits.length + lits.length)))
      0 s.work.op s.work.oend ∧
    t.tab = s.tab ∧ ∀ k, k < lits.length → t.dstByte (s.work.op + k) = lits[k]?

/-- The literals of a sequence that fails after them stand in DST (`60_exceptions.md` R307). -/
abbrev Block.literalsWritten (s t : Block P) (lits : List Byte) : Prop :=
  ∀ k, k < lits.length → t.dstByte (s.work.op + k) = lits[k]?

/-- The form of `30_encoding.md` R103 that a non-terminal sequence with `len` literals and a match of
`m` bytes assembles to (R110). -/
def seqForm (len m : Nat) : Instr :=
  if len < 15 then
    if m < 19 then .seqSS (BitVec.ofNat 4 len) (BitVec.ofNat 4 (m - 4))
    else .seqSX (BitVec.ofNat 4 len)
  else if m < 19 then .seqXS (BitVec.ofNat 4 (m - 4)) else .seqXX

/-- The form of `30_encoding.md` R103 that a terminal sequence with `len` literals and the low nibble
`x` assembles to. -/
def lastForm (len : Nat) (x : BitVec 4) : Instr :=
  if len < 15 then .lastS (BitVec.ofNat 4 len) x else .lastX x

/-- The host's next action starts the command of word `w` on the idle block; `rest` is what the host
does after it. -/
abbrev Block.launching (s : Block P) (w : Word P.xlen) (rest : List (HostAction P.xlen)) :
    Prop :=
  s.phase = .idle ∧ s.host = .writeReg 0 w :: rest

/-! ## Streams -/

/-- Items (b), (c) and (f) of `30_encoding.md` R106 for each sequence behind the output `out`, for an
input of `n` bytes. -/
def conformingItems (P : Config.Params) (n : Nat) : List Byte → List SeqItem → Prop
  | _, [] => True
  | out, q :: qs =>
    4 ≤ q.m ∧ 1 ≤ q.offset ∧ q.offset ≤ out.length + q.lits.length ∧ q.offset ≤ 65535 ∧
      out.length + q.lits.length + P.mfLimit ≤ n ∧
      out.length + q.lits.length + q.m + P.lastLiterals ≤ n ∧
      conformingItems P n (q.apply out) qs

/-- A stream of these sequences and this terminal run conforms for the input `input`
(`30_encoding.md` R106 (a) to (f)). -/
def conforming (P : Config.Params) (input : List Byte) (items : List SeqItem) (last : List Byte) :
    Prop :=
  replay [] items ++ last = input ∧ conformingItems P input.length [] items ∧
    (items ≠ [] → P.lastLiterals ≤ last.length) ∧ (input.length < P.minLength → items = [])

end Sys2Proof.Machine
end

