-- ==== Sys2Proof/Certificates/Slice0/Obligations.lean ====
section
/-! DEFINITION. The statements for the provers. Each docstring says which rules of `spec/` the
statement formalises; `OBLIGATIONS.json` lists them. -/

open Sys2Proof Sys2Proof.Machine

/-! ## Reset, registers, dispatch -/

/-- `10_state.md` R50, the values its table gives: the six registers that store something are 0 and
the block is idle. -/
def Obligations.ResetStateValues : Prop :=
  State.reset.block.srcBase = 0 ∧ State.reset.block.srcLen = 0 ∧ State.reset.block.dstBase = 0 ∧
    State.reset.block.dstLen = 0 ∧ State.reset.block.result = 0 ∧ State.reset.block.status = 0 ∧
    State.reset.block.phase = .idle

/-- `70_reset_and_hazards.md` R345 as the platform's action (log 19): from any idle state the six
registers become 0, the block is idle, and neither the store behind SRC and DST nor the platform's map
changes. -/
def Obligations.ResetActionEffect : Prop :=
  ∀ (P : Config.Params) (s : Block P) (rest : List (HostAction P.xlen)),
    s.phase = .idle → s.host = .reset :: rest →
    ∃ t : Block P, step ⟨P, s⟩ = .next ⟨P, t⟩ ∧ t.srcBase = 0 ∧ t.srcLen = 0 ∧ t.dstBase = 0 ∧
      t.dstLen = 0 ∧ t.result = 0 ∧ t.status = 0 ∧ t.phase = .idle ∧ t.mem = s.mem ∧
      t.windows = s.windows ∧ t.host = rest

/-- The invariant holds after reset, with any parameters. -/
def Obligations.InvariantAtReset : Prop :=
  State.reset.block.inv ∧ ∀ P : Config.Params, (Block.reset : Block P).inv

/-- Every step from a state with the invariant ends in one with it: `10_state.md` R27 (the codes of
STATUS), R30 (`0 ≤ ip ≤ ilim < 2^31`), R43, R44 (table indices and positions, at the state's
parameters), `44_decoder.md` R248 (`op ≤ oend`), and the canonical forms of the store and the table,
which are the model's own. That an entry
keeps the low bits of a position too wide for it is the model's choice (log 28). -/
def Obligations.StepKeepsInvariant : Prop :=
  ∀ s t : State, s.block.inv → step s = .next t → t.block.inv

/-- `00_scope.md` R7: the parameters are arguments of the machine, so no step changes them; after reset
they have R7's defaults. That a state carries them is the model's choice (log 13). With this, a statement
about `step ⟨P, s⟩` and a next state `⟨P, t⟩` leaves no next state out. -/
def Obligations.ParametersNeverChange : Prop :=
  State.reset.params = Config.params ∧ ∀ s t : State, step s = .next t → t.params = s.params

/-- `60_exceptions.md` R309 and R310 with the codes of R300: what `finish` and `raise` write, and that
nothing else changes. `negated` is `neg32(c)`. The rules write it with `2^32` (`00_scope.md` R9); that it
is `2^XLEN` at a width other than 32 is the model's reading (log 26, DEDUCED). -/
def Obligations.CommandEndsWriteResultAndStatus : Prop :=
  ∀ (P : Config.Params) (s : Block P) (v c : Nat),
    let negated : Word P.xlen :=
      BitVec.ofNat P.xlen ((2 ^ P.xlen - c % 2 ^ P.xlen) % 2 ^ P.xlen)
    s.finish v = { s with result := BitVec.ofNat P.xlen v, status := 0, phase := .idle } ∧
    s.raise .outputOverflow c = { s with result := negated, status := 1, phase := .idle } ∧
    s.raise .backReferenceUnderflow c = { s with result := negated, status := 2, phase := .idle } ∧
    s.raise .invalidArgument 0 = { s with result := 0, status := 3, phase := .idle } ∧
    s.raise .sourceExhausted c = { s with result := negated, status := 4, phase := .idle }

/-- `60_exceptions.md` R309 ("a successful RESULT is never negative") and R311 for the running decoder:
when a decoder command ends, RESULT read as a signed value is not negative on success, is negative for
OutputOverflow and BackReferenceUnderflow, and is at most 0 for SourceExhausted. -/
def Obligations.SignOfResultAtDecoderEnd : Prop :=
  ∀ (P : Config.Params) (s t : Block P), s.phase ≠ .idle → s.cursorsOk →
    step ⟨P, s⟩ = .next ⟨P, t⟩ → t.phase = .idle →
    (t.status = 0 ∧ 0 ≤ t.result.toInt) ∨
    ((t.status = 1 ∨ t.status = 2) ∧ t.result.toInt < 0) ∨
    (t.status = 4 ∧ t.result.toInt ≤ 0)

/-- `30_encoding.md` R91: the three command words, and no other word is a command. That this holds of a
register of any width, where bits above 31 count as RSV, is the model's reading (log 26, DEDUCED). -/
def Obligations.CommandWordsDecode : Prop :=
  ∀ (x : Nat) (w : Word x) (i : Instr), decodeCommand w = .ok i ↔
    (w.toNat = 0x00000001 ∧ i = .compress) ∨ (w.toNat = 0x00000002 ∧ i = .decompressFixed) ∨
      (w.toNat = 0x00000003 ∧ i = .decompressUnknown)

/-- `30_encoding.md` R92: a reserved word (`OP` = 0, or `RSV` not 0) starts no operation, touches no
memory and ends with InvalidArgument. The rule's RSV is bits[31:2]; that it is every bit above OP at
a width other than 32 is the model's reading (log 26, DEDUCED). -/
def Obligations.ReservedCommandWords : Prop :=
  ∀ (P : Config.Params) (s : Block P) (w : Word P.xlen) (rest : List (HostAction P.xlen)),
    s.launching w rest →
    (w.extractLsb' 0 2 = 0 ∨ w.extractLsb' 2 (P.xlen - 2) ≠ 0) →
    step ⟨P, s⟩ = .next ⟨P, { s with host := rest, result := 0, status := 3 }⟩

/-- `45_commands.md` R281: a command ends at once with InvalidArgument, changing nothing but RESULT and
STATUS, exactly when one of the conditions of CHECK_ARGS holds. The rule tests bits[31:2] of the word
and 32-bit lengths; that at another width every bit above OP is tested and the lengths are read at
XLEN is the model's reading (log 26, DEDUCED). -/
def Obligations.CheckArgs : Prop :=
  ∀ (P : Config.Params) (s : Block P) (w : Word P.xlen) (rest : List (HostAction P.xlen)),
    s.launching w rest →
    (step ⟨P, s⟩ = .next ⟨P, { s with host := rest, result := 0, status := 3 }⟩ ↔
      (w.extractLsb' 2 (P.xlen - 2) ≠ 0 ∨ w.extractLsb' 0 2 = 0) ∨
      (s.srcBase = 0 ∨ s.dstBase = 0) ∨
      s.srcLen.toInt < 0 ∨
      (w.extractLsb' 0 2 = 1 ∧ Config.maxCompressLen P.xlen < s.srcLen.toInt) ∨
      ((w.extractLsb' 0 2 = 2 ∨ w.extractLsb' 0 2 = 3) ∧ s.dstLen.toInt < 0))

/-- A step runs the decoded instruction (`45_commands.md` R280, `44_decoder.md` R233, R234): a running
decoder with an unread control byte runs the sequence it decodes at the cursor, and an idle block runs
the command of a word written to `x[CMD]`, with that host action consumed. -/
def Obligations.StepRunsDecodedInstruction : Prop :=
  (∀ (P : Config.Params) (s : Block P) (i : Instr), s.phase ≠ .idle → s.work.ip < s.work.ilim →
    decodeSequence P s.context s.unread = .ok i → step ⟨P, s⟩ = exec i ⟨P, s⟩) ∧
  (∀ (P : Config.Params) (s : Block P) (w : Word P.xlen) (rest : List (HostAction P.xlen))
    (i : Instr), s.launching w rest →
    decodeCommand w = .ok i → step ⟨P, s⟩ = exec i ⟨P, { s with host := rest }⟩)

/-- `60_exceptions.md` R334: an idle block with no host action holds everything. -/
def Obligations.IdleBlockHoldsState : Prop :=
  ∀ (P : Config.Params) (s : Block P), s.phase = .idle → s.host = [] → step ⟨P, s⟩ = .next ⟨P, s⟩

/-- `10_state.md` R20 to R27 with U9 and U13 of `93_implementation_defined.md`: host writes of registers
1 to 6, host reads of registers 1 to 6, and an access above 6. -/
def Obligations.HostRegisterAccess : Prop :=
  ∀ (P : Config.Params) (s : Block P) (v : Word P.xlen) (rest : List (HostAction P.xlen)),
    s.phase = .idle →
    (s.host = .writeReg 1 v :: rest →
      step ⟨P, s⟩ = .next ⟨P, { s with host := rest, srcBase := v }⟩) ∧
    (s.host = .writeReg 2 v :: rest →
      step ⟨P, s⟩ = .next ⟨P, { s with host := rest, srcLen := v }⟩) ∧
    (s.host = .writeReg 3 v :: rest →
      step ⟨P, s⟩ = .next ⟨P, { s with host := rest, dstBase := v }⟩) ∧
    (s.host = .writeReg 4 v :: rest →
      step ⟨P, s⟩ = .next ⟨P, { s with host := rest, dstLen := v }⟩) ∧
    (s.host = .writeReg 5 v :: rest → step ⟨P, s⟩ = .next ⟨P, { s with host := rest }⟩) ∧
    (s.host = .writeReg 6 v :: rest → step ⟨P, s⟩ = .next ⟨P, { s with host := rest }⟩) ∧
    (s.host = .readReg 1 :: rest →
      step ⟨P, s⟩ = .next ⟨P, { s with host := rest, hostData := s.srcBase }⟩) ∧
    (s.host = .readReg 2 :: rest →
      step ⟨P, s⟩ = .next ⟨P, { s with host := rest, hostData := s.srcLen }⟩) ∧
    (s.host = .readReg 3 :: rest →
      step ⟨P, s⟩ = .next ⟨P, { s with host := rest, hostData := s.dstBase }⟩) ∧
    (s.host = .readReg 4 :: rest →
      step ⟨P, s⟩ = .next ⟨P, { s with host := rest, hostData := s.dstLen }⟩) ∧
    (s.host = .readReg 5 :: rest →
      step ⟨P, s⟩ = .next ⟨P, { s with host := rest, hostData := s.result }⟩) ∧
    (s.host = .readReg 6 :: rest →
      step ⟨P, s⟩ = .next ⟨P, { s with host := rest, hostData := s.status }⟩) ∧
    (∀ r, 6 < r → s.host = .writeReg r v :: rest → step ⟨P, s⟩ = .fault .noSuchRegister) ∧
    (∀ r, 6 < r → s.host = .readReg r :: rest → step ⟨P, s⟩ = .fault .noSuchRegister)

/-- `10_state.md` R21 with U8: a host read of `x[CMD]` returns some value of the register's width
and changes no state of the block. -/
def Obligations.HostReadOfCmd : Prop :=
  ∀ (P : Config.Params) (s : Block P) (rest : List (HostAction P.xlen)),
    s.phase = .idle → s.host = .readReg 0 :: rest →
    ∃ v : Word P.xlen, step ⟨P, s⟩ =
      .next ⟨P, { s with host := rest, hostData := v, freeCount := s.freeCount + 1 }⟩

/-- `10_state.md` R52: a command never writes `x[1]` to `x[4]`; RESULT and STATUS change only where a
command ends or the block is reset. -/
def Obligations.RegistersKeptAcrossCommands : Prop :=
  ∀ (P : Config.Params) (s t : Block P), step ⟨P, s⟩ = .next ⟨P, t⟩ →
    ((s.phase ≠ .idle ∨ ∃ w rest, s.host = .writeReg 0 w :: rest) →
      t.srcBase = s.srcBase ∧ t.srcLen = s.srcLen ∧ t.dstBase = s.dstBase ∧ t.dstLen = s.dstLen) ∧
    ((t.result ≠ s.result ∨ t.status ≠ s.status) →
      t.phase = .idle ∧
        (s.phase ≠ .idle ∨ (∃ w rest, s.host = .writeReg 0 w :: rest) ∨
          ∃ rest, s.host = .reset :: rest))

/-- The frame of every step of a running decoder: `10_state.md` R28 (the host waits), R41 and
`44_decoder.md` R248 (no byte is written but DST's from the output cursor up to the bound, and none of
those outside the mapped bytes, U4), R51 (the table is not touched), R52 (the registers). -/
def Obligations.DecoderStepFrame : Prop :=
  ∀ (P : Config.Params) (s t : Block P), s.phase ≠ .idle → step ⟨P, s⟩ = .next ⟨P, t⟩ →
    s.sameSetup t ∧ t.tab = s.tab ∧ (t.phase = s.phase ∨ t.phase = .idle) ∧
    (t.phase = s.phase → t.result = s.result ∧ t.status = s.status) ∧
    ∀ a, s.outsideDst s.work.op (min s.work.oend s.dst.size) a → t.mem.read a = s.mem.read a

/-! ## COMPRESS -/

/-- `43_encoder.md` R191 and R203 with `45_commands.md` R283: an input shorter than MINLENGTH is written
as the terminal sequence alone, for every choice of parameters; below 15 bytes that is one control byte
and the input. The store changes only below the bound; the table's entries are 0. -/
def Obligations.CompressShortInput : Prop :=
  ∀ (P : Config.Params) (s : Block P), s.compressArgs → s.compressPremises →
    s.srcLen.toNat < P.minLength →
    ∃ t : Block P, exec .compress ⟨P, s⟩ = .next ⟨P, t⟩ ∧
      ∀ out : List Byte, out = lastBytes (s.srcBytes s.srcLen.toNat 0) →
        s.endsWith t (BitVec.ofNat P.xlen out.length) 0 0 (bound s.srcLen.toNat) ∧
        (∀ k, k < out.length → t.dstByte k = out[k]?) ∧
        (s.srcLen.toNat < 15 →
          out = BitVec.ofNat 8 (s.srcLen.toNat * 16) :: s.srcBytes s.srcLen.toNat 0) ∧
        ∀ h, h < 2 ^ hashLog P (variantOf s.srcLen.toNat) → Tab.get t.tab h = 0

/-- COMPRESS completes under its launch premises (`45_commands.md` R283, R286): DST holds the stream of
the encoder listing (`43_encoder.md` R204), RESULT is its size, which is at least 1 and at most the
bound, STATUS is 0, SRC is as before, and no byte outside DST's below the bound changes. It holds for
every choice of parameters that keeps `00_scope.md` R8 and whose table entries hold every position of
the input. -/
def Obligations.CompressCompletes : Prop :=
  ∀ (P : Config.Params) (s : Block P), s.compressParams → s.compressArgs → s.compressPremises →
    ∃ t : Block P, exec .compress ⟨P, s⟩ = .next ⟨P, t⟩ ∧
      ∀ out : List Byte,
        out = streamBytes (listingEncode P s.srcFun s.srcLen.toNat).1
          (listingEncode P s.srcFun s.srcLen.toNat).2 →
        1 ≤ out.length ∧ out.length ≤ bound s.srcLen.toNat ∧
        s.endsWith t (BitVec.ofNat P.xlen out.length) 0 0 (bound s.srcLen.toNat) ∧
        (∀ k, k < out.length → t.dstByte k = out[k]?) ∧
        ∀ i, i < s.srcLen.toNat → t.srcByte i = s.srcByte i

/-- `43_encoder.md` R204: the encoder's steps (R191 to R203) come to what the listing gives, for every
choice of parameters that keeps `00_scope.md` R8 and whose table entries hold every position of the
input (`10_state.md` R44), and they come to an end (`70_reset_and_hazards.md` R351). -/
def Obligations.EncoderStepsRefineListing : Prop :=
  ∀ (P : Config.Params) (src : Nat → Byte) (n : Nat) (w : Work) (tab : Tab), P.wf →
    n ≤ 2 ^ entryW P (variantOf n) →
    (Machine.encode P src n w tab).1 = .done ∧
    (Machine.encode P src n w tab).2.out =
      streamBytes (listingEncode P src n).1 (listingEncode P src n).2

/-- `30_encoding.md` R106: what holds of every stream the encoder listing (`43_encoder.md` R204) gives,
items (a) to (d) and (f) in `conforming`, then (e) and (g), for every choice of parameters that keeps
`00_scope.md` R8. -/
def Obligations.EncoderOutputConforms : Prop :=
  ∀ (P : Config.Params) (src : Nat → Byte) (n : Nat), P.wf →
    conforming P (slice src 0 n) (listingEncode P src n).1 (listingEncode P src n).2 ∧
    (n = 0 → streamBytes (listingEncode P src n).1 (listingEncode P src n).2 = [0]) ∧
    (streamBytes (listingEncode P src n).1 (listingEncode P src n).2).length ≤
      n + max 8 ((n + 19) / 20)

/-- `43_encoder.md` R208, `30_encoding.md` R106 (g): the size bound, for every choice of parameters that
keeps `00_scope.md` R8 and whose table entries hold every position of the input (`10_state.md` R44). -/
def Obligations.EncoderSizeBound : Prop :=
  ∀ (P : Config.Params) (src : Nat → Byte) (n : Nat) (w : Work) (tab : Tab), P.wf →
    n ≤ 2 ^ entryW P (variantOf n) →
    (Machine.encode P src n w tab).2.out.length ≤ n + max 8 ((n + 19) / 20)

/-- `10_state.md` R45, `43_encoder.md` R205: the compressed bytes do not depend on the table or the
working registers that an earlier command left. -/
def Obligations.EncoderIgnoresEarlierCommands : Prop :=
  ∀ (P : Config.Params) (src : Nat → Byte) (n : Nat) (w w' : Work) (tab tab' : Tab), P.wf →
    (Machine.encode P src n w tab).1 = (Machine.encode P src n w' tab').1 ∧
    (Machine.encode P src n w tab).2.out = (Machine.encode P src n w' tab').2.out

/-- `43_encoder.md` R207: the encoder reads no byte at or beyond the input's end, so nothing it does
depends on one. Where
an entry is too narrow for a position, that is so because it keeps the position's low bits (log 28, the
model's choice). -/
def Obligations.EncoderReadsOnlyItsInput : Prop :=
  ∀ (P : Config.Params) (src src' : Nat → Byte) (n : Nat) (w : Work) (tab : Tab), P.wf →
    (∀ i, i < n → src i = src' i) →
    Machine.encode P src n w tab = Machine.encode P src' n w tab

/-- `45_commands.md` R282: the variant follows from the length alone, every step of the encoder keeps
it, and the encoder ends with it. The last clause reads it from the working registers that a COMPRESS
leaves; that they keep their values when the command has ended is the model's choice (log 16, U11). -/
def Obligations.VariantByLength : Prop :=
  (∀ (P : Config.Params) (src : Nat → Byte) (l : EncLabel) (e : Enc),
    (encStep P src l e).2.w.variant = e.w.variant) ∧
  (∀ (P : Config.Params) (src : Nat → Byte) (n : Nat) (w : Work) (tab : Tab),
    (Machine.encode P src n w tab).2.w.variant = if n < 65536 then .narrow else .wide) ∧
  ∀ (P : Config.Params) (s t : Block P), s.compressArgs → exec .compress ⟨P, s⟩ = .next ⟨P, t⟩ →
    t.work.variant = if s.srcLen.toNat < 65536 then .narrow else .wide

/-- `41_match_finder.md` R156, `45_commands.md` R286 ("this input's positions"): after a COMPRESS every
entry of the table it used is 0 or a position of this input whose four bytes hash to the entry's index,
for every choice of parameters that keeps `00_scope.md` R8 and whose entries hold every position. -/
def Obligations.TableHoldsThisInputsPositions : Prop :=
  ∀ (P : Config.Params) (s t : Block P), s.compressParams → s.compressArgs →
    exec .compress ⟨P, s⟩ = .next ⟨P, t⟩ →
    ∀ h, h < 2 ^ hashLog P (variantOf s.srcLen.toNat) → Tab.get t.tab h ≠ 0 →
      Tab.get t.tab h + 3 < s.srcLen.toNat ∧
      bucket P (variantOf s.srcLen.toNat) s.srcFun (Tab.get t.tab h) = h

/-- `70_reset_and_hazards.md` R341, R342 and U2, U3, U5: a COMPRESS on overlapping buffers, or on an input
that is not all mapped, or with a DST smaller than its output, has no successor state. With a DST below
BOUND(n) that the output fits in, COMPRESS runs, as U3 says. Which bytes count for the overlap is log
17, the order of the tests log 25; the hypothesis that the input has been written is there because a
byte that nothing has written faults under its own name (log 2). -/
def Obligations.CompressFaultsOnBrokenPremise : Prop :=
  ∀ (P : Config.Params) (s : Block P), s.compressArgs →
    (¬ s.disjoint s.srcLen.toNat (bound s.srcLen.toNat) →
      exec .compress ⟨P, s⟩ = .fault .buffersOverlap) ∧
    (s.disjoint s.srcLen.toNat (bound s.srcLen.toNat) → s.srcReadable s.src.size →
      s.src.size < s.srcLen.toNat → exec .compress ⟨P, s⟩ = .fault .srcOutsideExtent) ∧
    (s.disjoint s.srcLen.toNat (bound s.srcLen.toNat) → s.srcReadable s.srcLen.toNat →
      s.dst.size <
        (Machine.encode P s.srcFun s.srcLen.toNat s.work s.tab).2.out.length →
      exec .compress ⟨P, s⟩ = .fault .dstOutsideExtent)

/-! ## Decoder commands and sequences -/

/-- `44_decoder.md` R232 as the start of DECOMPRESS_FIXED (`45_commands.md` R284) and
DECOMPRESS_UNKNOWN (R285): with good arguments and disjoint buffers the decoder is started, and
nothing else changes. That the instruction stops here, at LOOP_TOP, with the command still running and
RESULT and STATUS not yet written, and that its sequences are the machine's next steps, is the model's
choice (log 5, DEDUCED). `10_state.md` R28 allows it. -/
def Obligations.DecompressCommandsStart : Prop :=
  ∀ (P : Config.Params) (s : Block P), s.decompressArgs → s.disjoint s.srcLen.toNat s.dstLen.toNat →
    exec .decompressFixed ⟨P, s⟩ = .next ⟨P, { s with
      phase := .fixed
      work := { s.work with ip := 0, op := 0, ilim := s.srcLen.toNat, oend := s.dstLen.toNat } }⟩ ∧
    exec .decompressUnknown ⟨P, s⟩ = .next ⟨P, { s with
      phase := .unknown
      work := { s.work with ip := 0, op := 0, ilim := s.srcLen.toNat, oend := s.dstLen.toNat } }⟩

/-- `70_reset_and_hazards.md` R341, R342 (U4, U5): a decoder command on overlapping buffers faults at its
launch (what counts as an overlap is log 17); with DST_LEN above DST_CAP it starts, and faults at the
first literal run, and the first match, that goes past DST's mapped bytes. The second clause is about
SRC (U2); DecoderFaultsOutsideSource has the fields behind the control byte. -/
def Obligations.DecoderFaultsOnBrokenPremise : Prop :=
  (∀ (P : Config.Params) (s : Block P), s.decompressArgs →
    ¬ s.disjoint s.srcLen.toNat s.dstLen.toNat →
    exec .decompressFixed ⟨P, s⟩ = .fault .buffersOverlap ∧
    exec .decompressUnknown ⟨P, s⟩ = .fault .buffersOverlap) ∧
  (∀ (P : Config.Params) (s : Block P), s.phase ≠ .idle → s.work.ip < s.work.ilim →
    s.src.size ≤ s.work.ip →
    step ⟨P, s⟩ = .fault .srcOutsideExtent) ∧
  (∀ (P : Config.Params) (s : Block P) (lits : List Byte) (code : Nat), s.phase ≠ .idle →
    s.streamHas (controlByte lits.length code :: extOf lits.length ++ lits) →
    s.work.op + lits.length ≤ s.work.oend → s.dst.size < s.work.op + lits.length →
    0 < lits.length → step ⟨P, s⟩ = .fault .dstOutsideExtent) ∧
  (∀ (P : Config.Params) (s : Block P) (lits : List Byte) (offset m : Nat), s.phase ≠ .idle →
    4 ≤ m → offset < 65536 →
    s.streamHas (seqBytes lits offset m) → s.dstTakes lits.length →
    s.work.op + lits.length + P.decMargin ≤ s.work.oend → offset ≤ s.work.op + lits.length →
    s.work.op + lits.length + m ≤ s.work.oend → s.dst.size < s.work.op + lits.length + m →
    step ⟨P, s⟩ = .fault .dstOutsideExtent)

/-- `70_reset_and_hazards.md` R341 with U2: a running decoder faults at the first field behind a control
byte that lies below the read limit and outside SRC's mapped bytes: a byte of the literal extension, the
literal run (the extension read), the offset (the literals copied), a byte of the match extension. With a run that
lies outside both SRC's and DST's mapped bytes, that SRC's fault is the one raised is the model's choice
(log 25). -/
def Obligations.DecoderFaultsOutsideSource : Prop :=
  (∀ (P : Config.Params) (s : Block P) (code j : Nat), s.phase ≠ .idle →
    s.streamHas (controlByte 15 code :: List.replicate j 255) →
    s.work.ip + 1 + j < s.work.ilim → s.src.size ≤ s.work.ip + 1 + j →
    step ⟨P, s⟩ = .fault .srcOutsideExtent) ∧
  (∀ (P : Config.Params) (s : Block P) (len code : Nat), s.phase ≠ .idle →
    s.streamHas (controlByte len code :: extOf len) → 0 < len →
    s.work.op + len ≤ s.work.oend → s.work.ip + 1 + litext len + len ≤ s.work.ilim →
    s.src.size < s.work.ip + 1 + litext len + len → step ⟨P, s⟩ = .fault .srcOutsideExtent) ∧
  (∀ (P : Config.Params) (s : Block P) (lits : List Byte) (code : Nat), s.phase ≠ .idle →
    s.streamHas (controlByte lits.length code :: extOf lits.length ++ lits) →
    s.dstTakes lits.length → s.work.op + lits.length + P.decMargin ≤ s.work.oend →
    s.work.ip + 1 + litext lits.length + lits.length + 2 ≤ s.work.ilim →
    s.src.size < s.work.ip + 1 + litext lits.length + lits.length + 2 →
    step ⟨P, s⟩ = .fault .srcOutsideExtent) ∧
  (∀ (P : Config.Params) (s : Block P) (lits : List Byte) (offset j : Nat), s.phase ≠ .idle →
    offset < 65536 →
    s.streamHas (controlByte lits.length 15 :: extOf lits.length ++ lits ++ le16 offset ++
      List.replicate j 255) →
    s.dstTakes lits.length → s.work.op + lits.length + P.decMargin ≤ s.work.oend →
    offset ≤ s.work.op + lits.length →
    s.work.ip + 1 + litext lits.length + lits.length + 2 + j < s.work.ilim →
    s.src.size ≤ s.work.ip + 1 + litext lits.length + lits.length + 2 + j →
    step ⟨P, s⟩ = .fault .srcOutsideExtent)

/-- `44_decoder.md` R250 to R253: each non-terminal form, with every length its encoding admits and an
offset other than 0, completes: literals, then the match from `offset` back, the cursors advanced by
the sequence's size and output; nothing else changes. -/
def Obligations.SequenceFormsComplete : Prop :=
  ∀ (P : Config.Params) (s : Block P) (lits : List Byte) (offset m : Nat),
    s.seqReady lits offset m → offset ≠ 0 →
    (lits.length < 15 → m < 19 →
      ∃ t : Block P, exec (.seqSS (BitVec.ofNat 4 lits.length) (BitVec.ofNat 4 (m - 4))) ⟨P, s⟩ =
        .next ⟨P, t⟩ ∧
        s.seqEffect t lits offset m) ∧
    (15 ≤ lits.length → m < 19 →
      ∃ t : Block P, exec (.seqXS (BitVec.ofNat 4 (m - 4))) ⟨P, s⟩ = .next ⟨P, t⟩ ∧
        s.seqEffect t lits offset m) ∧
    (lits.length < 15 → 19 ≤ m →
      ∃ t : Block P, exec (.seqSX (BitVec.ofNat 4 lits.length)) ⟨P, s⟩ = .next ⟨P, t⟩ ∧
        s.seqEffect t lits offset m) ∧
    (15 ≤ lits.length → 19 ≤ m →
      ∃ t : Block P, exec .seqXX ⟨P, s⟩ = .next ⟨P, t⟩ ∧ s.seqEffect t lits offset m)

/-- `44_decoder.md` R244: each non-terminal form with offset 0 completes too: no error, the cursors
advance, and each of the `m` bytes the match covers holds a free value; nothing else changes. -/
def Obligations.OffsetZeroLeavesFreeBytes : Prop :=
  ∀ (P : Config.Params) (s : Block P) (lits : List Byte) (m : Nat), s.seqReady lits 0 m →
    ∃ t : Block P, exec (seqForm lits.length m) ⟨P, s⟩ = .next ⟨P, t⟩ ∧
      t = { s with
        mem := t.mem
        work := s.work.afterSequence lits 0 m
        freeCount := s.freeCount + m } ∧
      s.literalsWritten t lits ∧
      (∀ k, k < m →
        t.dstByte (s.work.op + lits.length + k) = some (Config.freeByte (s.freeCount + k))) ∧
      ∀ a, s.outsideDst s.work.op (s.work.op + lits.length + m) a → t.mem.read a = s.mem.read a

/-- `44_decoder.md` R254, R255: each terminal form, with every length and every low nibble, completes:
the literals are written and the command ends with the bytes consumed (fixed-size) or produced
(unknown-size). -/
def Obligations.TerminalFormsComplete : Prop :=
  ∀ (P : Config.Params) (s : Block P) (lits : List Byte) (x : BitVec 4), s.lastReady lits →
    (lits.length < 15 →
      ∃ t : Block P, exec (.lastS (BitVec.ofNat 4 lits.length) x) ⟨P, s⟩ = .next ⟨P, t⟩ ∧
        s.lastEffect t lits) ∧
    (15 ≤ lits.length → ∃ t : Block P, exec (.lastX x) ⟨P, s⟩ = .next ⟨P, t⟩ ∧ s.lastEffect t lits)

/-- `44_decoder.md` R233: DECOMPRESS_UNKNOWN at the end of its input ends with the bytes produced. The
last clause, that the working registers keep their values when the command has ended, is the model's
choice (log 16); the spec gives them none (U11, `10_state.md` R33). -/
def Obligations.UnknownSizeEndsAtReadLimit : Prop :=
  ∀ (P : Config.Params) (s : Block P), s.phase = .unknown → s.work.ilim ≤ s.work.ip →
    ∃ t : Block P, step ⟨P, s⟩ = .next ⟨P, t⟩ ∧
      s.endsWith t (BitVec.ofNat P.xlen s.work.op) 0 s.work.op s.work.oend ∧ t.tab = s.tab ∧
      t.work = s.work

/-- `60_exceptions.md` R301 at the literal run (`44_decoder.md` R236) with R307: a run that would pass
the bound raises OutputOverflow with the cursor at its first literal. The first clause says that the
check comes before any byte of the run is written: it raises in the state it finds. The end of the
command then gives DST's bytes from `op` up to the bound any value (`44_decoder.md` R249), so the second
clause allows those to differ. -/
def Obligations.LiteralRunOverflow : Prop :=
  (∀ (P : Config.Params) (s : Block P), s.work.oend < s.work.op + s.work.litLen →
    copyLiterals s = .raised .outputOverflow s) ∧
  ∀ (P : Config.Params) (s : Block P) (len code : Nat), s.phase ≠ .idle →
    s.streamHas (controlByte len code :: extOf len) → s.work.oend < s.work.op + len →
    ∃ t : Block P, step ⟨P, s⟩ = .next ⟨P, t⟩ ∧
      s.endsWith t (neg32 (s.work.ip + 1 + litext len)) 1 s.work.op s.work.oend ∧ t.tab = s.tab

/-- `60_exceptions.md` R301 at the match (`44_decoder.md` R241) with R307: a match that would pass the
bound raises OutputOverflow with the cursor behind the sequence; the literals are written. The first
clause says that the check comes before any byte of the match is written. -/
def Obligations.MatchOverflow : Prop :=
  (∀ (P : Config.Params) (s : Block P), s.work.oend < s.work.op + s.work.matchLen →
    copyMatch s = .raised .outputOverflow s) ∧
  ∀ (P : Config.Params) (s : Block P) (lits : List Byte) (offset m : Nat), s.phase ≠ .idle → 4 ≤ m →
    offset < 65536 →
    s.streamHas (seqBytes lits offset m) → s.dstTakes lits.length →
    s.work.op + lits.length + P.decMargin ≤ s.work.oend → offset ≤ s.work.op + lits.length →
    s.work.oend < s.work.op + lits.length + m →
    ∃ t : Block P, step ⟨P, s⟩ = .next ⟨P, t⟩ ∧
      s.endsWith t
        (neg32 (s.work.ip + 1 + litext lits.length + lits.length + 2 + matchext m)) 1
        s.work.op s.work.oend ∧
      t.tab = s.tab ∧ s.literalsWritten t lits

/-- `60_exceptions.md` R302 (`44_decoder.md` R240) with R307: an offset larger than the bytes produced
raises BackReferenceUnderflow with the cursor behind the offset; the literals are written, and the
match length is not looked at. -/
def Obligations.BackReferenceUnderflow : Prop :=
  ∀ (P : Config.Params) (s : Block P) (lits : List Byte) (offset code : Nat), s.phase ≠ .idle →
    offset < 65536 →
    s.streamHas (controlByte lits.length code :: extOf lits.length ++ lits ++ le16 offset) →
    s.dstTakes lits.length → s.work.op + lits.length + P.decMargin ≤ s.work.oend →
    s.work.op + lits.length < offset →
    ∃ t : Block P, step ⟨P, s⟩ = .next ⟨P, t⟩ ∧
      s.endsWith t (neg32 (s.work.ip + 1 + litext lits.length + lits.length + 2)) 2
        s.work.op s.work.oend ∧
      t.tab = s.tab ∧ s.literalsWritten t lits

/-- `60_exceptions.md` R304, R306 checks 1, 2 and 4: SourceExhausted before the literals: no control
byte (fixed-size), a literal extension cut off by the read limit, a literal run cut off by it. -/
def Obligations.SourceExhaustedBeforeLiterals : Prop :=
  ∀ (P : Config.Params) (s : Block P),
    (s.phase = .fixed → s.work.ilim ≤ s.work.ip →
      ∃ t : Block P, step ⟨P, s⟩ = .next ⟨P, t⟩ ∧
        s.endsWith t (neg32 s.work.ip) 4 s.work.op s.work.oend ∧
        t.tab = s.tab) ∧
    (∀ code j, s.phase ≠ .idle →
      s.streamHas (controlByte 15 code :: List.replicate j 255) →
      s.work.ilim = s.work.ip + 1 + j →
      ∃ t : Block P, step ⟨P, s⟩ = .next ⟨P, t⟩ ∧
        s.endsWith t (neg32 s.work.ilim) 4 s.work.op s.work.oend ∧
        t.tab = s.tab) ∧
    (∀ len code, s.phase ≠ .idle → s.streamHas (controlByte len code :: extOf len) →
      s.work.op + len ≤ s.work.oend → s.work.ilim < s.work.ip + 1 + litext len + len →
      ∃ t : Block P, step ⟨P, s⟩ = .next ⟨P, t⟩ ∧
        s.endsWith t (neg32 (s.work.ip + 1 + litext len)) 4 s.work.op s.work.oend ∧
        t.tab = s.tab)

/-- `60_exceptions.md` R304, R306 checks 5 and 7, with R307: SourceExhausted after the literals: fewer
than two bytes for the offset (one byte; or none, fixed-size), and a match extension cut off by the
read limit. The literals are written. -/
def Obligations.SourceExhaustedAfterLiterals : Prop :=
  ∀ (P : Config.Params) (s : Block P) (lits : List Byte), s.phase ≠ .idle → s.dstTakes lits.length →
    s.work.op + lits.length + P.decMargin ≤ s.work.oend →
    (∀ code, s.streamHas (controlByte lits.length code :: extOf lits.length ++ lits) →
      (s.work.ilim = s.work.ip + 1 + litext lits.length + lits.length + 1 ∨
        (s.phase = .fixed ∧ s.work.ilim = s.work.ip + 1 + litext lits.length + lits.length)) →
      ∃ t : Block P, step ⟨P, s⟩ = .next ⟨P, t⟩ ∧
        s.endsWith t (neg32 (s.work.ip + 1 + litext lits.length + lits.length)) 4
          s.work.op s.work.oend ∧
        t.tab = s.tab ∧ s.literalsWritten t lits) ∧
    (∀ offset j, offset ≤ s.work.op + lits.length → offset < 65536 →
      s.streamHas (controlByte lits.length 15 :: extOf lits.length ++ lits ++ le16 offset ++
        List.replicate j 255) →
      s.work.ilim = s.work.ip + 1 + litext lits.length + lits.length + 2 + j →
      ∃ t : Block P, step ⟨P, s⟩ = .next ⟨P, t⟩ ∧
        s.endsWith t (neg32 s.work.ilim) 4 s.work.op s.work.oend ∧
        t.tab = s.tab ∧ s.literalsWritten t lits)

/-- `44_decoder.md` R242: the match copy is the `offset`-byte pattern before the cursor, repeated to
length `M`; the output cursor moves over it and nothing else changes. -/
def Obligations.MatchCopyRepeatsPattern : Prop :=
  ∀ (P : Config.Params) (s : Block P), s.work.offset ≠ 0 → s.work.offset ≤ s.work.op →
    s.work.op + s.work.matchLen ≤ s.work.oend → s.work.op + s.work.matchLen ≤ s.dst.size →
    (∀ i, i < s.work.op → (s.dstByte i).isSome) →
    ∃ t : Block P, copyMatch s = .go t ∧
      t = { s with mem := t.mem, work := { s.work with op := s.work.op + s.work.matchLen } } ∧
      (∀ k, k < s.work.matchLen →
        t.dstByte (s.work.op + k) =
          s.dstByte (s.work.op - s.work.offset + k % s.work.offset)) ∧
      ∀ a, s.outsideDst s.work.op (s.work.op + s.work.matchLen) a →
        t.mem.read a = s.mem.read a

/-- `70_reset_and_hazards.md` R351, R341: a decoder command launched under its premises never faults:
from its start on, every step either ends the command or moves the stream cursor strictly forward and
keeps what the next step needs. -/
def Obligations.DecoderProgress : Prop :=
  (∀ (P : Config.Params) (s : Block P) (p : Phase), s.decompressArgs → s.decompressPremises →
    p ≠ .idle →
    (s.startDecoder p).decoding) ∧
  ∀ (P : Config.Params) (s : Block P), s.decoding →
    ∃ t : Block P, step ⟨P, s⟩ = .next ⟨P, t⟩ ∧
      (t.phase = .idle ∨ (t.phase = s.phase ∧ t.decoding ∧ s.work.ip < t.work.ip))

/-- `44_decoder.md` R245 and R246: a whole decoder command, from the write to `x[CMD]` to its end, has
the outcome of the listing: RESULT, STATUS, and every byte of DST that the listing determines. -/
def Obligations.DecoderRefinesListing : Prop :=
  ∀ (P : Config.Params) (s : Block P) (unknown : Bool) (w : Word P.xlen)
    (rest : List (HostAction P.xlen)), w.toNat = (if unknown then 3 else 2) → s.launching w rest →
    s.decompressArgs → s.decompressPremises →
    ∀ l : ListingEnd, l = listing P unknown (s.srcBytes s.srcLen.toNat 0) s.dstLen.toNat →
    ∃ t : Block P, s.runs t ∧
      { s with host := rest }.endsWith t l.result l.status 0 s.dstLen.toNat ∧ t.tab = s.tab ∧
      ∀ (k : Nat) (b : Byte), l.out[k]? = some (some b) → t.dstByte k = some b

/-- `44_decoder.md` R256: a conforming stream for an input is decoded to that input, by
DECOMPRESS_FIXED with its length as DST_LEN and by DECOMPRESS_UNKNOWN with the stream's size as
SRC_LEN and room enough. The stream conforms for parameters `E` of its encoder; the decoder's margin is
at most MFLIMIT of those (`00_scope.md` R8 (b)) and at least 1, without which the fixed-size decoder
would not take a run that ends at the bound as terminal (log 13). -/
def Obligations.ConformingStreamDecodes : Prop :=
  ∀ (E P : Config.Params) (s : Block P) (w : Word P.xlen) (rest : List (HostAction P.xlen))
    (input : List Byte) (items : List SeqItem) (last stream : List Byte),
    conforming E input items last → 1 ≤ P.decMargin → P.decMargin ≤ E.mfLimit →
    stream = streamBytes items last → s.srcBytes stream.length 0 = stream →
    s.launching w rest → s.decompressArgs → s.decompressPremises →
    (w.toNat = 2 → s.dstLen.toNat = input.length → stream.length ≤ s.srcLen.toNat →
      ∃ t : Block P, s.runs t ∧
        { s with host := rest }.endsWith t (BitVec.ofNat P.xlen stream.length) 0 0 s.dstLen.toNat ∧
        ∀ k, k < input.length → t.dstByte k = input[k]?) ∧
    (w.toNat = 3 → s.srcLen.toNat = stream.length → input.length ≤ s.dstLen.toNat →
      ∃ t : Block P, s.runs t ∧
        { s with host := rest }.endsWith t (BitVec.ofNat P.xlen input.length) 0 0 s.dstLen.toNat ∧
        ∀ k, k < input.length → t.dstByte k = input[k]?)

/-- `44_decoder.md` R258: DECOMPRESS_FIXED never succeeds on a proper prefix of a conforming stream: it
ends with SourceExhausted, and RESULT is negative unless the prefix is empty. -/
def Obligations.TruncatedStreamFails : Prop :=
  ∀ (E P : Config.Params) (s : Block P) (w : Word P.xlen) (rest : List (HostAction P.xlen))
    (input : List Byte) (items : List SeqItem) (last stream : List Byte),
    conforming E input items last → P.decMargin ≤ E.mfLimit → w.toNat = 2 →
    stream = streamBytes items last → s.launching w rest → s.decompressArgs →
    s.decompressPremises → s.srcLen.toNat < stream.length →
    s.srcBytes s.srcLen.toNat 0 = stream.take s.srcLen.toNat → s.dstLen.toNat = input.length →
    ∃ (t : Block P) (consumed : Nat), s.runs t ∧
      { s with host := rest }.endsWith t (neg32 consumed) 4 0 s.dstLen.toNat ∧
      consumed ≤ s.srcLen.toNat ∧ (s.srcLen.toNat = 0 → t.result = 0) ∧
      (0 < s.srcLen.toNat → t.result.toInt < 0)

/-- `43_encoder.md` R210, the round trip: what a COMPRESS left in DST, given as SRC to a decoder command,
decodes to the bytes that COMPRESS read, for every choice of parameters that keeps `00_scope.md` R8 and
whose table entries hold every position, and a decoder with parameters of its own, XLEN among them, whose
margin is from 1 to the encoder's MFLIMIT. -/
def Obligations.RoundTrip : Prop :=
  ∀ (P : Config.Params) (s t : Block P), s.compressParams → s.compressArgs → s.compressPremises →
    exec .compress ⟨P, s⟩ = .next ⟨P, t⟩ →
    ∀ (Q : Config.Params) (u : Block Q) (w : Word Q.xlen) (rest : List (HostAction Q.xlen)),
      1 ≤ Q.decMargin → Q.decMargin ≤ P.mfLimit → u.launching w rest → u.decompressArgs →
      u.decompressPremises → u.srcLen.toNat = t.result.toNat →
      (∀ k, k < t.result.toNat → u.srcByte k = t.dstByte k) →
      (w.toNat = 2 → u.dstLen.toNat = s.srcLen.toNat →
        ∃ v : Block Q, u.runs v ∧
          { u with host := rest }.endsWith v u.srcLen 0 0 u.dstLen.toNat ∧
          ∀ k, k < s.srcLen.toNat → v.dstByte k = s.srcByte k) ∧
      (w.toNat = 3 → s.srcLen.toNat ≤ u.dstLen.toNat →
        ∃ v : Block Q, u.runs v ∧
          { u with host := rest }.endsWith v (BitVec.ofNat Q.xlen s.srcLen.toNat) 0 0
            u.dstLen.toNat ∧
          ∀ k, k < s.srcLen.toNat → v.dstByte k = s.srcByte k)

/-! ## Encodings -/

/-- The words of `30_encoding.md` R91 and R103, written out from their encodings, decode to the
instructions they stand for. -/
def Obligations.WrittenWordsDecode : Prop :=
  decodeTableWord 32 0b00000000000000000000000000000001 = some .compress ∧
  decodeTableWord 32 0b00000000000000000000000000000010 = some .decompressFixed ∧
  decodeTableWord 32 0b00000000000000000000000000000011 = some .decompressUnknown ∧
  decodeTableWord 8 0b00100010 = some (.seqSS 2 2) ∧
  decodeTableWord 8 0b11110011 = some (.seqXS 3) ∧
  decodeTableWord 8 0b00011111 = some (.seqSX 1) ∧
  decodeTableWord 8 0b11111111 = some .seqXX ∧
  sequenceForm true 0b01010000 = .lastS 5 0 ∧
  sequenceForm true 0b11110111 = .lastX 7

/-- Decode and encode agree for all instructions (`30_encoding.md` R91, R97, R103): decoding what a
well-formed instruction is encoded as gives it back, and every control byte, in either reading, is the
encoding of the well-formed instruction it decodes to. -/
def Obligations.InstructionsDecodeEncode : Prop :=
  (∀ i : Instr, i.wellFormed = true → decodeCode i.isTerminal (encode i) = .ok i) ∧
  (∀ (terminal : Bool) (t : Byte), ∃ i : Instr,
    decodeCode terminal (.controlByte t) = .ok i ∧ i.wellFormed = true ∧
      i.isTerminal = terminal ∧ encode i = .controlByte t) ∧
  ∀ (terminal : Bool) (w : Word 32) (i : Instr), decodeCode terminal (.command w) = .ok i →
    i.wellFormed = true ∧ encode i = .command w

/-- `30_encoding.md` R102 with R110: at any cursor, a sequence that starts with the bytes of a
literal run and match of any lengths decodes to the one form its lengths assemble to, terminal exactly
when the context says so. -/
def Obligations.SequencesDecodeEncode : Prop :=
  ∀ (P : Config.Params) (c : Context) (lits rest : List Byte) (offset m : Nat), 4 ≤ m →
    decodeSequence P c (seqBytes lits offset m ++ rest) = .ok
      (if c.oend < c.op + lits.length + P.decMargin ∨
          (c.unknown = true ∧ c.ip + 1 + litext lits.length + lits.length = c.ilim)
        then lastForm lits.length (BitVec.ofNat 4 (min (m - 4) 15))
        else seqForm lits.length m) ∧
    decodeSequence P c (lastBytes lits ++ rest) = .ok
      (if c.oend < c.op + lits.length + P.decMargin ∨
          (c.unknown = true ∧ c.ip + 1 + litext lits.length + lits.length = c.ilim)
        then lastForm lits.length 0
        else seqForm lits.length 4)

/-- `30_encoding.md` R104: the sizes of a sequence, with `litext` and `matchext` of R98 and R99. -/
def Obligations.SequenceSizes : Prop :=
  ∀ (lits : List Byte) (offset m : Nat), 4 ≤ m →
    (seqBytes lits offset m).length =
      1 + (if lits.length < 15 then 0 else 1 + (lits.length - 15) / 255) + lits.length + 2 +
        (if m < 19 then 0 else 1 + (m - 19) / 255) ∧
    (lastBytes lits).length =
      1 + (if lits.length < 15 then 0 else 1 + (lits.length - 15) / 255) + lits.length

/-! ## Length codec -/

/-- `42_length_codec.md` R172, ENC_EXT: the bytes written for a value of at least 15, and the cursor
behind them. -/
def Obligations.ExtensionBytesWritten : Prop :=
  ∀ (v : Nat) (e : Enc), 15 ≤ v →
    extBytes v = List.replicate ((v - 15) / 255) 255 ++ [BitVec.ofNat 8 ((v - 15) % 255)] ∧
    (e.emit (extBytes v)).out = e.out ++ extBytes v ∧
    (e.emit (extBytes v)).w.op = e.w.op + (1 + (v - 15) / 255)

/-- `42_length_codec.md` R175, DEC_EXT: 15 plus the sum up to and with the first byte other than 255,
the cursor behind it; SourceExhausted with the cursor at the read limit when there is none. -/
def Obligations.ExtensionDecoded : Prop :=
  ∀ (P : Config.Params) (set : Nat → Block P → Block P) (s : Block P),
    (∀ (k : Nat) (e : Byte) (rest : List Byte), e ≠ 255 →
      s.unread = List.replicate k 255 ++ e :: rest →
      decExt set s = .go (set (15 + (255 * k + e.toNat)) (advance (k + 1) s))) ∧
    (s.unread = List.replicate (s.work.ilim - s.work.ip) 255 →
      decExt set s = .raised .sourceExhausted (advance (s.work.ilim - s.work.ip) s))

/-- `42_length_codec.md` R179, the round trip of the codec, both ways. -/
def Obligations.CodecRoundTrip : Prop :=
  (∀ v : Nat, v < 15 → nibble v = v ∧ extOf v = []) ∧
  (∀ (v : Nat) (rest : List Byte), 15 ≤ v → nibble v = 15 ∧
    (extOf v).length = 1 + (v - 15) / 255 ∧
    extSum (extOf v ++ rest) = some (v - 15, (extOf v).length)) ∧
  ∀ (bs : List Byte) (v k : Nat), extSum bs = some (v, k) → bs.take k = extOf (15 + v)

/-! ## Primitives and match finder -/

/-- `40_primitives.md` R130 to R135 with `20_memory.md` R60, R61, R63: a read of `k` bytes at any address
is their little-endian value, a write stores the value's bytes lowest first and nothing else. -/
def Obligations.LittleEndianAccesses : Prop :=
  ∀ (mem : Memory) (a k : Nat),
    (∀ bs : List Byte, bs.length = k → (∀ j, j < k → mem.read (a + j) = bs[j]?) →
      Memory.readLE k mem a =
        some ((List.range k).map fun j => (bs.getD j 0).toNat * 256 ^ j).sum) ∧
    (∀ v, v < 256 ^ k → Memory.readLE k (mem.writeLE a k v) a = some v) ∧
    (∀ v j, j < k → (mem.writeLE a k v).read (a + j) = some (BitVec.ofNat 8 (v / 256 ^ j))) ∧
    ∀ v b, b < a ∨ a + k ≤ b → (mem.writeLE a k v).read b = mem.read b

/-- `40_primitives.md` R136, NBCOMMON: of two different words the number of leading bytes, in memory
order, in which they agree. -/
def Obligations.CommonLeadingBytes : Prop :=
  ∀ width a b : Nat, a < 256 ^ width → b < 256 ^ width → a ≠ b →
    nbCommon width a b < width ∧
    (∀ j, j < nbCommon width a b → a / 256 ^ j % 256 = b / 256 ^ j % 256) ∧
    a / 256 ^ nbCommon width a b % 256 ≠ b / 256 ^ nbCommon width a b % 256

/-- `40_primitives.md` R137, HASH: the formula and its range, for every HASH_WORD_BITS (32 in the rule),
and the rule's own examples. -/
def Obligations.HashFormulaAndRange : Prop :=
  (∀ bits log w : Nat, log ≤ bits →
    hash bits log w = (w * 2654435761 % 2 ^ bits) >>> (bits - log) ∧ hash bits log w < 2 ^ log) ∧
  hash 32 13 0x41414141 = 797 ∧ hash 32 12 0x41414141 = 398 ∧
  hash 32 13 0x64636261 = 3169 ∧ hash 32 12 0x64636261 = 1584 ∧
  hash 32 13 1 = 5062 ∧ hash 32 12 1 = 2531 ∧
  hash 32 13 0xFFFFFFFF = 3129 ∧ hash 32 12 0xFFFFFFFF = 1564 ∧
  hash 32 13 0 = 0 ∧ hash 32 12 0 = 0

/-- `41_match_finder.md` R151, TABLE_CLEAR: every entry of the variant's geometry becomes 0; the others
are kept (log 12), and the table keeps its canonical form. -/
def Obligations.TableClearEffect : Prop :=
  ∀ (P : Config.Params) (v : Variant) (tab : Tab),
    (∀ h, h < 2 ^ hashLog P v → Tab.get (tableClear P v tab) h = 0) ∧
    (∀ h, 2 ^ hashLog P v ≤ h → Tab.get (tableClear P v tab) h = Tab.get tab h) ∧
    (Tab.wf tab → Tab.wf (tableClear P v tab))

/-- `41_match_finder.md` R154, VERIFY: the candidate's four bytes equal the current ones, and in the wide
variant the distance is at most 65535. -/
def Obligations.VerifyComparesFourBytes : Prop :=
  ∀ (v : Variant) (src : Nat → Byte) (p ref : Nat),
    verify v src p ref = true ↔
      (v = .narrow ∨ p - ref ≤ 65535) ∧ ∀ k, k < 4 → src (ref + k) = src (p + k)

/-- `41_match_finder.md` R155, PROBE: the candidate is the entry as it was, the entry becomes the probed
position, no other entry changes, and the result is VERIFY of the candidate. -/
def Obligations.ProbeLooksUpThenInserts : Prop :=
  ∀ (P : Config.Params) (src : Nat → Byte) (p h : Nat) (e : Enc), P.wf → Tab.wf e.tab →
    p < 2 ^ entryW P e.w.variant → h = bucket P e.w.variant src p →
    h < 2 ^ hashLog P e.w.variant ∧
    (probe P src p e).1.w = { e.w with h := h, ref := Tab.get e.tab h } ∧
    (probe P src p e).2 = verify e.w.variant src p (Tab.get e.tab h) ∧
    Tab.get (probe P src p e).1.tab h = p ∧
    (∀ x, x ≠ h → Tab.get (probe P src p e).1.tab x = Tab.get e.tab x) ∧
    (probe P src p e).1.out = e.out ∧ Tab.wf (probe P src p e).1.tab

/-- `70_reset_and_hazards.md` R343 with `45_commands.md` R281 and D4: for registers of any width from 5
bits on, MAX_COMPRESS_LEN is the largest length whose bound is at most MAX_LEN; the values of `00_scope.md`
R7 at its XLEN of 32, and the rule's listed bounds. -/
def Obligations.BoundFitsResult : Prop :=
  (∀ n, bound n = n + max 8 ((n + 19) / 20)) ∧
  (∀ x n, 5 ≤ x → (n ≤ Config.maxCompressLen x ↔ bound n ≤ Config.maxLen x)) ∧
  (∀ x, Config.maxLen x = 2 ^ (x - 1) - 1) ∧
  Config.params.xlen = 32 ∧ Config.maxLen 32 = 2147483647 ∧
  Config.maxCompressLen 32 = 2045222520 ∧
  bound 0 = 8 ∧ bound 160 = 168 ∧ bound 161 = 170 ∧ bound 1000 = 1050 ∧ bound 65535 = 68812 ∧
  bound 65536 = 68813 ∧ bound 2045222520 = 2147483646
end

