-- ==== Sys2Proof/Laws/Assoc.lean ====
section
/-! SUPPORT. Laws of the sparse lists in canonical form, which hold the byte store and the table. -/

namespace Sys2Proof.Machine

variable {α : Type}

@[simp] theorem Assoc.get_nil (a : Nat) : Assoc.get ([] : List (Nat × α)) a = none := rfl

theorem Assoc.get_cons (k : Nat) (v : α) (l : List (Nat × α)) (a : Nat) :
    Assoc.get ((k, v) :: l) a = if k = a then some v else Assoc.get l a := rfl

/-- A key below every listed key is not listed. -/
theorem Assoc.get_eq_none_of_lt {l : List (Nat × α)} {a : Nat} (h : ∀ e ∈ l, a < e.1) :
    Assoc.get l a = none := by
  induction l with
  | nil => rfl
  | cons e l ih =>
    obtain ⟨k, v⟩ := e
    have hk : a < k := h (k, v) (by simp)
    rw [Assoc.get_cons, if_neg (by omega)]
    exact ih fun x hx => h x (by simp [hx])

/-- Reading after a put: the new value at its key, the old value at every other. -/
theorem Assoc.get_put (l : List (Nat × α)) (a b : Nat) (v : α) :
    Assoc.get (Assoc.put l a v) b = if a = b then some v else Assoc.get l b := by
  induction l with
  | nil => rfl
  | cons e l ih =>
    obtain ⟨k, w⟩ := e
    by_cases h1 : a < k
    · simp only [Assoc.put, if_pos h1, Assoc.get_cons]
    · by_cases h2 : a = k
      · subst h2
        rw [show Assoc.put ((a, w) :: l) a v = (a, v) :: l by simp [Assoc.put], Assoc.get_cons,
          Assoc.get_cons]
        by_cases h3 : a = b <;> simp [h3]
      · simp only [Assoc.put, if_neg h1, if_neg h2, Assoc.get_cons, ih]
        by_cases h3 : k = b
        · rw [if_pos h3, if_pos h3, if_neg (by omega)]
        · rw [if_neg h3, if_neg h3]

@[simp] theorem Assoc.get_put_same (l : List (Nat × α)) (a : Nat) (v : α) :
    Assoc.get (Assoc.put l a v) a = some v := by rw [Assoc.get_put, if_pos rfl]

theorem Assoc.get_put_of_ne (l : List (Nat × α)) {a b : Nat} (v : α) (h : a ≠ b) :
    Assoc.get (Assoc.put l a v) b = Assoc.get l b := by rw [Assoc.get_put, if_neg h]

/-- Every entry after a put is the new one or an old one. -/
theorem Assoc.mem_put {l : List (Nat × α)} {a : Nat} {v : α} {e : Nat × α}
    (h : e ∈ Assoc.put l a v) : e = (a, v) ∨ e ∈ l := by
  induction l with
  | nil => simpa [Assoc.put] using h
  | cons x l ih =>
    obtain ⟨k, w⟩ := x
    by_cases h1 : a < k
    · simpa only [Assoc.put, if_pos h1, List.mem_cons] using h
    · by_cases h2 : a = k
      · simp only [Assoc.put, if_neg h1, if_pos h2, List.mem_cons] at h
        rcases h with h | h
        · exact .inl h
        · exact .inr (by simp [h])
      · simp only [Assoc.put, if_neg h1, if_neg h2, List.mem_cons] at h
        rcases h with h | h
        · exact .inr (by simp [h])
        · rcases ih h with h | h
          · exact .inl h
          · exact .inr (by simp [h])

/-- A put keeps the canonical form. -/
theorem Assoc.wf_put {l : List (Nat × α)} (a : Nat) (v : α) (h : Assoc.wf l) :
    Assoc.wf (Assoc.put l a v) := by
  induction l with
  | nil => simp [Assoc.put, Assoc.wf]
  | cons x l ih =>
    obtain ⟨k, w⟩ := x
    obtain ⟨hk, hl⟩ := List.pairwise_cons.1 h
    by_cases h1 : a < k
    · simp only [Assoc.put, if_pos h1]
      refine List.pairwise_cons.2 ⟨?_, h⟩
      intro e he
      rcases List.mem_cons.1 he with rfl | he
      · exact h1
      · exact Nat.lt_trans h1 (hk e he)
    · by_cases h2 : a = k
      · subst h2
        rw [show Assoc.put ((a, w) :: l) a v = (a, v) :: l by simp [Assoc.put]]
        exact List.pairwise_cons.2 ⟨hk, hl⟩
      · simp only [Assoc.put, if_neg h1, if_neg h2]
        refine List.pairwise_cons.2 ⟨?_, ih hl⟩
        intro e he
        rcases Assoc.mem_put he with rfl | he
        · show k < a
          omega
        · exact hk e he

/-- Every entry after a deletion is an old one. -/
theorem Assoc.mem_of_mem_del {l : List (Nat × α)} {a : Nat} {e : Nat × α}
    (h : e ∈ Assoc.del l a) : e ∈ l := by
  induction l with
  | nil => exact h
  | cons x l ih =>
    obtain ⟨k, w⟩ := x
    by_cases h2 : a = k
    · simp only [Assoc.del, if_pos h2] at h
      simp [h]
    · simp only [Assoc.del, if_neg h2, List.mem_cons] at h
      rcases h with h | h
      · simp [h]
      · simp [ih h]

/-- A deletion keeps the canonical form. -/
theorem Assoc.wf_del {l : List (Nat × α)} (a : Nat) (h : Assoc.wf l) : Assoc.wf (Assoc.del l a) := by
  induction l with
  | nil => exact h
  | cons x l ih =>
    obtain ⟨k, w⟩ := x
    obtain ⟨hk, hl⟩ := List.pairwise_cons.1 h
    by_cases h2 : a = k
    · simpa only [Assoc.del, if_pos h2] using hl
    · simp only [Assoc.del, if_neg h2]
      exact List.pairwise_cons.2 ⟨fun e he => hk e (Assoc.mem_of_mem_del he), ih hl⟩

/-- Reading after a deletion: nothing at its key, the old value at every other. -/
theorem Assoc.get_del {l : List (Nat × α)} (a b : Nat) (h : Assoc.wf l) :
    Assoc.get (Assoc.del l a) b = if a = b then none else Assoc.get l b := by
  induction l with
  | nil => simp [Assoc.del]
  | cons x l ih =>
    obtain ⟨k, w⟩ := x
    obtain ⟨hk, hl⟩ := List.pairwise_cons.1 h
    by_cases h2 : a = k
    · subst h2
      rw [show Assoc.del ((a, w) :: l) a = l by simp [Assoc.del], Assoc.get_cons]
      by_cases h3 : a = b
      · subst h3
        rw [if_pos rfl]
        exact Assoc.get_eq_none_of_lt hk
      · rw [if_neg h3, if_neg h3]
    · simp only [Assoc.del, if_neg h2, Assoc.get_cons, ih hl]
      by_cases h3 : k = b
      · rw [if_pos h3, if_pos h3, if_neg (by omega)]
      · rw [if_neg h3, if_neg h3]

/-- A filter keeps the canonical form. -/
theorem Assoc.wf_filter {l : List (Nat × α)} (p : Nat × α → Bool) (h : Assoc.wf l) :
    Assoc.wf (l.filter p) := List.Pairwise.filter p h

/-- Reading after a filter on keys. -/
theorem Assoc.get_filter_key (l : List (Nat × α)) (p : Nat → Bool) (a : Nat) :
    Assoc.get (l.filter fun e => p e.1) a = if p a then Assoc.get l a else none := by
  induction l with
  | nil => simp
  | cons x l ih =>
    obtain ⟨k, w⟩ := x
    by_cases hp : p k
    · rw [List.filter_cons_of_pos (by simpa using hp), Assoc.get_cons, Assoc.get_cons, ih]
      by_cases h : k = a
      · subst h; simp [hp]
      · simp [h]
    · rw [List.filter_cons_of_neg (by simpa using hp), ih, Assoc.get_cons]
      by_cases h : k = a
      · subst h; simp [hp]
      · simp [h]

end Sys2Proof.Machine
end

