-- ==== Sys2Proof/Laws/Memory.lean ====
section
/-! SUPPORT. Laws of the byte store: read after write, frames, the byte-sequential copy, and that
every operation keeps the canonical form. -/

namespace Sys2Proof.Machine

/-! ## One byte -/

theorem Memory.read_write (m : Memory) (a b : Nat) (v : Byte) :
    (m.write a v).read b = if a = b then some v else m.read b := Assoc.get_put m a b v

@[simp] theorem Memory.read_write_same (m : Memory) (a : Nat) (v : Byte) :
    (m.write a v).read a = some v := Assoc.get_put_same m a v

theorem Memory.read_write_of_ne (m : Memory) {a b : Nat} (v : Byte) (h : a ≠ b) :
    (m.write a v).read b = m.read b := Assoc.get_put_of_ne m v h

theorem Memory.wf_write {m : Memory} (a : Nat) (v : Byte) (h : m.wf) : (m.write a v).wf :=
  Assoc.wf_put a v h

/-! ## Runs of bytes -/

@[simp] theorem Memory.writeBytes_nil (m : Memory) (a : Nat) : m.writeBytes a [] = m := rfl

theorem Memory.writeBytes_cons (m : Memory) (a : Nat) (b : Byte) (bs : List Byte) :
    m.writeBytes a (b :: bs) = (m.write a b).writeBytes (a + 1) bs := rfl

/-- A run of writes changes nothing outside its range. -/
theorem Memory.read_writeBytes_outside (bs : List Byte) (m : Memory) (a c : Nat)
    (h : c < a ∨ a + bs.length ≤ c) : (m.writeBytes a bs).read c = m.read c := by
  induction bs generalizing m a with
  | nil => rfl
  | cons b bs ih =>
    rw [List.length_cons] at h
    rw [writeBytes_cons, ih _ _ (by omega), read_write_of_ne _ _ (by omega)]

/-- A run of writes puts byte `k` at its `k`-th address. -/
theorem Memory.read_writeBytes (bs : List Byte) (m : Memory) (a k : Nat) (h : k < bs.length) :
    (m.writeBytes a bs).read (a + k) = bs[k]? := by
  induction bs generalizing m a k with
  | nil => simp at h
  | cons b bs ih =>
    rw [writeBytes_cons]
    cases k with
    | zero =>
      rw [read_writeBytes_outside _ _ _ _ (by omega)]
      simp
    | succ k =>
      have := ih (m.write a b) (a + 1) k (by simpa using h)
      rw [show a + (k + 1) = a + 1 + k by omega, this]
      simp

theorem Memory.wf_writeBytes {m : Memory} (bs : List Byte) (a : Nat) (h : m.wf) :
    (m.writeBytes a bs).wf := by
  induction bs generalizing m a with
  | nil => exact h
  | cons b bs ih => exact ih (a + 1) (wf_write a b h)

theorem Memory.wf_writeLE {m : Memory} (a k v : Nat) (h : m.wf) : (m.writeLE a k v).wf :=
  wf_writeBytes _ a h

/-! ## The byte-sequential copy -/

@[simp] theorem Memory.copy_zero (m : Memory) (a b : Nat) : m.copy 0 a b = some m := rfl

/-- One byte of a copy, then the rest. -/
theorem Memory.copy_succ {k : Nat} {m m' : Memory} {a b : Nat} :
    m.copy (k + 1) a b = some m' ↔
      ∃ v, m.read a = some v ∧ (m.write b v).copy k (a + 1) (b + 1) = some m' := by
  rw [Memory.copy]
  cases m.read a <;> simp

/-- A copy changes nothing outside its destination. -/
theorem Memory.read_copy_outside {k : Nat} {m m' : Memory} {a b c : Nat}
    (h : m.copy k a b = some m') (hc : c < b ∨ b + k ≤ c) : m'.read c = m.read c := by
  induction k generalizing m a b with
  | zero => simp at h; rw [h]
  | succ k ih =>
    obtain ⟨v, -, h⟩ := copy_succ.1 h
    rw [ih h (by omega), read_write_of_ne _ _ (by omega)]

theorem Memory.wf_copy {k : Nat} {m m' : Memory} {a b : Nat} (h : m.copy k a b = some m')
    (hm : m.wf) : m'.wf := by
  induction k generalizing m a b with
  | zero => simp at h; rwa [← h]
  | succ k ih =>
    obtain ⟨v, -, h⟩ := copy_succ.1 h
    exact ih h (wf_write b v hm)

/-- A copy whose source ends at or before its destination, or starts behind it, moves the bytes as
they stood. -/
theorem Memory.read_copy_of_disjoint {k : Nat} {m m' : Memory} {a b : Nat}
    (h : m.copy k a b = some m') (hd : a + k ≤ b ∨ b + k ≤ a) {j : Nat} (hj : j < k) :
    m'.read (b + j) = m.read (a + j) := by
  induction k generalizing m a b j with
  | zero => omega
  | succ k ih =>
    obtain ⟨v, hv, h⟩ := copy_succ.1 h
    cases j with
    | zero => rw [read_copy_outside h (by omega), Nat.add_zero, Nat.add_zero, read_write_same, hv]
    | succ j =>
      have := ih h (by omega) (j := j) (by omega)
      rw [show b + (j + 1) = b + 1 + j by omega, this, read_write_of_ne _ _ (by omega)]
      congr 1
      omega

/-- A copy from before its destination: each byte of the destination ends up equal to the byte that
stands, in the end, the same distance before it. -/
theorem Memory.read_copy_backward {k : Nat} {m m' : Memory} {a b : Nat}
    (h : m.copy k a b = some m') (hab : a < b) {j : Nat} (hj : j < k) :
    m'.read (b + j) = m'.read (a + j) := by
  induction k generalizing m a b j with
  | zero => omega
  | succ k ih =>
    obtain ⟨v, hv, h⟩ := copy_succ.1 h
    cases j with
    | zero =>
      rw [Nat.add_zero, Nat.add_zero, read_copy_outside h (by omega),
        read_copy_outside h (by omega), read_write_same, read_write_of_ne _ _ (by omega), hv]
    | succ j =>
      have := ih h (by omega) (j := j) (by omega)
      rw [show b + (j + 1) = b + 1 + j by omega, this]
      congr 1
      omega

/-- A copy whose source bytes are there, with a source outside the destination, goes through. -/
theorem Memory.copy_isSome_of_disjoint {k : Nat} {m : Memory} {a b : Nat}
    (hs : ∀ j, j < k → (m.read (a + j)).isSome) (hd : a + k ≤ b ∨ b + k ≤ a) :
    ∃ m', m.copy k a b = some m' := by
  induction k generalizing m a b with
  | zero => exact ⟨m, rfl⟩
  | succ k ih =>
    obtain ⟨v, hv⟩ := Option.isSome_iff_exists.1 (hs 0 (by omega))
    obtain ⟨m', h⟩ := ih (m := m.write b v) (a := a + 1) (b := b + 1) (by
      intro j hj
      rw [read_write_of_ne _ _ (by omega)]
      have := hs (j + 1) (by omega)
      rwa [show a + (j + 1) = a + 1 + j by omega] at this) (by omega)
    exact ⟨m', copy_succ.2 ⟨v, hv, h⟩⟩

/-- A copy from before its destination goes through when the bytes between source and destination are
there. -/
theorem Memory.copy_isSome_backward {k : Nat} {m : Memory} {a b : Nat} (hab : a < b)
    (hs : ∀ c, a ≤ c → c < b → (m.read c).isSome) : ∃ m', m.copy k a b = some m' := by
  induction k generalizing m a b with
  | zero => exact ⟨m, rfl⟩
  | succ k ih =>
    obtain ⟨v, hv⟩ := Option.isSome_iff_exists.1 (hs a (by omega) hab)
    obtain ⟨m', h⟩ := ih (m := m.write b v) (a := a + 1) (b := b + 1) (by omega) (by
      intro c h1 h2
      by_cases hc : b = c
      · subst hc; simp
      · rw [read_write_of_ne _ _ hc]
        exact hs c (by omega) (by omega))
    exact ⟨m', copy_succ.2 ⟨v, hv, h⟩⟩

/-! ## Free bytes -/

@[simp] theorem freeBytes_length (c k : Nat) : (freeBytes c k).length = k := by
  induction k generalizing c with
  | zero => rfl
  | succ k ih => simp [freeBytes, ih]

theorem freeBytes_getElem? (c k j : Nat) (h : j < k) :
    (freeBytes c k)[j]? = some (Config.freeByte (c + j)) := by
  induction k generalizing c j with
  | zero => omega
  | succ k ih =>
    cases j with
    | zero => simp [freeBytes]
    | succ j =>
      rw [freeBytes, List.getElem?_cons_succ, ih (c + 1) j (by omega)]
      congr 2
      omega

end Sys2Proof.Machine
end

