-- ==== Sys2Proof/Laws/State.lean ====
section
/-! SUPPORT. The fields of a block under each named update, so that no proof unfolds a record update.
One lemma per field per update; `src`, `dst` and `window` are the windows behind the handles. -/

namespace Sys2Proof.Machine

variable {P : Config.Params}

/-! ### `Block.finish` -/

@[simp] theorem Block.finish_srcBase (s : Block P) (v : Nat) :
    (s.finish v).srcBase = s.srcBase := rfl
@[simp] theorem Block.finish_srcLen (s : Block P) (v : Nat) : (s.finish v).srcLen = s.srcLen := rfl
@[simp] theorem Block.finish_dstBase (s : Block P) (v : Nat) :
    (s.finish v).dstBase = s.dstBase := rfl
@[simp] theorem Block.finish_dstLen (s : Block P) (v : Nat) : (s.finish v).dstLen = s.dstLen := rfl
@[simp] theorem Block.finish_result (s : Block P) (v : Nat) :
    (s.finish v).result = BitVec.ofNat P.xlen v := rfl
@[simp] theorem Block.finish_status (s : Block P) (v : Nat) : (s.finish v).status = causeOk := rfl
@[simp] theorem Block.finish_phase (s : Block P) (v : Nat) : (s.finish v).phase = .idle := rfl
@[simp] theorem Block.finish_work (s : Block P) (v : Nat) : (s.finish v).work = s.work := rfl
@[simp] theorem Block.finish_tab (s : Block P) (v : Nat) : (s.finish v).tab = s.tab := rfl
@[simp] theorem Block.finish_mem (s : Block P) (v : Nat) : (s.finish v).mem = s.mem := rfl
@[simp] theorem Block.finish_windows (s : Block P) (v : Nat) :
    (s.finish v).windows = s.windows := rfl
@[simp] theorem Block.finish_host (s : Block P) (v : Nat) : (s.finish v).host = s.host := rfl
@[simp] theorem Block.finish_hostData (s : Block P) (v : Nat) :
    (s.finish v).hostData = s.hostData := rfl
@[simp] theorem Block.finish_freeCount (s : Block P) (v : Nat) :
    (s.finish v).freeCount = s.freeCount := rfl
@[simp] theorem Block.finish_src (s : Block P) (v : Nat) : (s.finish v).src = s.src := rfl
@[simp] theorem Block.finish_dst (s : Block P) (v : Nat) : (s.finish v).dst = s.dst := rfl

/-! ### `Block.raise` -/

@[simp] theorem Block.raise_srcBase (s : Block P) (c : Cause) (k : Nat) :
    (s.raise c k).srcBase = s.srcBase := rfl
@[simp] theorem Block.raise_srcLen (s : Block P) (c : Cause) (k : Nat) :
    (s.raise c k).srcLen = s.srcLen := rfl
@[simp] theorem Block.raise_dstBase (s : Block P) (c : Cause) (k : Nat) :
    (s.raise c k).dstBase = s.dstBase := rfl
@[simp] theorem Block.raise_dstLen (s : Block P) (c : Cause) (k : Nat) :
    (s.raise c k).dstLen = s.dstLen := rfl
@[simp] theorem Block.raise_result (s : Block P) (c : Cause) (k : Nat) :
    (s.raise c k).result = neg32 k := rfl
@[simp] theorem Block.raise_status (s : Block P) (c : Cause) (k : Nat) :
    (s.raise c k).status = causeCode c := rfl
@[simp] theorem Block.raise_phase (s : Block P) (c : Cause) (k : Nat) :
    (s.raise c k).phase = .idle := rfl
@[simp] theorem Block.raise_work (s : Block P) (c : Cause) (k : Nat) :
    (s.raise c k).work = s.work := rfl
@[simp] theorem Block.raise_tab (s : Block P) (c : Cause) (k : Nat) :
    (s.raise c k).tab = s.tab := rfl
@[simp] theorem Block.raise_mem (s : Block P) (c : Cause) (k : Nat) :
    (s.raise c k).mem = s.mem := rfl
@[simp] theorem Block.raise_windows (s : Block P) (c : Cause) (k : Nat) :
    (s.raise c k).windows = s.windows := rfl
@[simp] theorem Block.raise_host (s : Block P) (c : Cause) (k : Nat) :
    (s.raise c k).host = s.host := rfl
@[simp] theorem Block.raise_hostData (s : Block P) (c : Cause) (k : Nat) :
    (s.raise c k).hostData = s.hostData := rfl
@[simp] theorem Block.raise_freeCount (s : Block P) (c : Cause) (k : Nat) :
    (s.raise c k).freeCount = s.freeCount := rfl
@[simp] theorem Block.raise_src (s : Block P) (c : Cause) (k : Nat) : (s.raise c k).src = s.src := rfl
@[simp] theorem Block.raise_dst (s : Block P) (c : Cause) (k : Nat) : (s.raise c k).dst = s.dst := rfl

/-! ### `Block.writeDst` -/

@[simp] theorem Block.writeDst_srcBase (s : Block P) (i : Nat) (bs : List Byte) :
    (s.writeDst i bs).srcBase = s.srcBase := rfl
@[simp] theorem Block.writeDst_srcLen (s : Block P) (i : Nat) (bs : List Byte) :
    (s.writeDst i bs).srcLen = s.srcLen := rfl
@[simp] theorem Block.writeDst_dstBase (s : Block P) (i : Nat) (bs : List Byte) :
    (s.writeDst i bs).dstBase = s.dstBase := rfl
@[simp] theorem Block.writeDst_dstLen (s : Block P) (i : Nat) (bs : List Byte) :
    (s.writeDst i bs).dstLen = s.dstLen := rfl
@[simp] theorem Block.writeDst_result (s : Block P) (i : Nat) (bs : List Byte) :
    (s.writeDst i bs).result = s.result := rfl
@[simp] theorem Block.writeDst_status (s : Block P) (i : Nat) (bs : List Byte) :
    (s.writeDst i bs).status = s.status := rfl
@[simp] theorem Block.writeDst_phase (s : Block P) (i : Nat) (bs : List Byte) :
    (s.writeDst i bs).phase = s.phase := rfl
@[simp] theorem Block.writeDst_work (s : Block P) (i : Nat) (bs : List Byte) :
    (s.writeDst i bs).work = s.work := rfl
@[simp] theorem Block.writeDst_tab (s : Block P) (i : Nat) (bs : List Byte) :
    (s.writeDst i bs).tab = s.tab := rfl
@[simp] theorem Block.writeDst_mem (s : Block P) (i : Nat) (bs : List Byte) :
    (s.writeDst i bs).mem = s.mem.writeBytes (s.dst.base + i) bs := rfl
@[simp] theorem Block.writeDst_windows (s : Block P) (i : Nat) (bs : List Byte) :
    (s.writeDst i bs).windows = s.windows := rfl
@[simp] theorem Block.writeDst_host (s : Block P) (i : Nat) (bs : List Byte) :
    (s.writeDst i bs).host = s.host := rfl
@[simp] theorem Block.writeDst_hostData (s : Block P) (i : Nat) (bs : List Byte) :
    (s.writeDst i bs).hostData = s.hostData := rfl
@[simp] theorem Block.writeDst_freeCount (s : Block P) (i : Nat) (bs : List Byte) :
    (s.writeDst i bs).freeCount = s.freeCount := rfl
@[simp] theorem Block.writeDst_src (s : Block P) (i : Nat) (bs : List Byte) : (s.writeDst i bs).src = s.src := rfl
@[simp] theorem Block.writeDst_dst (s : Block P) (i : Nat) (bs : List Byte) : (s.writeDst i bs).dst = s.dst := rfl

/-! ### `Block.freeDst` -/

@[simp] theorem Block.freeDst_srcBase (s : Block P) (i k : Nat) :
    (s.freeDst i k).srcBase = s.srcBase := rfl
@[simp] theorem Block.freeDst_srcLen (s : Block P) (i k : Nat) :
    (s.freeDst i k).srcLen = s.srcLen := rfl
@[simp] theorem Block.freeDst_dstBase (s : Block P) (i k : Nat) :
    (s.freeDst i k).dstBase = s.dstBase := rfl
@[simp] theorem Block.freeDst_dstLen (s : Block P) (i k : Nat) :
    (s.freeDst i k).dstLen = s.dstLen := rfl
@[simp] theorem Block.freeDst_result (s : Block P) (i k : Nat) :
    (s.freeDst i k).result = s.result := rfl
@[simp] theorem Block.freeDst_status (s : Block P) (i k : Nat) :
    (s.freeDst i k).status = s.status := rfl
@[simp] theorem Block.freeDst_phase (s : Block P) (i k : Nat) :
    (s.freeDst i k).phase = s.phase := rfl
@[simp] theorem Block.freeDst_work (s : Block P) (i k : Nat) : (s.freeDst i k).work = s.work := rfl
@[simp] theorem Block.freeDst_tab (s : Block P) (i k : Nat) : (s.freeDst i k).tab = s.tab := rfl
@[simp] theorem Block.freeDst_mem (s : Block P) (i k : Nat) :
    (s.freeDst i k).mem = s.mem.writeBytes (s.dst.base + i) (freeBytes s.freeCount k) := rfl
@[simp] theorem Block.freeDst_windows (s : Block P) (i k : Nat) :
    (s.freeDst i k).windows = s.windows := rfl
@[simp] theorem Block.freeDst_host (s : Block P) (i k : Nat) : (s.freeDst i k).host = s.host := rfl
@[simp] theorem Block.freeDst_hostData (s : Block P) (i k : Nat) :
    (s.freeDst i k).hostData = s.hostData := rfl
@[simp] theorem Block.freeDst_freeCount (s : Block P) (i k : Nat) :
    (s.freeDst i k).freeCount = s.freeCount + k := rfl
@[simp] theorem Block.freeDst_src (s : Block P) (i k : Nat) : (s.freeDst i k).src = s.src := rfl
@[simp] theorem Block.freeDst_dst (s : Block P) (i k : Nat) : (s.freeDst i k).dst = s.dst := rfl

/-! ### `Block.scratchDst` -/

@[simp] theorem Block.scratchDst_srcBase (s : Block P) (lo hi : Nat) :
    (s.scratchDst lo hi).srcBase = s.srcBase := rfl
@[simp] theorem Block.scratchDst_srcLen (s : Block P) (lo hi : Nat) :
    (s.scratchDst lo hi).srcLen = s.srcLen := rfl
@[simp] theorem Block.scratchDst_dstBase (s : Block P) (lo hi : Nat) :
    (s.scratchDst lo hi).dstBase = s.dstBase := rfl
@[simp] theorem Block.scratchDst_dstLen (s : Block P) (lo hi : Nat) :
    (s.scratchDst lo hi).dstLen = s.dstLen := rfl
@[simp] theorem Block.scratchDst_result (s : Block P) (lo hi : Nat) :
    (s.scratchDst lo hi).result = s.result := rfl
@[simp] theorem Block.scratchDst_status (s : Block P) (lo hi : Nat) :
    (s.scratchDst lo hi).status = s.status := rfl
@[simp] theorem Block.scratchDst_phase (s : Block P) (lo hi : Nat) :
    (s.scratchDst lo hi).phase = s.phase := rfl
@[simp] theorem Block.scratchDst_work (s : Block P) (lo hi : Nat) :
    (s.scratchDst lo hi).work = s.work := rfl
@[simp] theorem Block.scratchDst_tab (s : Block P) (lo hi : Nat) :
    (s.scratchDst lo hi).tab = s.tab := rfl
@[simp] theorem Block.scratchDst_mem (s : Block P) (lo hi : Nat) :
    (s.scratchDst lo hi).mem =
      s.mem.writeBytes (s.dst.base + lo) (freeBytes s.freeCount (min hi s.dst.size - lo)) :=
  rfl
@[simp] theorem Block.scratchDst_windows (s : Block P) (lo hi : Nat) :
    (s.scratchDst lo hi).windows = s.windows := rfl
@[simp] theorem Block.scratchDst_host (s : Block P) (lo hi : Nat) :
    (s.scratchDst lo hi).host = s.host := rfl
@[simp] theorem Block.scratchDst_hostData (s : Block P) (lo hi : Nat) :
    (s.scratchDst lo hi).hostData = s.hostData := rfl
@[simp] theorem Block.scratchDst_freeCount (s : Block P) (lo hi : Nat) :
    (s.scratchDst lo hi).freeCount = s.freeCount + (min hi s.dst.size - lo) := rfl
@[simp] theorem Block.scratchDst_src (s : Block P) (lo hi : Nat) : (s.scratchDst lo hi).src = s.src := rfl
@[simp] theorem Block.scratchDst_dst (s : Block P) (lo hi : Nat) : (s.scratchDst lo hi).dst = s.dst := rfl

/-! ### `takeToken` -/

@[simp] theorem takeToken_srcBase (t : Byte) (s : Block P) :
    (takeToken t s).srcBase = s.srcBase := rfl
@[simp] theorem takeToken_srcLen (t : Byte) (s : Block P) : (takeToken t s).srcLen = s.srcLen := rfl
@[simp] theorem takeToken_dstBase (t : Byte) (s : Block P) :
    (takeToken t s).dstBase = s.dstBase := rfl
@[simp] theorem takeToken_dstLen (t : Byte) (s : Block P) : (takeToken t s).dstLen = s.dstLen := rfl
@[simp] theorem takeToken_result (t : Byte) (s : Block P) : (takeToken t s).result = s.result := rfl
@[simp] theorem takeToken_status (t : Byte) (s : Block P) : (takeToken t s).status = s.status := rfl
@[simp] theorem takeToken_phase (t : Byte) (s : Block P) : (takeToken t s).phase = s.phase := rfl
@[simp] theorem takeToken_work (t : Byte) (s : Block P) :
    (takeToken t s).work = { s.work with token := t, ip := s.work.ip + 1 } := rfl
@[simp] theorem takeToken_tab (t : Byte) (s : Block P) : (takeToken t s).tab = s.tab := rfl
@[simp] theorem takeToken_mem (t : Byte) (s : Block P) : (takeToken t s).mem = s.mem := rfl
@[simp] theorem takeToken_windows (t : Byte) (s : Block P) :
    (takeToken t s).windows = s.windows := rfl
@[simp] theorem takeToken_host (t : Byte) (s : Block P) : (takeToken t s).host = s.host := rfl
@[simp] theorem takeToken_hostData (t : Byte) (s : Block P) :
    (takeToken t s).hostData = s.hostData := rfl
@[simp] theorem takeToken_freeCount (t : Byte) (s : Block P) :
    (takeToken t s).freeCount = s.freeCount := rfl
@[simp] theorem takeToken_src (t : Byte) (s : Block P) : (takeToken t s).src = s.src := rfl
@[simp] theorem takeToken_dst (t : Byte) (s : Block P) : (takeToken t s).dst = s.dst := rfl

/-! ### `setLitLen` -/

@[simp] theorem setLitLen_srcBase (v : Nat) (s : Block P) :
    (setLitLen v s).srcBase = s.srcBase := rfl
@[simp] theorem setLitLen_srcLen (v : Nat) (s : Block P) : (setLitLen v s).srcLen = s.srcLen := rfl
@[simp] theorem setLitLen_dstBase (v : Nat) (s : Block P) :
    (setLitLen v s).dstBase = s.dstBase := rfl
@[simp] theorem setLitLen_dstLen (v : Nat) (s : Block P) : (setLitLen v s).dstLen = s.dstLen := rfl
@[simp] theorem setLitLen_result (v : Nat) (s : Block P) : (setLitLen v s).result = s.result := rfl
@[simp] theorem setLitLen_status (v : Nat) (s : Block P) : (setLitLen v s).status = s.status := rfl
@[simp] theorem setLitLen_phase (v : Nat) (s : Block P) : (setLitLen v s).phase = s.phase := rfl
@[simp] theorem setLitLen_work (v : Nat) (s : Block P) :
    (setLitLen v s).work = { s.work with litLen := v } := rfl
@[simp] theorem setLitLen_tab (v : Nat) (s : Block P) : (setLitLen v s).tab = s.tab := rfl
@[simp] theorem setLitLen_mem (v : Nat) (s : Block P) : (setLitLen v s).mem = s.mem := rfl
@[simp] theorem setLitLen_windows (v : Nat) (s : Block P) :
    (setLitLen v s).windows = s.windows := rfl
@[simp] theorem setLitLen_host (v : Nat) (s : Block P) : (setLitLen v s).host = s.host := rfl
@[simp] theorem setLitLen_hostData (v : Nat) (s : Block P) :
    (setLitLen v s).hostData = s.hostData := rfl
@[simp] theorem setLitLen_freeCount (v : Nat) (s : Block P) :
    (setLitLen v s).freeCount = s.freeCount := rfl
@[simp] theorem setLitLen_src (v : Nat) (s : Block P) : (setLitLen v s).src = s.src := rfl
@[simp] theorem setLitLen_dst (v : Nat) (s : Block P) : (setLitLen v s).dst = s.dst := rfl

/-! ### `setMatchLen` -/

@[simp] theorem setMatchLen_srcBase (v : Nat) (s : Block P) :
    (setMatchLen v s).srcBase = s.srcBase := rfl
@[simp] theorem setMatchLen_srcLen (v : Nat) (s : Block P) :
    (setMatchLen v s).srcLen = s.srcLen := rfl
@[simp] theorem setMatchLen_dstBase (v : Nat) (s : Block P) :
    (setMatchLen v s).dstBase = s.dstBase := rfl
@[simp] theorem setMatchLen_dstLen (v : Nat) (s : Block P) :
    (setMatchLen v s).dstLen = s.dstLen := rfl
@[simp] theorem setMatchLen_result (v : Nat) (s : Block P) :
    (setMatchLen v s).result = s.result := rfl
@[simp] theorem setMatchLen_status (v : Nat) (s : Block P) :
    (setMatchLen v s).status = s.status := rfl
@[simp] theorem setMatchLen_phase (v : Nat) (s : Block P) : (setMatchLen v s).phase = s.phase := rfl
@[simp] theorem setMatchLen_work (v : Nat) (s : Block P) :
    (setMatchLen v s).work = { s.work with matchLen := v + Config.minMatch } := rfl
@[simp] theorem setMatchLen_tab (v : Nat) (s : Block P) : (setMatchLen v s).tab = s.tab := rfl
@[simp] theorem setMatchLen_mem (v : Nat) (s : Block P) : (setMatchLen v s).mem = s.mem := rfl
@[simp] theorem setMatchLen_windows (v : Nat) (s : Block P) :
    (setMatchLen v s).windows = s.windows := rfl
@[simp] theorem setMatchLen_host (v : Nat) (s : Block P) : (setMatchLen v s).host = s.host := rfl
@[simp] theorem setMatchLen_hostData (v : Nat) (s : Block P) :
    (setMatchLen v s).hostData = s.hostData := rfl
@[simp] theorem setMatchLen_freeCount (v : Nat) (s : Block P) :
    (setMatchLen v s).freeCount = s.freeCount := rfl
@[simp] theorem setMatchLen_src (v : Nat) (s : Block P) : (setMatchLen v s).src = s.src := rfl
@[simp] theorem setMatchLen_dst (v : Nat) (s : Block P) : (setMatchLen v s).dst = s.dst := rfl

/-! ### `advance` -/

@[simp] theorem advance_srcBase (k : Nat) (s : Block P) : (advance k s).srcBase = s.srcBase := rfl
@[simp] theorem advance_srcLen (k : Nat) (s : Block P) : (advance k s).srcLen = s.srcLen := rfl
@[simp] theorem advance_dstBase (k : Nat) (s : Block P) : (advance k s).dstBase = s.dstBase := rfl
@[simp] theorem advance_dstLen (k : Nat) (s : Block P) : (advance k s).dstLen = s.dstLen := rfl
@[simp] theorem advance_result (k : Nat) (s : Block P) : (advance k s).result = s.result := rfl
@[simp] theorem advance_status (k : Nat) (s : Block P) : (advance k s).status = s.status := rfl
@[simp] theorem advance_phase (k : Nat) (s : Block P) : (advance k s).phase = s.phase := rfl
@[simp] theorem advance_work (k : Nat) (s : Block P) :
    (advance k s).work = { s.work with ip := s.work.ip + k } := rfl
@[simp] theorem advance_tab (k : Nat) (s : Block P) : (advance k s).tab = s.tab := rfl
@[simp] theorem advance_mem (k : Nat) (s : Block P) : (advance k s).mem = s.mem := rfl
@[simp] theorem advance_windows (k : Nat) (s : Block P) : (advance k s).windows = s.windows := rfl
@[simp] theorem advance_host (k : Nat) (s : Block P) : (advance k s).host = s.host := rfl
@[simp] theorem advance_hostData (k : Nat) (s : Block P) :
    (advance k s).hostData = s.hostData := rfl
@[simp] theorem advance_freeCount (k : Nat) (s : Block P) :
    (advance k s).freeCount = s.freeCount := rfl
@[simp] theorem advance_src (k : Nat) (s : Block P) : (advance k s).src = s.src := rfl
@[simp] theorem advance_dst (k : Nat) (s : Block P) : (advance k s).dst = s.dst := rfl

/-! ### `advanceOut` -/

@[simp] theorem advanceOut_srcBase (k : Nat) (s : Block P) :
    (advanceOut k s).srcBase = s.srcBase := rfl
@[simp] theorem advanceOut_srcLen (k : Nat) (s : Block P) :
    (advanceOut k s).srcLen = s.srcLen := rfl
@[simp] theorem advanceOut_dstBase (k : Nat) (s : Block P) :
    (advanceOut k s).dstBase = s.dstBase := rfl
@[simp] theorem advanceOut_dstLen (k : Nat) (s : Block P) :
    (advanceOut k s).dstLen = s.dstLen := rfl
@[simp] theorem advanceOut_result (k : Nat) (s : Block P) :
    (advanceOut k s).result = s.result := rfl
@[simp] theorem advanceOut_status (k : Nat) (s : Block P) :
    (advanceOut k s).status = s.status := rfl
@[simp] theorem advanceOut_phase (k : Nat) (s : Block P) : (advanceOut k s).phase = s.phase := rfl
@[simp] theorem advanceOut_work (k : Nat) (s : Block P) :
    (advanceOut k s).work = { s.work with op := s.work.op + k } := rfl
@[simp] theorem advanceOut_tab (k : Nat) (s : Block P) : (advanceOut k s).tab = s.tab := rfl
@[simp] theorem advanceOut_mem (k : Nat) (s : Block P) : (advanceOut k s).mem = s.mem := rfl
@[simp] theorem advanceOut_windows (k : Nat) (s : Block P) :
    (advanceOut k s).windows = s.windows := rfl
@[simp] theorem advanceOut_host (k : Nat) (s : Block P) : (advanceOut k s).host = s.host := rfl
@[simp] theorem advanceOut_hostData (k : Nat) (s : Block P) :
    (advanceOut k s).hostData = s.hostData := rfl
@[simp] theorem advanceOut_freeCount (k : Nat) (s : Block P) :
    (advanceOut k s).freeCount = s.freeCount := rfl
@[simp] theorem advanceOut_src (k : Nat) (s : Block P) : (advanceOut k s).src = s.src := rfl
@[simp] theorem advanceOut_dst (k : Nat) (s : Block P) : (advanceOut k s).dst = s.dst := rfl

/-! ### `Block.startDecoder` -/

@[simp] theorem Block.startDecoder_srcBase (s : Block P) (p : Phase) :
    (s.startDecoder p).srcBase = s.srcBase := rfl
@[simp] theorem Block.startDecoder_srcLen (s : Block P) (p : Phase) :
    (s.startDecoder p).srcLen = s.srcLen := rfl
@[simp] theorem Block.startDecoder_dstBase (s : Block P) (p : Phase) :
    (s.startDecoder p).dstBase = s.dstBase := rfl
@[simp] theorem Block.startDecoder_dstLen (s : Block P) (p : Phase) :
    (s.startDecoder p).dstLen = s.dstLen := rfl
@[simp] theorem Block.startDecoder_result (s : Block P) (p : Phase) :
    (s.startDecoder p).result = s.result := rfl
@[simp] theorem Block.startDecoder_status (s : Block P) (p : Phase) :
    (s.startDecoder p).status = s.status := rfl
@[simp] theorem Block.startDecoder_phase (s : Block P) (p : Phase) :
    (s.startDecoder p).phase = p := rfl
@[simp] theorem Block.startDecoder_work (s : Block P) (p : Phase) :
    (s.startDecoder p).work =
      { s.work with ip := 0, op := 0, ilim := s.srcLen.toNat, oend := s.dstLen.toNat } :=
  rfl
@[simp] theorem Block.startDecoder_tab (s : Block P) (p : Phase) :
    (s.startDecoder p).tab = s.tab := rfl
@[simp] theorem Block.startDecoder_mem (s : Block P) (p : Phase) :
    (s.startDecoder p).mem = s.mem := rfl
@[simp] theorem Block.startDecoder_windows (s : Block P) (p : Phase) :
    (s.startDecoder p).windows = s.windows := rfl
@[simp] theorem Block.startDecoder_host (s : Block P) (p : Phase) :
    (s.startDecoder p).host = s.host := rfl
@[simp] theorem Block.startDecoder_hostData (s : Block P) (p : Phase) :
    (s.startDecoder p).hostData = s.hostData := rfl
@[simp] theorem Block.startDecoder_freeCount (s : Block P) (p : Phase) :
    (s.startDecoder p).freeCount = s.freeCount := rfl
@[simp] theorem Block.startDecoder_src (s : Block P) (p : Phase) : (s.startDecoder p).src = s.src := rfl
@[simp] theorem Block.startDecoder_dst (s : Block P) (p : Phase) : (s.startDecoder p).dst = s.dst := rfl

end Sys2Proof.Machine
end

