-- ==== Sys2Proof/Laws/Flow.lean ====
section
/-! SUPPORT. What each step of a sequence can do, said once: one lemma for each way a step can end.
Proofs about sequences cite these and unfold no step. -/

namespace Sys2Proof.Machine

variable {P : Config.Params}

/-! ## One step after another -/

@[simp] theorem Flow.go_andThen (s : Block P) (k : Block P → Flow P) : (Flow.go s).andThen k = k s := rfl

@[simp] theorem Flow.raised_andThen (c : Cause) (s : Block P) (k : Block P → Flow P) :
    (Flow.raised c s).andThen k = .raised c s := rfl

@[simp] theorem Flow.fault_andThen (f : Fault) (k : Block P → Flow P) :
    (Flow.fault f).andThen k = .fault f := rfl

/-- Two steps go on when both do. -/
theorem Flow.andThen_eq_go {f : Flow P} {k : Block P → Flow P} {t : Block P} :
    f.andThen k = .go t ↔ ∃ s, f = .go s ∧ k s = .go t := by
  cases f <;> simp

/-- Two steps raise when the first does, or the second does after the first went on. -/
theorem Flow.andThen_eq_raised {f : Flow P} {k : Block P → Flow P} {c : Cause} {t : Block P} :
    f.andThen k = .raised c t ↔ f = .raised c t ∨ ∃ s, f = .go s ∧ k s = .raised c t := by
  cases f <;> simp

/-- Two steps fault when the first does, or the second does after the first went on. -/
theorem Flow.andThen_eq_fault {f : Flow P} {k : Block P → Flow P} {r : Fault} :
    f.andThen k = .fault r ↔ f = .fault r ∨ ∃ s, f = .go s ∧ k s = .fault r := by
  cases f <;> simp

/-- A sequence's steps give a next state when they go on, or when they end the command. -/
theorem Flow.outcome_eq_next {f : Flow P} {t : Block P} :
    f.outcome = .next ⟨P, t⟩ ↔ f = .go t ∨ ∃ c s, f = .raised c s ∧ t = s.decodeRaise c := by
  cases f <;> simp [Flow.outcome, eq_comm]

/-- A terminal sequence's steps give a next state by either end of the command. -/
theorem Flow.terminal_eq_next {f : Flow P} {t : Block P} :
    f.terminal = .next ⟨P, t⟩ ↔
      (∃ s, f = .go s ∧ t = s.decodeFinish) ∨ ∃ c s, f = .raised c s ∧ t = s.decodeRaise c := by
  cases f <;> simp [Flow.terminal, eq_comm]

/-! ## DEC_EXT -/

theorem decExt_go {set : Nat → Block P → Block P} {s t : Block P} :
    decExt set s = .go t ↔
      ∃ v k, extSum s.unread = some (v, k) ∧ t = set (Config.nibbleMax + v) (advance k s) := by
  unfold decExt
  rcases extSum s.unread with _ | ⟨v, k⟩
  · by_cases h : s.unread.length = s.work.ilim - s.work.ip <;> simp [h]
  · simp [eq_comm]

theorem decExt_raised {set : Nat → Block P → Block P} {s t : Block P} {c : Cause} :
    decExt set s = .raised c t ↔
      extSum s.unread = none ∧ s.unread.length = s.work.ilim - s.work.ip ∧ c = .sourceExhausted ∧
        t = advance s.unread.length s := by
  unfold decExt
  rcases extSum s.unread with _ | ⟨v, k⟩
  · by_cases h : s.unread.length = s.work.ilim - s.work.ip <;> simp [h, eq_comm]
  · simp

theorem decExt_fault {set : Nat → Block P → Block P} {s : Block P} {f : Fault} :
    decExt set s = .fault f ↔
      extSum s.unread = none ∧ s.unread.length ≠ s.work.ilim - s.work.ip ∧
        f = s.srcFault (s.work.ip + s.unread.length + 1) := by
  unfold decExt
  rcases extSum s.unread with _ | ⟨v, k⟩
  · by_cases h : s.unread.length = s.work.ilim - s.work.ip <;> simp [h, eq_comm]
  · simp

/-! ## READ_OFFSET -/

theorem readOffset_go {s t : Block P} :
    readOffset s = .go t ↔
      ∃ v, s.work.ip + Config.offsetBytes ≤ s.work.ilim ∧
        s.srcLE Config.offsetBytes s.work.ip = some v ∧ v ≤ s.work.op ∧
        t = advance Config.offsetBytes { s with work := { s.work with offset := v } } := by
  unfold readOffset
  by_cases h : s.work.ilim < s.work.ip + Config.offsetBytes
  · simp [h, Nat.not_le.2 h]
  · rw [if_neg h]
    rcases s.srcLE Config.offsetBytes s.work.ip with _ | v
    · simp
    · by_cases hv : s.work.op < v
      · simp [hv, Nat.not_le.2 hv]
      · simp [hv, Nat.not_lt.1 h, Nat.not_lt.1 hv, eq_comm]

theorem readOffset_raised {s t : Block P} {c : Cause} :
    readOffset s = .raised c t ↔
      (s.work.ilim < s.work.ip + Config.offsetBytes ∧ c = .sourceExhausted ∧ t = s) ∨
        ∃ v, s.work.ip + Config.offsetBytes ≤ s.work.ilim ∧
          s.srcLE Config.offsetBytes s.work.ip = some v ∧ s.work.op < v ∧
          c = .backReferenceUnderflow ∧
          t = advance Config.offsetBytes { s with work := { s.work with offset := v } } := by
  unfold readOffset
  by_cases h : s.work.ilim < s.work.ip + Config.offsetBytes
  · simp [h, Nat.not_le.2 h, eq_comm]
  · rw [if_neg h]
    rcases s.srcLE Config.offsetBytes s.work.ip with _ | v
    · simp [h]
    · by_cases hv : s.work.op < v
      · simp [hv, h, Nat.not_lt.1 h, eq_comm]
      · simp [hv, h]

theorem readOffset_fault {s : Block P} {f : Fault} :
    readOffset s = .fault f ↔
      s.work.ip + Config.offsetBytes ≤ s.work.ilim ∧
        s.srcLE Config.offsetBytes s.work.ip = none ∧
        f = s.srcFault (s.work.ip + Config.offsetBytes) := by
  unfold readOffset
  by_cases h : s.work.ilim < s.work.ip + Config.offsetBytes
  · simp [h, Nat.not_le.2 h]
  · rw [if_neg h]
    rcases s.srcLE Config.offsetBytes s.work.ip with _ | v
    · simp [Nat.not_lt.1 h, eq_comm]
    · by_cases hv : s.work.op < v <;> simp [hv]

/-! ## The literal copy -/

theorem copyLiterals_go {s t : Block P} :
    copyLiterals s = .go t ↔
      ∃ m, s.work.op + s.work.litLen ≤ s.work.oend ∧ s.work.ip + s.work.litLen ≤ s.work.ilim ∧
        s.roomInSrc s.work.litLen = true ∧ s.roomInDst s.work.litLen = true ∧
        s.mem.copy s.work.litLen (s.src.base + s.work.ip) (s.dst.base + s.work.op) = some m ∧
        t = { s with
          mem := m
          work := { s.work with op := s.work.op + s.work.litLen, ip := s.work.ip + s.work.litLen } } := by
  unfold copyLiterals
  by_cases h1 : s.work.oend < s.work.op + s.work.litLen
  · simp [h1, Nat.not_le.2 h1]
  by_cases h2 : s.work.ilim < s.work.ip + s.work.litLen
  · simp [h1, h2, Nat.not_le.2 h2]
  rw [if_neg h1, if_neg h2]
  cases h3 : s.roomInSrc s.work.litLen
  · simp
  cases h4 : s.roomInDst s.work.litLen
  · simp
  rcases s.mem.copy s.work.litLen (s.src.base + s.work.ip) (s.dst.base + s.work.op) with _ | m
  · simp
  · simp [Nat.not_lt.1 h1, Nat.not_lt.1 h2, eq_comm]

theorem copyLiterals_raised {s t : Block P} {c : Cause} :
    copyLiterals s = .raised c t ↔
      t = s ∧
        ((s.work.oend < s.work.op + s.work.litLen ∧ c = .outputOverflow) ∨
          (s.work.op + s.work.litLen ≤ s.work.oend ∧ s.work.ilim < s.work.ip + s.work.litLen ∧
            c = .sourceExhausted)) := by
  unfold copyLiterals
  by_cases h1 : s.work.oend < s.work.op + s.work.litLen
  · simp [h1, Nat.not_le.2 h1, eq_comm, and_comm]
  by_cases h2 : s.work.ilim < s.work.ip + s.work.litLen
  · simp [h1, h2, Nat.not_lt.1 h1, eq_comm, and_comm]
  rw [if_neg h1, if_neg h2]
  cases s.roomInSrc s.work.litLen
  · simp [h1, h2]
  cases s.roomInDst s.work.litLen
  · simp [h1, h2]
  rcases s.mem.copy s.work.litLen (s.src.base + s.work.ip) (s.dst.base + s.work.op) with _ | m
  · simp [h1, h2]
  · simp [h1, h2]

theorem copyLiterals_fault {s : Block P} {f : Fault} :
    copyLiterals s = .fault f ↔
      s.work.op + s.work.litLen ≤ s.work.oend ∧ s.work.ip + s.work.litLen ≤ s.work.ilim ∧
        ((s.roomInSrc s.work.litLen = false ∧ f = .srcOutsideExtent) ∨
          (s.roomInSrc s.work.litLen = true ∧ s.roomInDst s.work.litLen = false ∧
            f = .dstOutsideExtent) ∨
          (s.roomInSrc s.work.litLen = true ∧ s.roomInDst s.work.litLen = true ∧
            s.mem.copy s.work.litLen (s.src.base + s.work.ip) (s.dst.base + s.work.op) = none ∧
            f = .unwrittenByte)) := by
  unfold copyLiterals
  by_cases h1 : s.work.oend < s.work.op + s.work.litLen
  · simp [h1, Nat.not_le.2 h1]
  by_cases h2 : s.work.ilim < s.work.ip + s.work.litLen
  · simp [h1, h2, Nat.not_le.2 h2]
  rw [if_neg h1, if_neg h2]
  cases h3 : s.roomInSrc s.work.litLen
  · simp [Nat.not_lt.1 h1, Nat.not_lt.1 h2, @eq_comm _ f]
  cases h4 : s.roomInDst s.work.litLen
  · simp [Nat.not_lt.1 h1, Nat.not_lt.1 h2, @eq_comm _ f]
  rcases s.mem.copy s.work.litLen (s.src.base + s.work.ip) (s.dst.base + s.work.op) with _ | m
  · simp [Nat.not_lt.1 h1, Nat.not_lt.1 h2, @eq_comm _ f]
  · simp

/-! ## The match copy -/

theorem copyMatch_go {s t : Block P} :
    copyMatch s = .go t ↔
      s.work.op + s.work.matchLen ≤ s.work.oend ∧ s.roomInDst s.work.matchLen = true ∧
        ((s.work.offset = 0 ∧
            t = advanceOut s.work.matchLen (s.freeDst s.work.op s.work.matchLen)) ∨
          (s.work.offset ≠ 0 ∧
            ∃ m, s.mem.copy s.work.matchLen (s.dst.base + (s.work.op - s.work.offset))
                (s.dst.base + s.work.op) = some m ∧
              t = advanceOut s.work.matchLen { s with mem := m })) := by
  unfold copyMatch
  by_cases h1 : s.work.oend < s.work.op + s.work.matchLen
  · simp [h1, Nat.not_le.2 h1]
  rw [if_neg h1]
  cases h2 : s.roomInDst s.work.matchLen
  · simp
  by_cases h3 : s.work.offset = 0
  · simp [h3, Nat.not_lt.1 h1, eq_comm]
  rcases h : s.mem.copy s.work.matchLen (s.dst.base + (s.work.op - s.work.offset))
      (s.dst.base + s.work.op) with _ | m
  · simp [h3]
  · simp [h3, Nat.not_lt.1 h1, eq_comm]

theorem copyMatch_raised {s t : Block P} {c : Cause} :
    copyMatch s = .raised c t ↔
      s.work.oend < s.work.op + s.work.matchLen ∧ c = .outputOverflow ∧ t = s := by
  unfold copyMatch
  by_cases h1 : s.work.oend < s.work.op + s.work.matchLen
  · simp [h1, eq_comm]
  rw [if_neg h1]
  cases s.roomInDst s.work.matchLen
  · simp [h1]
  by_cases h3 : s.work.offset = 0
  · simp [h3, h1]
  rcases s.mem.copy s.work.matchLen (s.dst.base + (s.work.op - s.work.offset))
      (s.dst.base + s.work.op) with _ | m
  · simp [h3, h1]
  · simp [h3, h1]

theorem copyMatch_fault {s : Block P} {f : Fault} :
    copyMatch s = .fault f ↔
      s.work.op + s.work.matchLen ≤ s.work.oend ∧
        ((s.roomInDst s.work.matchLen = false ∧ f = .dstOutsideExtent) ∨
          (s.roomInDst s.work.matchLen = true ∧ s.work.offset ≠ 0 ∧
            s.mem.copy s.work.matchLen (s.dst.base + (s.work.op - s.work.offset))
              (s.dst.base + s.work.op) = none ∧
            f = .unwrittenByte)) := by
  unfold copyMatch
  by_cases h1 : s.work.oend < s.work.op + s.work.matchLen
  · simp [h1, Nat.not_le.2 h1]
  rw [if_neg h1]
  cases h2 : s.roomInDst s.work.matchLen
  · simp [Nat.not_lt.1 h1, @eq_comm _ f]
  by_cases h3 : s.work.offset = 0
  · simp [h3]
  rcases s.mem.copy s.work.matchLen (s.dst.base + (s.work.op - s.work.offset))
      (s.dst.base + s.work.op) with _ | m
  · simp [h3, Nat.not_lt.1 h1, @eq_comm _ f]
  · simp [h3]

end Sys2Proof.Machine
end

