-- ==== Sys2Proof/Laws/PerInstr.lean ====
section
/-! SUPPORT. A statement about every instruction, one lemma per constructor: the encoding of a
well-formed instruction agrees with the mask and the match of its row of `spec/opcode_table.json`, and
with the row's constraint. -/

namespace Sys2Proof.Laws

/-- Width, mask and match of an instruction's row of `spec/opcode_table.json`. -/
def tableRow : Instr → Nat × Nat × Nat
  | .compress => (32, 0xFFFFFFFF, 0x00000001)
  | .decompressFixed => (32, 0xFFFFFFFF, 0x00000002)
  | .decompressUnknown => (32, 0xFFFFFFFF, 0x00000003)
  | .seqSS _ _ => (8, 0x00, 0x00)
  | .seqXS _ => (8, 0xF0, 0xF0)
  | .seqSX _ => (8, 0x0F, 0x0F)
  | .seqXX => (8, 0xFF, 0xFF)
  | .lastS _ _ => (8, 0x00, 0x00)
  | .lastX _ => (8, 0xF0, 0xF0)

/-- Width and value of a code. -/
def codeBits : Code → Nat × Nat
  | .command w => (32, w.toNat)
  | .controlByte t => (8, t.toNat)

/-- The encoding of `i` has the width of its row and its fixed bits. -/
def EncodeMatchesTable.Statement (i : Instr) : Prop :=
  (codeBits (encode i)).1 = (tableRow i).1 ∧
    (codeBits (encode i)).2 &&& (tableRow i).2.1 = (tableRow i).2.2

theorem EncodeMatchesTable.compress : EncodeMatchesTable.Statement .compress := by
  unfold EncodeMatchesTable.Statement; decide

theorem EncodeMatchesTable.decompressFixed :
    EncodeMatchesTable.Statement .decompressFixed := by
  unfold EncodeMatchesTable.Statement; decide

theorem EncodeMatchesTable.decompressUnknown :
    EncodeMatchesTable.Statement .decompressUnknown := by
  unfold EncodeMatchesTable.Statement; decide

theorem EncodeMatchesTable.seqSS (ll ml : BitVec 4) :
    EncodeMatchesTable.Statement (.seqSS ll ml) := by
  unfold EncodeMatchesTable.Statement; revert ll ml; decide

theorem EncodeMatchesTable.seqXS (ml : BitVec 4) : EncodeMatchesTable.Statement (.seqXS ml) := by
  unfold EncodeMatchesTable.Statement; revert ml; decide

theorem EncodeMatchesTable.seqSX (ll : BitVec 4) : EncodeMatchesTable.Statement (.seqSX ll) := by
  unfold EncodeMatchesTable.Statement; revert ll; decide

theorem EncodeMatchesTable.seqXX : EncodeMatchesTable.Statement .seqXX := by
  unfold EncodeMatchesTable.Statement; decide

theorem EncodeMatchesTable.lastS (ll x : BitVec 4) :
    EncodeMatchesTable.Statement (.lastS ll x) := by
  unfold EncodeMatchesTable.Statement; revert ll x; decide

theorem EncodeMatchesTable.lastX (x : BitVec 4) : EncodeMatchesTable.Statement (.lastX x) := by
  unfold EncodeMatchesTable.Statement; revert x; decide

end Sys2Proof.Laws
end

