-- ==== Sys2Proof/Laws/Source.lean ====
section
/-! SUPPORT. Laws of the windows: what SRC and DST read as under changes of the store, and what the
bytes read ahead from the stream are. -/

namespace Sys2Proof.Machine

variable {P : Config.Params}

/-! ## Handles -/

/-- With ADDR_W at least the register's width every bit of a handle counts. -/
theorem significant_of_le (handle : Word P.xlen) (h : P.xlen ≤ P.addrW) :
    significant P handle = handle.toNat :=
  Nat.mod_eq_of_lt (Nat.lt_of_lt_of_le handle.isLt (Nat.pow_le_pow_right (by decide) h))

/-- No buffer is behind the null handle (`20_memory.md` R75). -/
theorem Block.window_null (s : Block P) : s.window 0 = ⟨0, 0, 0⟩ := by
  simp [Block.window, significant]

/-- Handles that agree in their significant bits select buffers of one base and size. -/
theorem Block.window_congr {s : Block P} {a b : Word P.xlen} (h : significant P a = significant P b) :
    (s.window a).base = (s.window b).base ∧ (s.window a).size = (s.window b).size := by
  unfold Block.window
  rw [h]
  split
  · exact ⟨rfl, rfl⟩
  · cases s.windows.find? fun w => significant P w.handle == significant P b <;> simp

/-! ## Bytes of the windows -/

theorem Block.srcByte_eq_some {s : Block P} {i : Nat} {b : Byte} :
    s.srcByte i = some b ↔ i < s.src.size ∧ s.mem.read (s.src.base + i) = some b := by
  unfold Block.srcByte
  by_cases h : i < s.src.size <;> simp [h]

theorem Block.dstByte_eq_some {s : Block P} {i : Nat} {b : Byte} :
    s.dstByte i = some b ↔ i < s.dst.size ∧ s.mem.read (s.dst.base + i) = some b := by
  unfold Block.dstByte
  by_cases h : i < s.dst.size <;> simp [h]

/-- A readable byte of SRC is mapped. -/
theorem Block.lt_size_of_srcByte {s : Block P} {i : Nat} (h : (s.srcByte i).isSome) :
    i < s.src.size := by
  obtain ⟨b, hb⟩ := Option.isSome_iff_exists.1 h
  exact (srcByte_eq_some.1 hb).1

/-- SRC reads the same in two states with the same window and the same store at the byte. -/
theorem Block.srcByte_congr {s t : Block P} {i : Nat} (hw : t.src = s.src)
    (hm : t.mem.read (s.src.base + i) = s.mem.read (s.src.base + i)) :
    t.srcByte i = s.srcByte i := by
  unfold Block.srcByte
  rw [hw, hm]

/-- DST reads the same in two states with the same window and the same store at the byte. -/
theorem Block.dstByte_congr {s t : Block P} {i : Nat} (hw : t.dst = s.dst)
    (hm : t.mem.read (s.dst.base + i) = s.mem.read (s.dst.base + i)) :
    t.dstByte i = s.dstByte i := by
  unfold Block.dstByte
  rw [hw, hm]

/-- Buffers that lie one behind the other are disjoint. -/
theorem Block.disjoint_of_le {s : Block P} (n m : Nat)
    (h : s.src.base + s.src.size ≤ s.dst.base ∨ s.dst.base + s.dst.size ≤ s.src.base) :
    s.disjoint n m := by
  intro i _ j _ hi hj
  omega

/-- The model's test for an overlap is the premise's negation (log 17). -/
theorem Block.overlap_eq_false {s : Block P} {n m : Nat} :
    s.overlap n m = false ↔ s.disjoint n m := by
  unfold Block.overlap rangesMeet
  rw [decide_eq_false_iff_not, Nat.not_lt]
  constructor
  · intro h i hi j hj hi' hj'
    omega
  · intro h
    by_contra hc
    have h1 : s.src.base + (max s.src.base s.dst.base - s.src.base) = max s.src.base s.dst.base := by
      omega
    have h2 : s.dst.base + (max s.src.base s.dst.base - s.dst.base) = max s.src.base s.dst.base := by
      omega
    exact h (max s.src.base s.dst.base - s.src.base) (by omega)
      (max s.src.base s.dst.base - s.dst.base) (by omega) (by omega) (by omega) (by omega)

/-! ## Bytes read ahead -/

theorem Block.srcBytes_length_le (s : Block P) (k i : Nat) : (s.srcBytes k i).length ≤ k := by
  induction k generalizing i with
  | zero => simp [Block.srcBytes]
  | succ k ih =>
    rw [Block.srcBytes]
    cases s.srcByte i with
    | none => simp
    | some b => simpa using ih (i + 1)

/-- The bytes read ahead are the bytes of SRC. -/
theorem Block.srcBytes_getElem? (s : Block P) (k i j : Nat) (h : j < (s.srcBytes k i).length) :
    (s.srcBytes k i)[j]? = s.srcByte (i + j) := by
  induction k generalizing i j with
  | zero => simp [Block.srcBytes] at h
  | succ k ih =>
    rw [Block.srcBytes] at h ⊢
    cases hb : s.srcByte i with
    | none => simp [hb] at h
    | some b =>
      cases j with
      | zero => simp [hb]
      | succ j =>
        rw [hb] at h
        have h' : j < (s.srcBytes k (i + 1)).length := by simpa using h
        simp only [List.getElem?_cons_succ, ih (i + 1) j h']
        congr 1
        omega

/-- All `k` bytes are read ahead exactly when all of them can be read. -/
theorem Block.srcBytes_length_eq {s : Block P} {k i : Nat} :
    (s.srcBytes k i).length = k ↔ ∀ j, j < k → (s.srcByte (i + j)).isSome := by
  induction k generalizing i with
  | zero => simp [Block.srcBytes]
  | succ k ih =>
    rw [Block.srcBytes]
    cases hb : s.srcByte i with
    | none =>
      constructor
      · intro h; simp at h
      · intro h
        have := h 0 (by omega)
        simp [hb] at this
    | some b =>
      rw [List.length_cons, Nat.add_right_cancel_iff, ih]
      constructor
      · intro h j hj
        cases j with
        | zero => simp [hb]
        | succ j =>
          have := h j (by omega)
          rwa [show i + (j + 1) = i + 1 + j by omega]
      · intro h j hj
        have := h (j + 1) (by omega)
        rwa [show i + (j + 1) = i + 1 + j by omega] at this

/-- Reading further ahead first reads what reading less far does, when all of that is there. -/
theorem Block.srcBytes_add {s : Block P} {k l i : Nat} (h : (s.srcBytes k i).length = k) :
    s.srcBytes (k + l) i = s.srcBytes k i ++ s.srcBytes l (i + k) := by
  induction k generalizing i with
  | zero => simp [Block.srcBytes]
  | succ k ih =>
    rw [show k + 1 + l = (k + l) + 1 by omega, Block.srcBytes, Block.srcBytes]
    rw [Block.srcBytes] at h
    cases hb : s.srcByte i with
    | none => simp [hb] at h
    | some b =>
      rw [hb] at h
      have h' : (s.srcBytes k (i + 1)).length = k := by simpa using h
      simp only [ih h', List.cons_append]
      rw [show i + 1 + k = i + (k + 1) by omega]

/-- The bytes read ahead depend on SRC's bytes in their range only. -/
theorem Block.srcBytes_congr {s t : Block P} {k i : Nat}
    (h : ∀ j, j < k → t.srcByte (i + j) = s.srcByte (i + j)) : t.srcBytes k i = s.srcBytes k i := by
  induction k generalizing i with
  | zero => simp [Block.srcBytes]
  | succ k ih =>
    have h0 := h 0 (by omega)
    rw [Nat.add_zero] at h0
    rw [Block.srcBytes, Block.srcBytes, h0, ih]
    intro j hj
    have := h (j + 1) (by omega)
    rwa [show i + (j + 1) = i + 1 + j by omega] at this

/-- What the stream holds at the cursor is at the front of what is read ahead. -/
theorem Block.unread_of_streamHas {s : Block P} {bs : List Byte} (h : s.streamHas bs) :
    ∃ rest, s.unread = bs ++ rest ∧
      rest = s.srcBytes (s.work.ilim - s.work.ip - bs.length) (s.work.ip + bs.length) := by
  obtain ⟨h1, h2⟩ := h
  refine ⟨_, ?_, rfl⟩
  unfold Block.unread
  rw [show s.work.ilim - s.work.ip = bs.length + (s.work.ilim - s.work.ip - bs.length) by omega,
    Block.srcBytes_add (by rw [h1]), h1]
  congr 2
  omega

/-! ## Little-endian reads -/

/-- `MemRead` of the two bytes of an offset. -/
theorem Memory.readLE_two {m : Memory} {a : Nat} {lo hi : Byte} (h0 : m.read a = some lo)
    (h1 : m.read (a + 1) = some hi) : Memory.readLE 2 m a = some (lo.toNat + 256 * hi.toNat) := by
  simp [Memory.readLE, h0, h1]

end Sys2Proof.Machine
end

