-- ==== Sys2Proof/Laws/Step.lean ====
section
/-! SUPPORT. What a step of the machine can be, said once. -/

namespace Sys2Proof.Machine

variable {P : Config.Params}

/-- A step of a state is the step of its block. -/
@[simp] theorem step_mk (s : Block P) : step ⟨P, s⟩ = s.step := rfl

/-- Of two states with the same parameters only the blocks can differ. -/
@[simp] theorem next_mk_inj {s t : Block P} :
    (.next ⟨P, s⟩ : Host.Outcome State Fault Refusal) = .next ⟨P, t⟩ ↔ s = t := by simp

/-- A step of an idle block. -/
theorem Block.step_idle {s : Block P} (h : s.phase = .idle) : s.step = idleStep s := by
  unfold Block.step
  rw [h]

/-- A step of a running decoder. -/
theorem Block.step_running {s : Block P} (h : s.phase ≠ .idle) : s.step = decoderStep s := by
  unfold Block.step
  cases hp : s.phase with
  | idle => exact absurd hp h
  | fixed => rfl
  | unknown => rfl

/-- What an idle block does: nothing, or the oldest host action. -/
theorem idleStep_next {s t : Block P} :
    idleStep s = .next ⟨P, t⟩ ↔
      (s.host = [] ∧ t = s) ∨
        ∃ a rest, s.host = a :: rest ∧ hostAct a { s with host := rest } = .next ⟨P, t⟩ := by
  unfold idleStep
  cases s.host with
  | nil => simp [eq_comm]
  | cons a rest => simp

/-- What a running decoder does: it ends at the top of its loop, or runs the next sequence. -/
theorem decoderStep_next {s t : Block P} :
    decoderStep s = .next ⟨P, t⟩ ↔
      s.fetch = .ended t ∨ ∃ i, s.fetch = .sequence i ∧ exec i ⟨P, s⟩ = .next ⟨P, t⟩ := by
  unfold decoderStep
  cases s.fetch <;> simp

/-- What a COMPRESS that gives a next state does: it refuses its arguments, or leaves what the encoder
comes to. -/
theorem Block.compress_next {s t : Block P} :
    s.compress = .next ⟨P, t⟩ ↔
      (s.badCompress = true ∧ t = s.raise .invalidArgument 0) ∨
        (s.badCompress = false ∧ s.overlap s.srcLen.toNat (bound s.srcLen.toNat) = false ∧
          s.srcLen.toNat ≤ (s.srcBytes s.srcLen.toNat 0).length ∧
          (encode P s.srcFun s.srcLen.toNat s.work s.tab).2.out.length ≤ s.dst.size ∧
          t = s.compressed (encode P s.srcFun s.srcLen.toNat s.work s.tab).2) := by
  unfold Block.compress
  cases s.badCompress
  · cases s.overlap s.srcLen.toNat (bound s.srcLen.toNat)
    · by_cases h : (s.srcBytes s.srcLen.toNat 0).length < s.srcLen.toNat
      · simp [h, Nat.not_le.2 h]
      · by_cases h' : s.dst.size < (encode P s.srcFun s.srcLen.toNat s.work s.tab).2.out.length
        · simp [h, h', Nat.not_le.2 h']
        · simp [h, h', Nat.not_lt.1 h, Nat.not_lt.1 h', @eq_comm _ t]
    · simp
  · simp [@eq_comm _ t]

/-- What a decoder command that gives a next state does: it refuses its arguments, or starts the
decoder. -/
theorem Block.startDecompress_next {p : Phase} {s t : Block P} :
    s.startDecompress p = .next ⟨P, t⟩ ↔
      (s.badDecompress = true ∧ t = s.raise .invalidArgument 0) ∨
        (s.badDecompress = false ∧ s.overlap s.srcLen.toNat s.dstLen.toNat = false ∧
          t = s.startDecoder p) := by
  unfold Block.startDecompress
  cases s.badDecompress
  · cases s.overlap s.srcLen.toNat s.dstLen.toNat <;> simp [@eq_comm _ t]
  · simp [@eq_comm _ t]

/-- When the top of the decoder's loop ends the command. -/
theorem Block.fetch_ended {s t : Block P} :
    s.fetch = .ended t ↔
      (s.isUnknown = true ∧ s.work.ilim ≤ s.work.ip ∧ t = s.decodeFinish) ∨
        (s.isUnknown = false ∧ s.work.ilim ≤ s.work.ip ∧ t = s.decodeRaise .sourceExhausted) := by
  unfold Block.fetch
  by_cases h : s.work.ilim ≤ s.work.ip
  · cases hu : s.isUnknown
    · simp [h, Nat.lt_succ_of_le h, eq_comm]
    · simp [h, eq_comm]
  · have h' : ¬ s.work.ilim < s.work.ip + 1 := by omega
    simp only [h, h', decide_false, Bool.and_false, Bool.false_eq_true, if_false]
    cases decodeSequence P s.context s.unread <;> simp

/-- When the top of the decoder's loop finds a sequence: there is a control byte to decode. -/
theorem Block.fetch_sequence {s : Block P} {i : Instr} :
    s.fetch = .sequence i ↔
      s.work.ip < s.work.ilim ∧ decodeSequence P s.context s.unread = .ok i := by
  unfold Block.fetch
  by_cases h : s.work.ilim ≤ s.work.ip
  · cases hu : s.isUnknown
    · simp [h, Nat.lt_succ_of_le h, Nat.not_lt.2 h]
    · simp [h, Nat.not_lt.2 h]
  · have h' : ¬ s.work.ilim < s.work.ip + 1 := by omega
    simp only [h, h', decide_false, Bool.and_false, Bool.false_eq_true, if_false,
      Nat.lt_of_not_le h, true_and]
    cases decodeSequence P s.context s.unread <;> simp

/-- A decoder that decodes something decodes the first byte it reads ahead. -/
theorem decodeSequence_ok {P : Config.Params} {c : Context} {bs : List Byte} {i : Instr} :
    decodeSequence P c bs = .ok i ↔
      ∃ t rest, bs = t :: rest ∧ i = sequenceForm (terminalAt P c t rest) t := by
  cases bs with
  | nil => simp [decodeSequence]
  | cons t rest => simp [decodeSequence, eq_comm]

/-- The two ends of a decoder command change the store in DST's bytes from the output cursor up to the
bound only. -/
theorem Block.read_scratchDst (s : Block P) (lo hi a : Nat)
    (h : a < s.dst.base + lo ∨ s.dst.base + hi ≤ a) : (s.scratchDst lo hi).mem.read a = s.mem.read a := by
  rw [Block.scratchDst_mem]
  apply Memory.read_writeBytes_outside
  rw [freeBytes_length]
  omega

/-- Free values keep the canonical form of the store. -/
theorem Block.wf_scratchDst {s : Block P} (lo hi : Nat) (h : s.mem.wf) : (s.scratchDst lo hi).mem.wf := by
  rw [Block.scratchDst_mem]
  exact Memory.wf_writeBytes _ _ h

theorem Block.wf_freeDst {s : Block P} (i k : Nat) (h : s.mem.wf) : (s.freeDst i k).mem.wf := by
  rw [Block.freeDst_mem]
  exact Memory.wf_writeBytes _ _ h

theorem Block.wf_writeDst {s : Block P} (i : Nat) (bs : List Byte) (h : s.mem.wf) :
    (s.writeDst i bs).mem.wf := by
  rw [Block.writeDst_mem]
  exact Memory.wf_writeBytes _ _ h

/-- The store after reset is in canonical form. -/
theorem Block.reset_mem_wf : (Block.reset : Block P).mem.wf := List.Pairwise.nil

/-- The literal copy keeps the canonical form. -/
theorem wf_copyLiterals {s t : Block P} (h : copyLiterals s = .go t) (hm : s.mem.wf) : t.mem.wf := by
  obtain ⟨m, -, -, -, -, hc, rfl⟩ := copyLiterals_go.1 h
  exact Memory.wf_copy hc hm

/-- The match copy keeps the canonical form. -/
theorem wf_copyMatch {s t : Block P} (h : copyMatch s = .go t) (hm : s.mem.wf) : t.mem.wf := by
  obtain ⟨-, -, ⟨-, rfl⟩ | ⟨-, m, hc, rfl⟩⟩ := copyMatch_go.1 h
  · simpa using Block.wf_freeDst _ _ hm
  · exact Memory.wf_copy hc hm

end Sys2Proof.Machine
end

