-- ==== Sys2Proof/Laws/Table.lean ====
section
/-! SUPPORT. Laws of the match table and of the encoder's writes. -/

namespace Sys2Proof.Machine

/-- Reading an entry after a write of an entry. -/
theorem Tab.get_set {t : Tab} (h p x : Nat) (hw : Assoc.wf t) :
    Tab.get (Tab.set t h p) x = if h = x then p else Tab.get t x := by
  unfold Tab.get Tab.set
  by_cases hp : p = 0
  · rw [if_pos hp, Assoc.get_del h x hw]
    by_cases hx : h = x <;> simp [hx, hp]
  · rw [if_neg hp, Assoc.get_put]
    by_cases hx : h = x <;> simp [hx]

/-- A write of an entry keeps the canonical form. -/
theorem Tab.wf_set {t : Tab} (h p : Nat) (hw : Tab.wf t) : Tab.wf (Tab.set t h p) := by
  unfold Tab.set
  by_cases hp : p = 0
  · rw [if_pos hp]
    exact ⟨Assoc.wf_del h hw.1, fun e he => hw.2 e (Assoc.mem_of_mem_del he)⟩
  · rw [if_neg hp]
    refine ⟨Assoc.wf_put h p hw.1, fun e he => ?_⟩
    rcases Assoc.mem_put he with rfl | he
    · exact hp
    · exact hw.2 e he

/-- Every entry listed after a write is the new one or an old one. -/
theorem Tab.mem_set {t : Tab} {h p : Nat} {e : Nat × Nat} (he : e ∈ Tab.set t h p) :
    e = (h, p) ∨ e ∈ t := by
  unfold Tab.set at he
  by_cases hp : p = 0
  · rw [if_pos hp] at he
    exact .inr (Assoc.mem_of_mem_del he)
  · rw [if_neg hp] at he
    exact Assoc.mem_put he

/-! ## The encoder's writes -/

@[simp] theorem Enc.emit_out (e : Enc) (bs : List Byte) : (e.emit bs).out = e.out ++ bs := rfl

@[simp] theorem Enc.emit_tab (e : Enc) (bs : List Byte) : (e.emit bs).tab = e.tab := rfl

@[simp] theorem Enc.emit_w (e : Enc) (bs : List Byte) :
    (e.emit bs).w = { e.w with op := e.w.op + bs.length } := rfl

@[simp] theorem slice_length (src : Nat → Byte) (a k : Nat) : (slice src a k).length = k := by
  induction k generalizing a with
  | zero => rfl
  | succ k ih => simp [slice, ih]

theorem slice_getElem? (src : Nat → Byte) (a k j : Nat) (h : j < k) :
    (slice src a k)[j]? = some (src (a + j)) := by
  induction k generalizing a j with
  | zero => omega
  | succ k ih =>
    cases j with
    | zero => simp [slice]
    | succ j =>
      rw [slice, List.getElem?_cons_succ, ih (a + 1) j (by omega)]
      congr 2
      omega

theorem slice_append (src : Nat → Byte) (a k l : Nat) :
    slice src a (k + l) = slice src a k ++ slice src (a + k) l := by
  induction k generalizing a with
  | zero => simp [slice]
  | succ k ih =>
    rw [show k + 1 + l = (k + l) + 1 by omega, slice, slice, ih, List.cons_append]
    rw [show a + 1 + k = a + (k + 1) by omega]

/-- A slice depends on the source's bytes in its range only. -/
theorem slice_congr {src src' : Nat → Byte} {a k : Nat}
    (h : ∀ j, j < k → src (a + j) = src' (a + j)) : slice src a k = slice src' a k := by
  induction k generalizing a with
  | zero => rfl
  | succ k ih =>
    have h0 := h 0 (by omega)
    rw [Nat.add_zero] at h0
    rw [slice, slice, h0, ih]
    intro j hj
    have := h (j + 1) (by omega)
    rwa [show a + (j + 1) = a + 1 + j by omega] at this

/-! ## The encoder's run -/

/-- A run that is done stays where it is. -/
theorem encRun_done (P : Config.Params) (src : Nat → Byte) (k : Nat) (e : Enc) :
    encRun P src k (.done, e) = (.done, e) := by
  cases k <;> simp [encRun]

/-- One step of a run that is not done. -/
theorem encRun_succ {P : Config.Params} {src : Nat → Byte} {k : Nat} {l : EncLabel} {e : Enc}
    (h : l ≠ .done) : encRun P src (k + 1) (l, e) = encRun P src k (encStep P src l e) := by
  simp [encRun, h]

end Sys2Proof.Machine
end

