-- ==== Sys2Proof/Tests/Slice0.lean ====
section
/-! SUPPORT. Tests on fixed values and the witnesses of the statements' hypotheses. Expected results
come from the spec's examples and tables, named in the comments. -/

namespace Sys2Proof.Tests

open Sys2Proof.Machine

/-! ## Helpers -/

def bytes (l : List Nat) : List Byte := l.map (BitVec.ofNat 8)

/-- An idle block, built with parameters `P`, with SRC holding `src` and DST of `cap` bytes starting with
`dst`. -/
def blockAt (P : Config.Params) (src dst : List Byte) (cap : Nat) : Block P :=
  { Block.reset with
    srcBase := 1
    dstBase := 2
    srcLen := BitVec.ofNat P.xlen src.length
    windows := [⟨1, 0, src.length⟩, ⟨2, 1000, cap⟩]
    mem := (Memory.writeBytes [] 0 src).writeBytes 1000 dst }

/-- The same with the default parameters. -/
abbrev block (src dst : List Byte) (cap : Nat) : Block Config.params :=
  blockAt Config.params src dst cap

/-- A block right after reset, with the default parameters. -/
abbrev idle : Block Config.params := Block.reset

/-- The block with a host action pending. -/
def acting {P : Config.Params} (s : Block P) (a : HostAction P.xlen) : Block P :=
  { s with host := [a] }

/-- A running decoder with the whole of `src` unread and `dst` produced, bound `oend`, in a buffer of
`cap` bytes. -/
def runningAt (P : Config.Params) (p : Phase) (src dst : List Byte) (oend cap : Nat) : Block P :=
  { blockAt P src dst cap with
    phase := p
    dstLen := BitVec.ofNat P.xlen oend
    work := { Work.reset with op := dst.length, ilim := src.length, oend := oend } }

/-- The same with the default parameters. -/
abbrev running (p : Phase) (src dst : List Byte) (oend cap : Nat) : Block Config.params :=
  runningAt Config.params p src dst oend cap

/-- One field of the next state, or `none`. -/
def after {α : Type} (o : Host.Outcome State Fault Refusal) (f : State → α) : Option α :=
  match o with
  | .next t => some (f t)
  | .fault _ => none
  | .refused _ => none

/-- RESULT and STATUS. -/
def ends (s : State) : Nat × Nat := (s.block.result.toNat, s.block.status.toNat)

/-- The output cursor and the stream cursor. -/
def cursors (s : State) : Nat × Nat := (s.block.work.op, s.block.work.ip)

/-- The first `k` bytes of DST. -/
def dstBytes (k : Nat) (s : State) : List (Option Byte) := (List.range k).map s.block.dstByte

/-- Scenario A of `43_encoder.md`: 32 bytes of "A". -/
def inputA : List Byte := List.replicate 32 0x41

/-- The stream of Scenario A (`43_encoder.md` R203). -/
def streamA : List Byte := bytes [0x1F, 0x41, 0x01, 0x00, 0x07, 0x50, 0x41, 0x41, 0x41, 0x41, 0x41]

/-! ## Well-formedness: what each check refuses (`30_encoding.md` R103) -/

theorem test_seqSS_saturated_ll_refused : Instr.wellFormed (.seqSS 15 0) = false := by decide
theorem test_seqSS_saturated_ml_refused : Instr.wellFormed (.seqSS 0 15) = false := by decide
theorem test_seqXS_saturated_ml_refused : Instr.wellFormed (.seqXS 15) = false := by decide
theorem test_seqSX_saturated_ll_refused : Instr.wellFormed (.seqSX 15) = false := by decide
theorem test_lastS_saturated_ll_refused : Instr.wellFormed (.lastS 15 0) = false := by decide
theorem test_edge_nibbles_accepted :
    Instr.wellFormed (.seqSS 14 14) = true ∧ Instr.wellFormed (.lastS 14 15) = true := by decide

/-! ## Decoding words written out from `30_encoding.md` R91 and R103 -/

/-- The words of R91, bits[1:0] = OP, bits[31:2] = 0. -/
theorem test_decode_commands :
    decodeTableWord 32 0b00000000000000000000000000000001 = some .compress ∧
      decodeTableWord 32 0b00000000000000000000000000000010 = some .decompressFixed ∧
      decodeTableWord 32 0b00000000000000000000000000000011 = some .decompressUnknown := by decide

/-- R92: OP = 0; each end of RSV set. -/
theorem test_decode_reserved_commands :
    decodeTableWord 32 0 = none ∧ decodeTableWord 32 0b101 = none ∧
      decodeTableWord 32 0x80000001 = none := by decide

/-- The four non-terminal patterns of R103. -/
theorem test_decode_seq_forms :
    decodeTableWord 8 0b00100010 = some (.seqSS 2 2) ∧
      decodeTableWord 8 0b11101101 = some (.seqSS 14 13) ∧
      decodeTableWord 8 0b11110011 = some (.seqXS 3) ∧
      decodeTableWord 8 0b00011111 = some (.seqSX 1) ∧
      decodeTableWord 8 0b11111111 = some .seqXX := by decide

/-- The two terminal patterns of R103, in the context of R254's example (`op` = 27, `oend` = 32) and of
R255's (270 literals, `oend` = 270). -/
theorem test_decode_last_forms :
    decodeSequence Config.params ⟨false, 5, 27, 11, 32⟩ (bytes [0x50, 0x41, 0x41, 0x41, 0x41, 0x41]) =
        .ok (.lastS 5 0) ∧
      decodeSequence Config.params ⟨false, 0, 0, 273, 270⟩ (bytes [0xF7, 0xFF, 0x00, 0x61]) =
        .ok (.lastX 7) := by decide

/-- `44_decoder.md` R239: in the unknown-size variant literals that end at the read limit are terminal. -/
theorem test_decode_last_at_read_limit :
    decodeSequence Config.params ⟨true, 0, 0, 3, 64⟩ (bytes [0x22, 0x61, 0x62]) = .ok (.lastS 2 2) ∧
      decodeSequence Config.params ⟨false, 0, 0, 3, 64⟩ (bytes [0x22, 0x61, 0x62]) =
        .ok (.seqSS 2 2) := by decide

theorem test_encode_matches_words :
    encode .decompressUnknown = .command 3 ∧ encode (.seqSX 1) = .controlByte 0b00011111 ∧
      encode (.lastS 5 0) = .controlByte 0b01010000 := by decide

/-- The word of a row, placed where the next step ⟨_, fetches⟩ after reset, runs as that instruction. -/
theorem test_fetch_word_runs_compress :
    step (State.reset.withFetchWord 32 1) = exec .compress State.reset := by rfl

theorem test_fetch_word_runs_seqXX :
    step (State.reset.withFetchWord 8 0xFF) = exec .seqXX (State.reset.withFetchWord 8 0xFF) := by
  rfl

/-! ## Instructions, on the spec's examples -/

/-- R283's example. -/
theorem test_compress_scenarioA :
    after (exec .compress ⟨_, block inputA [] 40⟩) ends = some (11, 0) ∧
      after (exec .compress ⟨_, block inputA [] 40⟩) (dstBytes 11) = some (streamA.map some) := by
  constructor <;> rfl

/-- R283's corner case: `n = 0` writes the one byte `00`. -/
theorem test_compress_empty :
    after (exec .compress ⟨_, block [] [] 8⟩) (fun t => (ends t, dstBytes 1 t)) =
      some ((1, 0), [some 0]) := by rfl

/-- `45_commands.md` R281: a null source is refused also with length 0. -/
theorem test_compress_null_source :
    exec .compress ⟨_, { block [] [] 8 with srcBase := 0 }⟩ =
      .next ⟨_, { block [] [] 8 with srcBase := 0, result := 0, status := 3 }⟩ := by rfl

/-- R284's example, as whole command. -/
theorem test_decompress_fixed_scenarioA :
    after (Sys2Proof.core.run 3 ⟨_, acting { block streamA [] 32 with dstLen := 32 } (.writeReg 0 2)⟩)
        (fun t => (ends t, dstBytes 32 t)) =
      some ((11, 0), inputA.map some) := by rfl

theorem test_decompress_fixed_negative_length :
    after (exec .decompressFixed ⟨_, { block streamA [] 32 with dstLen := 0x80000000 }⟩)
      ends = some (0, 3) := by rfl

/-- R285's example, as whole command. -/
theorem test_decompress_unknown_scenarioA :
    after (Sys2Proof.core.run 3 ⟨_, acting { block streamA [] 40 with dstLen := 40 } (.writeReg 0 3)⟩)
        (fun t => (ends t, dstBytes 32 t)) =
      some ((32, 0), inputA.map some) := by rfl

/-- `44_decoder.md` R250's example: `22 61 62 02 00`. -/
theorem test_seqSS_example :
    after (exec (.seqSS 2 2) ⟨_, running .fixed (bytes [0x22, 0x61, 0x62, 2, 0]) [] 32 32⟩)
        (fun t => (cursors t, dstBytes 8 t)) =
      some ((8, 5), (bytes [0x61, 0x62, 0x61, 0x62, 0x61, 0x62, 0x61, 0x62]).map some) := by rfl

/-- `44_decoder.md` R251's example: the first four literals again. -/
theorem test_seqXS_example :
    after (exec (.seqXS 0)
        ⟨_, running .fixed (bytes ([0xF0, 0] ++ List.range 15 ++ [15, 0])) [] 64 64⟩)
        (fun t => (cursors t, dstBytes 19 t)) =
      some ((19, 19), (bytes (List.range 15 ++ [0, 1, 2, 3])).map some) := by rfl

/-- `44_decoder.md` R252's example: `1F 41 01 00 07`. -/
theorem test_seqSX_example :
    after (exec (.seqSX 1) ⟨_, running .fixed streamA [] 32 32⟩)
        (fun t => (cursors t, dstBytes 27 t)) =
      some ((27, 5), List.replicate 27 (some 0x41)) := by rfl

/-- `60_exceptions.md` R301's example: the same with DST_LEN 20 overflows at the match. -/
theorem test_seqSX_overflow :
    after (exec (.seqSX 1) ⟨_, running .fixed streamA [] 20 20⟩) ends =
      some (0xFFFFFFFB, 1) := by rfl

/-- `44_decoder.md` R253's example: the last literal repeated 19 times. -/
theorem test_seqXX_example :
    after (exec .seqXX ⟨_, running .fixed (bytes ([0xFF, 0] ++ List.range 15 ++ [1, 0, 0])) [] 64 64⟩)
        (fun t => (cursors t, dstBytes 34 t)) =
      some ((34, 20), ((bytes (List.range 15)) ++ List.replicate 19 14).map some) := by rfl

/-- `60_exceptions.md` R302's example: offset 2 behind one literal. -/
theorem test_seqSS_underflow :
    after (exec (.seqSS 1 0)
        ⟨_, running .fixed (bytes [0x10, 0x41, 2, 0, 0, 0x50, 0x41, 0x41, 0x41, 0x41, 0x41]) [] 32 32⟩)
      ends = some (0xFFFFFFFC, 2) := by rfl

/-- `44_decoder.md` R254's example: `30 61 62 63` with `oend` = 3, either variant. -/
theorem test_lastS_example :
    after (exec (.lastS 3 0) ⟨_, running .fixed (bytes [0x30, 0x61, 0x62, 0x63]) [] 3 3⟩)
        (fun t => (ends t, dstBytes 3 t)) =
      some ((4, 0), (bytes [0x61, 0x62, 0x63]).map some) ∧
    after (exec (.lastS 3 0) ⟨_, running .unknown (bytes [0x30, 0x61, 0x62, 0x63]) [] 3 3⟩)
        ends = some (3, 0) := by
  constructor <;> rfl

/-- `44_decoder.md` R255, 15 literals. -/
theorem test_lastX_example :
    after (exec (.lastX 0) ⟨_, running .fixed (bytes ([0xF0, 0] ++ List.range 15)) [] 15 15⟩)
        (fun t => (ends t, dstBytes 15 t)) =
      some ((17, 0), (bytes (List.range 15)).map some) := by rfl

/-- `60_exceptions.md` R304's example: the stream of R301 with SRC_LEN 3. -/
theorem test_source_exhausted_at_offset :
    after (step ⟨_, { running .fixed (bytes [0x1F, 0x41, 0x01]) [] 32 32 with srcLen := 3 }⟩)
      ends = some (0xFFFFFFFE, 4) := by rfl

/-! ## Parameters other than the defaults (`00_scope.md` R7) -/

/-- `10_state.md` R22: with ADDR_W = 4 the handles 0x11 and 0x1 select one buffer. -/
theorem test_addrW_selects_by_significant_bits :
    { blockAt { Config.params with addrW := 4 } [7] [] 9 with srcBase := 0x11 }.srcByte 0 = some 7 ∧
      { block [7] [] 9 with srcBase := 0x11 }.srcByte 0 = none := by decide

/-- `44_decoder.md` R236: behind a run of 4 with `oend` = 8 the sequence is terminal with DEC_MARGIN = 8
and not with DEC_MARGIN = 4. -/
theorem test_margin_is_a_parameter :
    (running .fixed (bytes [0x40, 1, 2, 3, 4, 1, 0, 0]) [] 8 8).fetch = .sequence (.lastS 4 0) ∧
      (runningAt { Config.params with decMargin := 4 } .fixed (bytes [0x40, 1, 2, 3, 4, 1, 0, 0]) []
        8 8).fetch = .sequence (.seqSS 4 0) := by decide

/-- `43_encoder.md` R191: Scenario A's 32 bytes are below MINLENGTH = 33 and written without a match:
control byte F0, extension 17, the 32 bytes. -/
theorem test_minLength_is_a_parameter :
    after (exec .compress ⟨_, blockAt { Config.params with minLength := 33 } inputA [] 40⟩)
        (fun t => (ends t, dstBytes 2 t)) =
      some ((34, 0), [some 0xF0, some 17]) := by rfl

/-- The machine with 64-bit registers (`92_eei_decisions.md` D4). -/
def params64 : Config.Params := { Config.params with xlen := 64 }

/-- Scenario A with 64-bit registers: R283's, and R301's with DST_LEN 20 from the write of the command
word on, whose RESULT is `2^64 - 5`. -/
theorem test_scenarioA_at_xlen_64 :
    after (exec .compress ⟨_, blockAt params64 inputA [] 40⟩) (fun t => (ends t, dstBytes 11 t)) =
        some ((11, 0), streamA.map some) ∧
      after (Sys2Proof.core.run 2
          ⟨_, acting { blockAt params64 streamA [] 20 with dstLen := 20 } (.writeReg 0 2)⟩) ends =
        some (0xFFFFFFFFFFFFFFFB, 1) := by
  constructor <;> rfl

/-- `45_commands.md` R281 with 64-bit registers: 0x80000000 is no negative length and
0x8000000000000000 is; `30_encoding.md` R92: every bit above OP is reserved. -/
theorem test_arguments_at_xlen_64 :
    { blockAt params64 streamA [] 32 with dstLen := 0x80000000 }.badDecompress = false ∧
      { blockAt params64 streamA [] 32 with dstLen := 0x8000000000000000 }.badDecompress = true ∧
      after (step ⟨_, acting (blockAt params64 streamA [] 32) (.writeReg 0 0x100000001)⟩) ends =
        some (0, 3) := by
  refine ⟨?_, ?_, ?_⟩ <;> rfl

/-- `00_scope.md` R7: MAX_COMPRESS_LEN at XLEN = 32, and recomputed for other widths. -/
theorem test_maxCompressLen :
    Config.maxCompressLen 32 = 2045222520 ∧ Config.maxCompressLen 5 = 7 ∧
      Config.maxCompressLen 16 = 31206 := by decide

/-! ## Primitives and codec, on the tables of `95_test_vectors.md` -/

theorem test_extension_edges :
    extOf 14 = [] ∧ extOf 15 = [0] ∧ extOf 269 = [0xFE] ∧ extOf 270 = [0xFF, 0] ∧
      extOf 525 = [0xFF, 0xFF, 0] ∧ extSum (bytes [0xFF, 0xFF, 7]) = some (517, 3) := by decide

theorem test_nbcommon :
    nbCommon 4 0x00424141 0x00434141 = 2 ∧ nbCommon 4 0x41414100 0x41414101 = 0 := by decide

theorem test_neg32 :
    neg32 0 = (0 : Word 32) ∧ neg32 1 = (0xFFFFFFFF : Word 32) ∧ neg32 11 = (0xFFFFFFF5 : Word 32) ∧
      neg32 2147483647 = (0x80000001 : Word 32) := by decide

theorem test_hash : hash 32 13 0x61646362 = 5102 ∧ hash 32 12 0x80000000 = 2048 := by decide

/-- The distance table of `95_test_vectors.md` section 3, on constant bytes. -/
theorem test_verify_distance :
    verify .narrow (fun _ => 0) 65536 0 = true ∧ verify .wide (fun _ => 0) 65535 0 = true ∧
      verify .wide (fun _ => 0) 65536 0 = false := by decide

/-! ## Witnesses: a state and operands that meet each statement's hypotheses together -/

theorem witness_ResetActionEffect :
    (acting idle .reset).phase = .idle ∧ (acting idle .reset).host = [.reset] := by
  decide

theorem witness_StepKeepsInvariant :
    (acting idle (.storeByte 5 7)).inv ∧
      step ⟨_, acting idle (.storeByte 5 7)⟩ = .next ⟨_, { idle with mem := [(5, 7)] }⟩ := by
  constructor
  · decide
  · rfl

theorem witness_ParametersNeverChange :
    step ⟨_, acting idle .reset⟩ = .next State.reset := by rfl

theorem witness_SignOfResultAtDecoderEnd :
    (running .fixed streamA [] 8 8).phase ≠ .idle ∧ (running .fixed streamA [] 8 8).cursorsOk ∧
      after (step ⟨_, running .fixed streamA [] 8 8⟩) (fun t => t.block.phase) = some .idle := by decide

theorem witness_ReservedCommandWords :
    (acting idle (.writeReg 0 0)).launching 0 [] ∧
      (acting idle (.writeReg 0 5)).launching 5 [] ∧
      (0 : Word 32).extractLsb' 0 2 = 0 ∧ (5 : Word 32).extractLsb' 2 30 ≠ 0 := by decide

theorem witness_CheckArgs : (acting idle (.writeReg 0 2)).launching 2 [] := by decide

theorem witness_StepRunsDecodedInstruction_sequence :
    (running .fixed streamA [] 32 32).phase ≠ .idle ∧
      (running .fixed streamA [] 32 32).work.ip < (running .fixed streamA [] 32 32).work.ilim ∧
      decodeSequence Config.params (running .fixed streamA [] 32 32).context
        (running .fixed streamA [] 32 32).unread = .ok (.seqSX 1) := by decide

theorem witness_StepRunsDecodedInstruction_command :
    (acting idle (.writeReg 0 1)).launching 1 [] ∧ decodeCommand (1 : Word 32) = .ok .compress := by
  decide

theorem witness_IdleBlockHoldsState : idle.phase = .idle ∧ idle.host = [] := by decide

theorem witness_HostRegisterAccess (a : HostAction 32) :
    (acting idle a).phase = .idle ∧ (acting idle a).host = a :: [] := ⟨rfl, rfl⟩

theorem witness_HostRegisterAccess_above : 6 < 7 := by decide

theorem witness_HostReadOfCmd :
    (acting idle (.readReg 0)).phase = .idle ∧
      (acting idle (.readReg 0)).host = [.readReg 0] := by decide

theorem witness_RegistersKeptAcrossCommands :
    step ⟨_, acting idle (.writeReg 0 0)⟩ = .next ⟨_, { idle with status := 3 }⟩ := by rfl

theorem witness_DecoderStepFrame :
    (running .unknown [] [] 8 8).phase ≠ .idle ∧
      after (step ⟨_, running .unknown [] [] 8 8⟩) (fun t => t.block.phase) = some .idle := by decide

theorem witness_CompressShortInput :
    (block [] [] 8).compressArgs ∧ (block [] [] 8).compressPremises ∧
      (block [] [] 8).srcLen.toNat < Config.params.minLength := by decide

theorem witness_CompressShortInput_longest :
    (block (bytes (List.range 12)) [] 20).compressArgs ∧
      (block (bytes (List.range 12)) [] 20).compressPremises ∧
      (block (bytes (List.range 12)) [] 20).srcLen.toNat <
        Config.params.minLength := by decide

/-- 15 bytes, the shortest run with an extension, for MINLENGTH = 16. -/
def shortFifteen : Block { Config.params with minLength := 16 } :=
  blockAt _ (bytes (List.range 15)) [] 23

theorem witness_CompressShortInput_extended :
    shortFifteen.compressArgs ∧ shortFifteen.compressPremises ∧
      shortFifteen.srcLen.toNat < 16 := by decide

theorem witness_CompressCompletes :
    (block inputA [] 40).compressParams ∧ (block inputA [] 40).compressArgs ∧
      (block inputA [] 40).compressPremises := by decide

theorem witness_parameters_wf : Config.params.wf := by decide

/-- Another choice that keeps `00_scope.md` R8, with each constraint at its boundary, and 64-bit registers
(`92_eei_decisions.md` D4). -/
def otherParams : Config.Params where
  xlen := 64
  addrW := 8
  hashLogWide := 1
  hashLogNarrow := 5
  hashWordBits := 5
  entryWWide := 31
  skipStrength := 3
  attemptInit := 8
  mfLimit := 6
  lastLiterals := 2
  minLength := 7
  decMargin := 6

theorem witness_other_parameters_wf : otherParams.wf := by decide

theorem witness_CompressCompletes_other_parameters :
    (blockAt otherParams inputA [] 40).compressParams ∧
      (blockAt otherParams inputA [] 40).compressArgs ∧
      (blockAt otherParams inputA [] 40).compressPremises := by decide

theorem witness_entries_hold_positions :
    65535 ≤ 2 ^ entryW Config.params (variantOf 65535) ∧
      65536 ≤ 2 ^ entryW Config.params (variantOf 65536) := by decide

theorem witness_EncoderReadsOnlyItsInput :
    ∀ i, i < 14 → (fun _ => 0 : Nat → Byte) i = (fun i => if i = 14 then 1 else 0) i := by decide

theorem witness_VariantByLength :
    (block (bytes (List.replicate 14 7)) [] 22).compressArgs ∧
      after (exec .compress ⟨_, block (bytes (List.replicate 14 7)) [] 22⟩) (fun t => t.block.status.toNat) =
        some 0 := by
  constructor
  · decide
  · rfl

/-- The lengths on both sides of VARIANT_THRESHOLD (`45_commands.md` R282). -/
theorem witness_VariantByLength_threshold :
    (Machine.encode { Config.params with minLength := 65537 } (fun _ => 0) 65535 Work.reset
        []).2.w.variant = .narrow ∧
      (Machine.encode { Config.params with minLength := 65537 } (fun _ => 0) 65536 Work.reset
        []).2.w.variant = .wide := by
  constructor <;> rfl

theorem witness_TableHoldsThisInputsPositions_hypotheses :
    (block (bytes (List.replicate 14 7)) [] 22).compressParams ∧
      (block (bytes (List.replicate 14 7)) [] 22).compressArgs := by decide

theorem witness_TableHoldsThisInputsPositions :
    after (exec .compress ⟨_, block (bytes (List.replicate 14 7)) [] 22⟩)
      (fun t => Tab.get t.block.tab (bucket Config.params .narrow (fun _ => 7) 0)) = some 1 := by rfl

theorem witness_CompressFaults_overlap :
    { block [7] [] 9 with windows := [⟨1, 0, 1⟩, ⟨2, 0, 9⟩] }.compressArgs ∧
      ¬ { block [7] [] 9 with windows := [⟨1, 0, 1⟩, ⟨2, 0, 9⟩] }.disjoint 1 9 := by decide

theorem witness_CompressFaults_source :
    { block [7] [] 10 with srcLen := 2 }.compressArgs ∧
      { block [7] [] 10 with srcLen := 2 }.disjoint 2 (bound 2) ∧
      { block [7] [] 10 with srcLen := 2 }.srcReadable
        { block [7] [] 10 with srcLen := 2 }.src.size ∧
      { block [7] [] 10 with srcLen := 2 }.src.size < 2 := by decide

theorem witness_CompressFaults_destination :
    (block [7] [] 1).compressArgs ∧ (block [7] [] 1).disjoint 1 (bound 1) ∧
      (block [7] [] 1).srcReadable 1 ∧
      (block [7] [] 1).dst.size <
        (Machine.encode Config.params (block [7] [] 1).srcFun 1 Work.reset []).2.out.length := by
  decide

theorem witness_DecompressCommandsStart :
    { block streamA [] 32 with dstLen := 32 }.decompressArgs ∧
      { block streamA [] 32 with dstLen := 32 }.disjoint 11 32 := by decide

theorem witness_DecoderFaults_overlap :
    { block [7] [] 9 with dstLen := 9, windows := [⟨1, 0, 1⟩, ⟨2, 0, 9⟩] }.decompressArgs ∧
      ¬ { block [7] [] 9 with dstLen := 9, windows := [⟨1, 0, 1⟩, ⟨2, 0, 9⟩] }.disjoint 1 9 := by
  decide

/-- A decoder with a read limit of 1 and nothing mapped. -/
def unmapped : Block Config.params :=
  { running .fixed [] [] 9 9 with work := { Work.reset with ilim := 1, oend := 9 } }

theorem witness_DecoderFaults_source :
    unmapped.phase ≠ .idle ∧ unmapped.work.ip < unmapped.work.ilim ∧
      unmapped.src.size ≤ unmapped.work.ip := by decide

/-- One literal for a DST of no bytes. -/
def unroomy : Block Config.params := running .fixed (bytes [0x10, 7]) [] 1 0

theorem witness_DecoderFaults_destination :
    unroomy.phase ≠ .idle ∧
      unroomy.streamHas (controlByte 1 0 :: extOf 1 ++ [7]) ∧
      unroomy.work.op + 1 ≤ unroomy.work.oend ∧
      unroomy.dst.size < unroomy.work.op + 1 ∧
      0 < [7].length := by
  refine ⟨?_, ?_, ?_, ?_, ?_⟩ <;> decide

/-- A literal and a match of 4, for a DST of 4 bytes. -/
def unroomyMatch : Block Config.params := running .fixed (seqBytes [7] 1 4) [] 9 4

theorem witness_DecoderFaults_match :
    unroomyMatch.phase ≠ .idle ∧ 4 ≤ 4 ∧ 1 < 65536 ∧ unroomyMatch.streamHas (seqBytes [7] 1 4) ∧
      unroomyMatch.dstTakes [7].length ∧
      unroomyMatch.work.op + 1 + Config.params.decMargin ≤ unroomyMatch.work.oend ∧
      1 ≤ unroomyMatch.work.op + 1 ∧ unroomyMatch.work.op + 1 + 4 ≤ unroomyMatch.work.oend ∧
      unroomyMatch.dst.size < unroomyMatch.work.op + 1 + 4 := by
  refine ⟨?_, ?_, ?_, ?_, ?_, ?_, ?_, ?_, ?_⟩ <;> decide

/-- A running decoder whose read limit lies `k` bytes past SRC's mapped bytes. -/
def overreading (src : List Byte) (k : Nat) : Block Config.params :=
  { running .fixed src [] 9 9 with
    srcLen := BitVec.ofNat 32 (src.length + k)
    work := { Work.reset with ilim := src.length + k, oend := 9 } }

theorem witness_DecoderFaultsOutsideSource_literalExtension :
    (overreading (controlByte 15 0 :: List.replicate 1 255) 1).phase ≠ .idle ∧
      (overreading (controlByte 15 0 :: List.replicate 1 255) 1).streamHas
        (controlByte 15 0 :: List.replicate 1 255) ∧
      0 + 1 + 1 < (overreading (controlByte 15 0 :: List.replicate 1 255) 1).work.ilim ∧
      (overreading (controlByte 15 0 :: List.replicate 1 255) 1).src.size ≤ 0 + 1 + 1 := by
  refine ⟨?_, ?_, ?_, ?_⟩ <;> decide

theorem witness_DecoderFaultsOutsideSource_literals :
    (overreading (bytes [0x20, 7]) 1).phase ≠ .idle ∧
      (overreading (bytes [0x20, 7]) 1).streamHas (controlByte 2 0 :: extOf 2) ∧
      (overreading (bytes [0x20, 7]) 1).work.op + 2 ≤
        (overreading (bytes [0x20, 7]) 1).work.oend ∧
      0 + 1 + litext 2 + 2 ≤ (overreading (bytes [0x20, 7]) 1).work.ilim ∧
      (overreading (bytes [0x20, 7]) 1).src.size < 0 + 1 + litext 2 + 2 := by
  refine ⟨?_, ?_, ?_, ?_, ?_⟩ <;> decide

theorem witness_DecoderFaultsOutsideSource_offset :
    (overreading (bytes [0x10, 7, 1]) 1).phase ≠ .idle ∧
      (overreading (bytes [0x10, 7, 1]) 1).streamHas (controlByte 1 0 :: extOf 1 ++ [7]) ∧
      (overreading (bytes [0x10, 7, 1]) 1).dstTakes 1 ∧
      (overreading (bytes [0x10, 7, 1]) 1).work.op + 1 +
          Config.params.decMargin ≤
        (overreading (bytes [0x10, 7, 1]) 1).work.oend ∧
      0 + 1 + litext 1 + 1 + 2 ≤ (overreading (bytes [0x10, 7, 1]) 1).work.ilim ∧
      (overreading (bytes [0x10, 7, 1]) 1).src.size < 0 + 1 + litext 1 + 1 + 2 := by
  refine ⟨?_, ?_, ?_, ?_, ?_, ?_⟩ <;> decide

theorem witness_DecoderFaultsOutsideSource_matchExtension :
    (overreading (bytes [0x1F, 7, 1, 0]) 1).phase ≠ .idle ∧
      (overreading (bytes [0x1F, 7, 1, 0]) 1).streamHas
        (controlByte 1 15 :: extOf 1 ++ [7] ++ le16 1 ++ List.replicate 0 255) ∧
      (overreading (bytes [0x1F, 7, 1, 0]) 1).dstTakes 1 ∧
      (overreading (bytes [0x1F, 7, 1, 0]) 1).work.op + 1 +
          Config.params.decMargin ≤
        (overreading (bytes [0x1F, 7, 1, 0]) 1).work.oend ∧
      1 ≤ (overreading (bytes [0x1F, 7, 1, 0]) 1).work.op + 1 ∧
      0 + 1 + litext 1 + 1 + 2 + 0 < (overreading (bytes [0x1F, 7, 1, 0]) 1).work.ilim ∧
      (overreading (bytes [0x1F, 7, 1, 0]) 1).src.size ≤ 0 + 1 + litext 1 + 1 + 2 + 0 := by
  refine ⟨?_, ?_, ?_, ?_, ?_, ?_, ?_⟩ <;> decide

/-- The four clauses' outcomes on these states, and the match's. -/
theorem test_reads_outside_the_extents_fault :
    step ⟨_, overreading (controlByte 15 0 :: List.replicate 1 255) 1⟩ = .fault .srcOutsideExtent ∧
      step ⟨_, overreading (bytes [0x20, 7]) 1⟩ = .fault .srcOutsideExtent ∧
      step ⟨_, overreading (bytes [0x10, 7, 1]) 1⟩ = .fault .srcOutsideExtent ∧
      step ⟨_, overreading (bytes [0x1F, 7, 1, 0]) 1⟩ = .fault .srcOutsideExtent ∧
      step ⟨_, unroomyMatch⟩ = .fault .dstOutsideExtent := by
  refine ⟨?_, ?_, ?_, ?_, ?_⟩ <;> rfl

/-- The four forms at the edges of their lengths: 14 and 15 literals, matches of 18 and 19. -/
theorem witness_SequenceFormsComplete :
    (running .fixed (seqBytes (bytes (List.range 14)) 1 18) [] 34 34).seqReady
        (bytes (List.range 14)) 1 18 ∧
      (running .fixed (seqBytes (bytes (List.range 15)) 1 18) [] 34 34).seqReady
        (bytes (List.range 15)) 1 18 ∧
      (running .fixed (seqBytes (bytes (List.range 14)) 1 19) [] 34 34).seqReady
        (bytes (List.range 14)) 1 19 ∧
      (running .fixed (seqBytes (bytes (List.range 15)) 1 19) [] 34 34).seqReady
        (bytes (List.range 15)) 1 19 := by
  refine ⟨?_, ?_, ?_, ?_⟩ <;> decide

theorem witness_OffsetZeroLeavesFreeBytes :
    (running .fixed (seqBytes [7] 0 4) [] 16 16).seqReady [7] 0 4 := by decide

theorem witness_TerminalFormsComplete :
    (running .fixed (lastBytes (bytes (List.range 14))) [] 15 15).lastReady (bytes (List.range 14)) ∧
      (running .unknown (lastBytes (bytes (List.range 15))) [] 15 15).lastReady
        (bytes (List.range 15)) := by
  constructor <;> decide

theorem witness_UnknownSizeEndsAtReadLimit :
    (running .unknown [] [7] 9 9).phase = .unknown ∧
      (running .unknown [] [7] 9 9).work.ilim ≤ (running .unknown [] [7] 9 9).work.ip := by decide

/-- A run of 15 for a bound of 14. -/
def longRun : Block Config.params := running .fixed (controlByte 15 3 :: extOf 15) [] 14 14

theorem witness_LiteralRunOverflow :
    longRun.phase ≠ .idle ∧
      longRun.streamHas (controlByte 15 3 :: extOf 15) ∧
      longRun.work.oend < longRun.work.op + 15 := by
  refine ⟨?_, ?_, ?_⟩ <;> decide

theorem witness_LiteralRunOverflow_check :
    { longRun with work := { longRun.work with litLen := 15 } }.work.oend <
      { longRun with work := { longRun.work with litLen := 15 } }.work.op + 15 := by decide

/-- A literal and a match of 9 for a bound of 9. -/
def longMatch : Block Config.params := running .fixed (seqBytes [7] 1 9) [] 9 9

theorem witness_MatchOverflow :
    longMatch.phase ≠ .idle ∧
      4 ≤ 9 ∧
      1 < 65536 ∧
      longMatch.streamHas (seqBytes [7] 1 9) ∧
      longMatch.dstTakes [7].length ∧
      longMatch.work.op + 1 + Config.params.decMargin ≤ longMatch.work.oend ∧
      1 ≤ longMatch.work.op + 1 ∧
      longMatch.work.oend < longMatch.work.op + 1 + 9 := by
  refine ⟨?_, ?_, ?_, ?_, ?_, ?_, ?_, ?_⟩ <;> decide

/-- Offset 2 behind one literal. -/
def farOffset : Block Config.params := running .fixed (controlByte 1 15 :: extOf 1 ++ [7] ++ le16 2) [] 9 9

theorem witness_BackReferenceUnderflow :
    farOffset.phase ≠ .idle ∧
      2 < 65536 ∧
      farOffset.streamHas (controlByte 1 15 :: extOf 1 ++ [7] ++ le16 2) ∧
      farOffset.dstTakes [7].length ∧
      farOffset.work.op + 1 + Config.params.decMargin ≤ farOffset.work.oend ∧
      farOffset.work.op + 1 < 2 := by
  refine ⟨?_, ?_, ?_, ?_, ?_, ?_⟩ <;> decide

theorem witness_SourceExhausted_controlByte :
    (running .fixed [] [7] 9 9).phase = .fixed ∧
      (running .fixed [] [7] 9 9).work.ilim ≤ (running .fixed [] [7] 9 9).work.ip := by decide

/-- A literal extension without its closing byte. -/
def openRun : Block Config.params := running .unknown (controlByte 15 2 :: List.replicate 2 255) [] 9 9

theorem witness_SourceExhausted_literalExtension :
    openRun.phase ≠ .idle ∧
      openRun.streamHas (controlByte 15 2 :: List.replicate 2 255) ∧
      openRun.work.ilim = openRun.work.ip + 1 + 2 := by
  refine ⟨?_, ?_, ?_⟩ <;> decide

/-- Two bytes of a run of 3. -/
def cutRun : Block Config.params := running .fixed (controlByte 3 0 :: extOf 3 ++ [7, 7]) [] 3 3

theorem witness_SourceExhausted_literals :
    cutRun.phase ≠ .idle ∧
      cutRun.streamHas (controlByte 3 0 :: extOf 3) ∧
      cutRun.work.op + 3 ≤ cutRun.work.oend ∧
      cutRun.work.ilim < cutRun.work.ip + 1 + litext 3 + 3 := by
  refine ⟨?_, ?_, ?_, ?_⟩ <;> decide

/-- One byte of an offset. -/
def cutOffset : Block Config.params := running .unknown (controlByte 1 0 :: extOf 1 ++ [7] ++ [1]) [] 9 9

theorem witness_SourceExhausted_offset :
    cutOffset.phase ≠ .idle ∧
      cutOffset.dstTakes [7].length ∧
      cutOffset.work.op + 1 + Config.params.decMargin ≤ cutOffset.work.oend ∧
      cutOffset.streamHas (controlByte 1 0 :: extOf 1 ++ [7]) ∧
      cutOffset.work.ilim = cutOffset.work.ip + 1 + litext 1 + 1 + 1 := by
  refine ⟨?_, ?_, ?_, ?_, ?_⟩ <;> decide

/-- No byte of an offset, fixed-size. -/
def noOffset : Block Config.params := running .fixed (controlByte 1 0 :: extOf 1 ++ [7]) [] 9 9

theorem witness_SourceExhausted_noOffset :
    noOffset.phase = .fixed ∧
      noOffset.dstTakes [7].length ∧
      noOffset.work.op + 1 + Config.params.decMargin ≤ noOffset.work.oend ∧
      noOffset.streamHas (controlByte 1 0 :: extOf 1 ++ [7]) ∧
      noOffset.work.ilim = noOffset.work.ip + 1 + litext 1 + 1 := by
  refine ⟨?_, ?_, ?_, ?_, ?_⟩ <;> decide

/-- A match extension without its closing byte. -/
def openMatch : Block Config.params := running .fixed (controlByte 1 15 :: extOf 1 ++ [7] ++ le16 1 ++ [255]) [] 9 9

theorem witness_SourceExhausted_matchExtension :
    openMatch.phase ≠ .idle ∧
      openMatch.dstTakes [7].length ∧
      openMatch.work.op + 1 + Config.params.decMargin ≤ openMatch.work.oend ∧
      1 ≤ openMatch.work.op + 1 ∧
      1 < 65536 ∧
      openMatch.streamHas
        (controlByte 1 15 :: extOf 1 ++ [7] ++ le16 1 ++ List.replicate 1 255) ∧
      openMatch.work.ilim = openMatch.work.ip + 1 + litext 1 + 1 + 2 + 1 := by
  refine ⟨?_, ?_, ?_, ?_, ?_, ?_, ?_⟩ <;> decide

theorem witness_MatchOverflow_check :
    { longMatch with work := { longMatch.work with op := 1, matchLen := 9 } }.work.oend <
      { longMatch with work := { longMatch.work with op := 1, matchLen := 9 } }.work.op + 9 := by decide

/-- A state in the middle of a sequence, before COPY_MATCH. -/
def beforeMatch : Block Config.params :=
  { running .fixed [] [1, 2] 12 12 with
    work := { Work.reset with op := 2, oend := 12, offset := 2, matchLen := 10 } }

theorem witness_MatchCopyRepeatsPattern :
    beforeMatch.work.offset ≠ 0 ∧ beforeMatch.work.offset ≤ beforeMatch.work.op ∧
      beforeMatch.work.op + beforeMatch.work.matchLen ≤ beforeMatch.work.oend ∧
      beforeMatch.work.op + beforeMatch.work.matchLen ≤ beforeMatch.dst.size ∧
      ∀ i, i < beforeMatch.work.op → (beforeMatch.dstByte i).isSome := by decide

theorem witness_DecoderProgress :
    (running .unknown streamA [] 32 32).decompressArgs ∧
      (running .unknown streamA [] 32 32).decompressPremises ∧
      (running .unknown streamA [] 32 32).decoding := by
  refine ⟨?_, ?_, ?_⟩ <;> decide

/-- SRC is the stream of Scenario A, the command word `w` is about to be written, DST_LEN is 32. -/
def launchA (w : Word 32) : Block Config.params :=
  acting { block streamA [] 32 with dstLen := 32 } (.writeReg 0 w)

theorem witness_DecoderRefinesListing :
    (launchA 2).launching 2 [] ∧ (launchA 3).launching 3 [] ∧ (launchA 2).decompressArgs ∧
      (launchA 2).decompressPremises ∧ (launchA 3).decompressArgs ∧
      (launchA 3).decompressPremises := by
  refine ⟨?_, ?_, ?_, ?_, ?_, ?_⟩ <;> decide

/-- The sequences of Scenario A. -/
def itemsA : List SeqItem := [⟨[0x41], 1, 26⟩]

theorem witness_conforming :
    conforming Config.params inputA itemsA (List.replicate 5 0x41) ∧
      streamBytes itemsA (List.replicate 5 0x41) = streamA := by
  refine ⟨⟨by decide, ?_, by decide, by decide⟩, by decide⟩
  simp only [conformingItems, itemsA]
  decide

/-- The command words of the statements about whole decoder commands, at both widths. -/
theorem witness_command_words :
    (2 : Word Config.params.xlen).toNat = 2 ∧ (3 : Word Config.params.xlen).toNat = 3 ∧
      (2 : Word params64.xlen).toNat = 2 ∧ (3 : Word params64.xlen).toNat = 3 := by decide

/-- The margin of the statements about conforming streams. -/
theorem witness_margin :
    1 ≤ Config.params.decMargin ∧ Config.params.decMargin ≤ Config.params.mfLimit ∧
      1 ≤ otherParams.decMargin ∧ otherParams.decMargin ≤ otherParams.mfLimit := by decide

theorem witness_ConformingStreamDecodes :
    conforming Config.params inputA itemsA (List.replicate 5 0x41) ∧
      streamA = streamBytes itemsA (List.replicate 5 0x41) ∧
      (launchA 2).srcBytes streamA.length 0 = streamA ∧ (launchA 2).launching 2 [] ∧
      (launchA 2).decompressArgs ∧ (launchA 2).decompressPremises ∧
      (launchA 2).dstLen.toNat = inputA.length ∧ streamA.length ≤ (launchA 2).srcLen.toNat := by
  refine ⟨witness_conforming.1, witness_conforming.2.symm, ?_, ?_, ?_, ?_, ?_, ?_⟩ <;> decide

theorem witness_ConformingStreamDecodes_unknown :
    (launchA 3).srcBytes streamA.length 0 = streamA ∧ (launchA 3).launching 3 [] ∧
      (launchA 3).decompressArgs ∧ (launchA 3).decompressPremises ∧
      (launchA 3).srcLen.toNat = streamA.length ∧ inputA.length ≤ (launchA 3).dstLen.toNat := by
  refine ⟨?_, ?_, ?_, ?_, ?_, ?_⟩ <;> decide

/-- The first `k` bytes of the stream of Scenario A. -/
def launchCut (k : Nat) : Block Config.params :=
  acting { block (streamA.take k) [] 32 with dstLen := 32 } (.writeReg 0 2)

theorem witness_TruncatedStreamFails :
    (launchCut 10).launching 2 [] ∧ (launchCut 10).decompressArgs ∧
      (launchCut 10).decompressPremises ∧ (launchCut 10).srcLen.toNat < streamA.length ∧
      (launchCut 10).srcBytes (launchCut 10).srcLen.toNat 0 =
        streamA.take (launchCut 10).srcLen.toNat ∧
      (launchCut 10).dstLen.toNat = inputA.length := by
  refine ⟨?_, ?_, ?_, ?_, ?_, ?_⟩ <;> decide

theorem witness_TruncatedStreamFails_empty :
    (launchCut 0).launching 2 [] ∧ (launchCut 0).decompressArgs ∧
      (launchCut 0).decompressPremises ∧ (launchCut 0).srcLen.toNat = 0 ∧
      (launchCut 0).dstLen.toNat = inputA.length := by
  refine ⟨?_, ?_, ?_, ?_, ?_⟩ <;> decide

/-- COMPRESS of Scenario A leaves in DST what `launchA` holds in SRC. -/
theorem witness_RoundTrip :
    (block inputA [] 40).compressParams ∧ (block inputA [] 40).compressArgs ∧
      (block inputA [] 40).compressPremises ∧
      after (exec .compress ⟨_, block inputA [] 40⟩)
        (fun t => (ends t, dstBytes 11 t)) =
          some (((launchA 2).srcLen.toNat, 0), (List.range 11).map (launchA 2).srcByte) ∧
      (launchA 2).launching 2 [] ∧ (launchA 2).decompressArgs ∧ (launchA 2).decompressPremises ∧
      (launchA 2).dstLen.toNat = (block inputA [] 40).srcLen.toNat ∧ (launchA 3).launching 3 [] ∧
      (launchA 3).decompressArgs ∧ (launchA 3).decompressPremises ∧
      (block inputA [] 40).srcLen.toNat ≤ (launchA 3).dstLen.toNat := by
  refine ⟨by decide, by decide, by decide, by rfl, ?_, ?_, ?_, ?_, ?_, ?_, ?_, ?_⟩ <;> decide

theorem witness_ExtensionDecoded :
    (running .fixed (bytes [255, 7, 1]) [] 9 9).unread = List.replicate 1 255 ++ 7 :: [1] ∧
      (running .fixed (bytes [255, 255]) [] 9 9).unread = List.replicate 2 255 := by decide

theorem witness_CodecRoundTrip : extSum (bytes [255, 7, 1]) = some (262, 2) := by decide

theorem witness_LittleEndianAccesses :
    (∀ j, j < 2 → Memory.read [(4, 0x34), (5, 0x12)] (4 + j) = [(0x34 : Byte), 0x12][j]?) ∧
      Memory.readLE 2 [(4, 0x34), (5, 0x12)] 4 = some 4660 := by decide

theorem witness_CommonLeadingBytes :
    0x00424141 < 256 ^ 4 ∧ 0x00434141 < 256 ^ 4 ∧ 0x00424141 ≠ 0x00434141 := by decide

/-- The least lengths of SequencesDecodeEncode, SequenceSizes and ExtensionBytesWritten. -/
theorem witness_least_lengths :
    4 ≤ 4 ∧ 15 ≤ 15 ∧ (seqBytes [] 1 4).length = 3 ∧ (extBytes 15).length = 1 := by decide

theorem witness_HashFormulaAndRange : 13 ≤ 32 ∧ 32 ≤ 32 ∧ 0 ≤ 0 := by decide

theorem witness_BoundFitsResult : 5 ≤ 5 ∧ 5 ≤ Config.params.xlen := by decide

theorem witness_ProbeLooksUpThenInserts :
    Config.params.wf ∧ Tab.wf [(797, 3)] ∧ 4 < 2 ^ entryW Config.params .narrow ∧
      797 = bucket Config.params .narrow (fun _ => 0x41) 4 := by decide

end Sys2Proof.Tests
end

