-- ==== Sys2Proof/Proofs/Parameters.lean ====
section
/-! The parameters a state holds (`00_scope.md` R7, log 13): every meaning takes a block built with
parameters `P` and answers, where it answers with a state, one that holds `P`. The laws of
`Laws/Step.lean` speak of next states of the form `⟨P, t⟩`; `step_next_block` says that a step gives no
others. -/

namespace Sys2Proof.Machine

variable {P : Config.Params}

/-- The outcome has no next state with parameters other than `P`. -/
def KeepsParams (P : Config.Params) (o : Host.Outcome State Fault Refusal) : Prop :=
  ∀ t : State, o = .next t → t.params = P

/-! ## The outcomes that the meanings are made of -/

@[simp] theorem keepsParams_next (s : Block P) : KeepsParams P (.next ⟨P, s⟩) := by
  rintro t ⟨⟩
  rfl

@[simp] theorem keepsParams_fault (f : Fault) : KeepsParams P (.fault f) := nofun

/-- A test between two outcomes that keep `P`: CHECK_ARGS and the launch premises. -/
theorem KeepsParams.ite {c : Prop} [Decidable c] {o o' : Host.Outcome State Fault Refusal}
    (ho : KeepsParams P o) (ho' : KeepsParams P o') : KeepsParams P (if c then o else o') := by
  split
  · exact ho
  · exact ho'

/-- A next state of an outcome that keeps `P` is a block built with `P`. -/
theorem KeepsParams.exists_block {o : Host.Outcome State Fault Refusal} (ho : KeepsParams P o)
    {t : State} (h : o = .next t) : ∃ b : Block P, t = ⟨P, b⟩ := by
  obtain ⟨Q, b⟩ := t
  obtain rfl : Q = P := ho _ h
  exact ⟨b, rfl⟩

theorem Flow.outcome_keepsParams (f : Flow P) : KeepsParams P f.outcome := by
  cases f with
  | go s => exact keepsParams_next s
  | raised c s => exact keepsParams_next (s.decodeRaise c)
  | fault r => exact keepsParams_fault r

theorem Flow.terminal_keepsParams (f : Flow P) : KeepsParams P f.terminal := by
  cases f with
  | go s => exact keepsParams_next s.decodeFinish
  | raised c s => exact keepsParams_next (s.decodeRaise c)
  | fault r => exact keepsParams_fault r

/-! ## The instructions -/

theorem Block.compress_keepsParams (s : Block P) : KeepsParams P s.compress := by
  unfold Block.compress
  exact .ite (keepsParams_next _) (.ite (keepsParams_fault _) (.ite (keepsParams_fault _)
    (.ite (keepsParams_fault _) (keepsParams_next _))))

theorem Block.startDecompress_keepsParams (s : Block P) (p : Phase) :
    KeepsParams P (s.startDecompress p) := by
  unfold Block.startDecompress
  exact .ite (keepsParams_next _) (.ite (keepsParams_fault _) (keepsParams_next _))

/-- A command ends or starts in a block built with `P`; a sequence's steps are a flow of such blocks. -/
theorem exec_keepsParams (i : Instr) (s : Block P) : KeepsParams P (exec i ⟨P, s⟩) := by
  cases i with
  | compress => exact s.compress_keepsParams
  | decompressFixed => exact s.startDecompress_keepsParams .fixed
  | decompressUnknown => exact s.startDecompress_keepsParams .unknown
  | seqSS ll ml => exact Flow.outcome_keepsParams _
  | seqXS ml => exact Flow.outcome_keepsParams _
  | seqSX ll => exact Flow.outcome_keepsParams _
  | seqXX => exact Flow.outcome_keepsParams _
  | lastS ll x => exact Flow.terminal_keepsParams _
  | lastX x => exact Flow.terminal_keepsParams _

/-! ## The host's side -/

theorem startCommand_keepsParams (w : Word P.xlen) (s : Block P) :
    KeepsParams P (startCommand w s) := by
  unfold startCommand
  cases decodeCommand w with
  | ok i => exact exec_keepsParams i s
  | error e => exact keepsParams_next _

/-- Only register 0 starts something; the other numbers change a field or do not exist. -/
theorem writeRegister_keepsParams (r : Nat) (v : Word P.xlen) (s : Block P) :
    KeepsParams P (writeRegister r v s) := by
  unfold writeRegister
  split
  · exact startCommand_keepsParams v s
  all_goals simp

theorem readRegister_keepsParams (r : Nat) (s : Block P) : KeepsParams P (readRegister r s) := by
  unfold readRegister
  split <;> simp

theorem hostAct_keepsParams (a : HostAction P.xlen) (s : Block P) : KeepsParams P (hostAct a s) := by
  cases a with
  | writeReg r v => exact writeRegister_keepsParams r v s
  | readReg r => exact readRegister_keepsParams r s
  | storeByte addr b => exact keepsParams_next _
  | mapBuffer w => exact keepsParams_next _
  | reset => exact keepsParams_next s.resetBlock

/-! ## Steps -/

theorem idleStep_keepsParams (s : Block P) : KeepsParams P (idleStep s) := by
  unfold idleStep
  cases s.host with
  | nil => exact keepsParams_next s
  | cons a rest => exact hostAct_keepsParams a { s with host := rest }

theorem decoderStep_keepsParams (s : Block P) : KeepsParams P (decoderStep s) := by
  unfold decoderStep
  cases s.fetch with
  | ended t => exact keepsParams_next t
  | sequence i => exact exec_keepsParams i s
  | fault f => exact keepsParams_fault f

theorem Block.step_keepsParams (s : Block P) : KeepsParams P s.step := by
  by_cases h : s.phase = .idle
  · rw [Block.step_idle h]
    exact idleStep_keepsParams s
  · rw [Block.step_running h]
    exact decoderStep_keepsParams s

theorem step_params {s t : State} (h : step s = .next t) : t.params = s.params :=
  s.block.step_keepsParams t h

/-- A next state is a block built with the parameters of the state before, so the laws about next
states `⟨P, t⟩` miss no step. -/
theorem step_next_block {s : Block P} {t : State} (h : step ⟨P, s⟩ = .next t) :
    ∃ b : Block P, t = ⟨P, b⟩ :=
  s.step_keepsParams.exists_block h

@[simp] theorem State.reset_params : State.reset.params = Config.params := rfl

/-- Settles O57: every meaning answers with a block built with the parameters it was given. -/
theorem parametersNeverChange : Obligations.ParametersNeverChange :=
  ⟨State.reset_params, fun _ _ => step_params⟩

end Sys2Proof.Machine
end

