-- ==== Sys2Proof/Proofs/EncoderLaws.lean ====
section
/-! What the encoder's shared operations do, said once: the bounds of a bucket, the one place where the
table is written, and SEARCH and AFTER_MATCH through the two components of `probe`. -/

namespace Sys2Proof.Machine

/-! ## The bucket of a position -/

/-- A hash has `log` bits, also where the product has fewer (`40_primitives.md` R137). -/
theorem hash_lt (bits log w : Nat) : hash bits log w < 2 ^ log := by
  have hprod : w * Config.hashMul % 2 ^ bits < 2 ^ bits := Nat.mod_lt _ (Nat.two_pow_pos bits)
  have hpow : 2 ^ bits ≤ 2 ^ log * 2 ^ (bits - log) := by
    rw [← Nat.pow_add]
    exact Nat.pow_le_pow_right (by decide) (by omega)
  exact Nat.div_lt_of_lt_mul (Nat.mul_comm (2 ^ log) _ ▸ Nat.lt_of_lt_of_le hprod hpow)

theorem bucket_lt (P : Config.Params) (v : Variant) (src : Nat → Byte) (p : Nat) :
    bucket P v src p < 2 ^ hashLog P v := hash_lt _ _ _

/-! ## INSERT and PROBE -/

@[simp] theorem insertPos_w (P : Config.Params) (src : Nat → Byte) (p : Nat) (e : Enc) :
    (insertPos P src p e).w = e.w := rfl

@[simp] theorem insertPos_out (P : Config.Params) (src : Nat → Byte) (p : Nat) (e : Enc) :
    (insertPos P src p e).out = e.out := rfl

@[simp] theorem insertPos_tab (P : Config.Params) (src : Nat → Byte) (p : Nat) (e : Enc) :
    (insertPos P src p e).tab =
      Tab.set e.tab (bucket P e.w.variant src p) (p % 2 ^ entryW P e.w.variant) := rfl

@[simp] theorem probe_w (P : Config.Params) (src : Nat → Byte) (p : Nat) (e : Enc) :
    (probe P src p e).1.w =
      { e.w with h := bucket P e.w.variant src p, ref := lookupPos P src p e } := rfl

@[simp] theorem probe_out (P : Config.Params) (src : Nat → Byte) (p : Nat) (e : Enc) :
    (probe P src p e).1.out = e.out := rfl

@[simp] theorem probe_tab (P : Config.Params) (src : Nat → Byte) (p : Nat) (e : Enc) :
    (probe P src p e).1.tab = (insertPos P src p e).tab := rfl

theorem probe_verify (P : Config.Params) (src : Nat → Byte) (p : Nat) (e : Enc) :
    (probe P src p e).2 = verify e.w.variant src p (lookupPos P src p e) := rfl

/-! ## SEARCH and AFTER_MATCH -/

/-- One more attempt of SEARCH is due: the step, the count and the two positions (`43_encoder.md`
R193). -/
def Enc.nextAttempt (P : Config.Params) (e : Enc) : Enc :=
  { e with
    w := { e.w with
      step := e.w.attempts / 2 ^ P.skipStrength
      attempts := e.w.attempts + 1
      ip := e.w.fwd
      fwd := e.w.fwd + e.w.attempts / 2 ^ P.skipStrength } }

/-- An attempt of SEARCH ends the search, finds a match, or is followed by the next one. -/
theorem searchLoop_succ (P : Config.Params) (src : Nat → Byte) (fuel : Nat) (e : Enc) :
    searchLoop P src (fuel + 1) e =
      if e.w.mflimit < (e.nextAttempt P).w.fwd then (.lastLiterals, e.nextAttempt P)
      else if (probe P src e.w.fwd (e.nextAttempt P)).2 then
        (.catchUp, (probe P src e.w.fwd (e.nextAttempt P)).1)
      else searchLoop P src fuel (probe P src e.w.fwd (e.nextAttempt P)).1 := by
  rw [searchLoop]
  unfold Enc.nextAttempt
  dsimp only
  split
  · rfl
  · split <;> simp_all

theorem encAfterMatch_eq (P : Config.Params) (src : Nat → Byte) (e : Enc) :
    encAfterMatch P src e =
      if e.w.mflimit < e.w.ip then (.lastLiterals, e)
      else if (probe P src e.w.ip e).2 then (.emitMatch, encLitLen 0 (probe P src e.w.ip e).1)
      else
        (.search,
          { (probe P src e.w.ip e).1 with
            w := { (probe P src e.w.ip e).1.w with ip := (probe P src e.w.ip e).1.w.ip + 1 } }) := by
  unfold encAfterMatch
  split
  · rfl
  · split <;> simp_all

/-! ## ENC_LITLEN and ENC_MATCHLEN -/

@[simp] theorem encLitLen_tab (len : Nat) (e : Enc) : (encLitLen len e).tab = e.tab := rfl

@[simp] theorem encLitLen_out (len : Nat) (e : Enc) :
    (encLitLen len e).out = e.out ++ [controlByte len 0] ++ extOf len := rfl

@[simp] theorem encLitLen_w (len : Nat) (e : Enc) :
    (encLitLen len e).w =
      { e.w with tokpos := e.w.op, litLen := len, op := e.w.op + 1 + (extOf len).length } := rfl

@[simp] theorem encMatchLen_tab (m : Nat) (e : Enc) : (encMatchLen m e).tab = e.tab := rfl

@[simp] theorem encMatchLen_out (m : Nat) (e : Enc) :
    (encMatchLen m e).out =
      (e.out.modify e.w.tokpos fun t => t ||| BitVec.ofNat 8 (nibble (m - Config.minMatch))) ++
        extOf (m - Config.minMatch) := rfl

@[simp] theorem encMatchLen_w (m : Nat) (e : Enc) :
    (encMatchLen m e).w =
      { e.w with matchLen := m, op := e.w.op + (extOf (m - Config.minMatch)).length } := rfl

end Sys2Proof.Machine
end

