-- ==== Sys2Proof/Proofs/EncoderIndependence.lean ====
section
/-! The encoder's output does not depend on what earlier commands left (`10_state.md` R45, R51,
`43_encoder.md` R205). Two runs that start with different working registers and tables stay in
agreement: on the labels and the bytes written, on the registers that are read before they are written
next, and on the table below the geometry's size, behind which leftovers of the other geometry may
stand. -/

namespace Sys2Proof.Machine

/-! ## Sparse lists with leftovers behind the keys in use -/

section Leftovers

variable {α : Type} {rest : List (Nat × α)} {a : Nat}

theorem Assoc.get_append (live : List (Nat × α)) (h : ∀ e ∈ rest, a < e.1) :
    Assoc.get (live ++ rest) a = Assoc.get live a := by
  induction live with
  | nil => exact Assoc.get_eq_none_of_lt h
  | cons e live ih =>
    obtain ⟨k, w⟩ := e
    rw [List.cons_append, Assoc.get_cons, Assoc.get_cons, ih]

theorem Assoc.put_append (live : List (Nat × α)) (v : α) (h : ∀ e ∈ rest, a < e.1) :
    Assoc.put (live ++ rest) a v = Assoc.put live a v ++ rest := by
  induction live with
  | nil =>
    cases rest with
    | nil => rfl
    | cons e rest => exact if_pos (h e (by simp))
  | cons e live ih =>
    obtain ⟨k, w⟩ := e
    rw [List.cons_append, Assoc.put, Assoc.put, ih]
    split
    · rfl
    · split <;> rfl

theorem Assoc.del_append (live : List (Nat × α)) (h : ∀ e ∈ rest, a < e.1) :
    Assoc.del (live ++ rest) a = Assoc.del live a ++ rest := by
  induction live with
  | nil =>
    induction rest with
    | nil => rfl
    | cons e rest ih =>
      have hne : a ≠ e.1 := Nat.ne_of_lt (h e (by simp))
      have hrest := ih fun x hx => h x (by simp [hx])
      simp_all [Assoc.del]
  | cons e live ih =>
    obtain ⟨k, w⟩ := e
    rw [List.cons_append, Assoc.del, Assoc.del, ih]
    split <;> rfl

end Leftovers

/-! ## Tables that agree below a bound -/

/-- The two tables list the same below index `b`, each with entries from `b` on behind. The tables
need not be in canonical form. -/
def Tab.AgreeBelow (b : Nat) (t t' : Tab) : Prop :=
  ∃ live rest rest' : Tab, t = live ++ rest ∧ t' = live ++ rest' ∧
    (∀ e ∈ rest, b ≤ e.1) ∧ ∀ e ∈ rest', b ≤ e.1

theorem Tab.AgreeBelow.get_eq {b h : Nat} {t t' : Tab} (ht : Tab.AgreeBelow b t t') (hb : h < b) :
    Tab.get t h = Tab.get t' h := by
  obtain ⟨live, rest, rest', rfl, rfl, hr, hr'⟩ := ht
  unfold Tab.get
  rw [Assoc.get_append live fun e he => Nat.lt_of_lt_of_le hb (hr e he),
    Assoc.get_append live fun e he => Nat.lt_of_lt_of_le hb (hr' e he)]

/-- A write of an entry with all leftovers behind it. -/
theorem Tab.set_append {live rest : Tab} {h : Nat} (p : Nat) (hr : ∀ e ∈ rest, h < e.1) :
    Tab.set (live ++ rest) h p = Tab.set live h p ++ rest := by
  unfold Tab.set
  split
  · exact Assoc.del_append live hr
  · exact Assoc.put_append live p hr

theorem Tab.AgreeBelow.set {b h : Nat} {t t' : Tab} (p : Nat) (ht : Tab.AgreeBelow b t t')
    (hb : h < b) : Tab.AgreeBelow b (Tab.set t h p) (Tab.set t' h p) := by
  obtain ⟨live, rest, rest', rfl, rfl, hr, hr'⟩ := ht
  exact ⟨Tab.set live h p, rest, rest',
    Tab.set_append p fun e he => Nat.lt_of_lt_of_le hb (hr e he),
    Tab.set_append p fun e he => Nat.lt_of_lt_of_le hb (hr' e he), hr, hr'⟩

/-- TABLE_CLEAR leaves nothing of the geometry in use, so any two tables agree after it. -/
theorem tableClear_agreeBelow (P : Config.Params) (v : Variant) (t t' : Tab) :
    Tab.AgreeBelow (2 ^ hashLog P v) (tableClear P v t) (tableClear P v t') := by
  have leftover (t : Tab) : ∀ e ∈ tableClear P v t, 2 ^ hashLog P v ≤ e.1 := fun e he =>
    of_decide_eq_true (List.mem_filter.1 he).2
  exact ⟨[], _, _, rfl, rfl, leftover t, leftover t'⟩

/-! ## Encoders that agree -/

/-- What two encoders agree on at every label. -/
structure Enc.AgreeCore (P : Config.Params) (e e' : Enc) : Prop where
  out : e.out = e'.out
  n : e.w.n = e'.w.n
  variant : e.w.variant = e'.w.variant
  ip : e.w.ip = e'.w.ip
  op : e.w.op = e'.w.op
  anchor : e.w.anchor = e'.w.anchor
  tab : Tab.AgreeBelow (2 ^ hashLog P e.w.variant) e.tab e'.tab

/-- Whether `mflimit` and `matchlimit` may still be read. A short input never sets them. -/
def EncLabel.usesLimits : EncLabel → Bool
  | .lastLiterals | .done => false
  | _ => true

/-- Whether the candidate `ref` is read before the next probe sets it. -/
def EncLabel.usesRef : EncLabel → Bool
  | .catchUp | .emitLiterals | .emitMatch | .extend => true
  | _ => false

/-- Whether the control byte at `tokpos` is still to be completed. -/
def EncLabel.usesTokpos : EncLabel → Bool
  | .emitMatch | .extend | .emitMatchlen => true
  | _ => false

/-- What two encoders agree on at label `l`: the core, and each other register that `l` or a label
after it reads before it is written. The registers `attempts`, `fwd`, `step` and `h` are written
before they are read in every label. -/
structure Enc.Agree (P : Config.Params) (l : EncLabel) (e e' : Enc) : Prop
    extends Enc.AgreeCore P e e' where
  limits : l.usesLimits → e.w.mflimit = e'.w.mflimit ∧ e.w.matchlimit = e'.w.matchlimit
  ref : l.usesRef → e.w.ref = e'.w.ref
  tokpos : l.usesTokpos → e.w.tokpos = e'.w.tokpos
  matchLen : l = .emitMatchlen → e.w.matchLen = e'.w.matchLen

/-- Two labelled encoders are at the same label and agree there. -/
def Enc.AgreeAt (P : Config.Params) (r r' : EncLabel × Enc) : Prop :=
  r.1 = r'.1 ∧ Enc.Agree P r.1 r.2 r'.2

/-- Where the terminal literals are due or written, the core is all that counts. -/
theorem Enc.AgreeCore.toAgree {P : Config.Params} {l : EncLabel} {e e' : Enc}
    (h : Enc.AgreeCore P e e') (hl : l = .lastLiterals ∨ l = .done) : Enc.Agree P l e e' := by
  obtain rfl | rfl := hl
  all_goals
    exact { h with limits := nofun, ref := nofun, tokpos := nofun, matchLen := nofun }

section Steps

variable {P : Config.Params} {src : Nat → Byte} {e e' : Enc}

/-! ## The operations that several labels share -/

theorem Enc.AgreeCore.emit (h : Enc.AgreeCore P e e') (bs : List Byte) :
    Enc.AgreeCore P (e.emit bs) (e'.emit bs) :=
  { h with out := by simp [h.out], op := by simp [h.op] }

theorem Enc.AgreeCore.insertPos (h : Enc.AgreeCore P e e') (p : Nat) :
    Enc.AgreeCore P (insertPos P src p e) (insertPos P src p e') :=
  { h with tab := by simpa [h.variant] using (h.variant ▸ h.tab).set _ (bucket_lt P _ src p) }

theorem Enc.AgreeCore.lookupPos_eq (h : Enc.AgreeCore P e e') (p : Nat) :
    lookupPos P src p e = lookupPos P src p e' := by
  unfold lookupPos
  rw [← h.variant, h.tab.get_eq (bucket_lt P _ src p)]

theorem Enc.AgreeCore.probe (h : Enc.AgreeCore P e e') (p : Nat) :
    Enc.AgreeCore P (probe P src p e).1 (probe P src p e').1 :=
  { h.insertPos p with }

theorem Enc.AgreeCore.probe_verify_eq (h : Enc.AgreeCore P e e') (p : Nat) :
    (Machine.probe P src p e).2 = (Machine.probe P src p e').2 := by
  rw [probe_verify, probe_verify, h.variant, h.lookupPos_eq]

theorem Enc.AgreeCore.encLitLen (h : Enc.AgreeCore P e e') (len : Nat) :
    Enc.AgreeCore P (encLitLen len e) (encLitLen len e') :=
  { h with out := by simp [h.out], op := by simp [h.op] }

/-! ## One lemma per label -/

theorem encSeed_agree (h : Enc.Agree P .seed e e') :
    Enc.AgreeAt P (encSeed P src e) (encSeed P src e') :=
  ⟨rfl, { h.toAgreeCore.insertPos 0 with
    ip := rfl, limits := fun _ => h.limits rfl, ref := nofun, tokpos := nofun, matchLen := nofun }⟩

/-- The attempts of one search agree; the loop's own registers agree from its start. -/
theorem searchLoop_agree (fuel : Nat) (h : Enc.AgreeCore P e e')
    (hlim : e.w.mflimit = e'.w.mflimit ∧ e.w.matchlimit = e'.w.matchlimit)
    (hatt : e.w.attempts = e'.w.attempts) (hfwd : e.w.fwd = e'.w.fwd) :
    Enc.AgreeAt P (searchLoop P src fuel e) (searchLoop P src fuel e') := by
  induction fuel generalizing e e' with
  | zero => exact ⟨rfl, h.toAgree (.inl rfl)⟩
  | succ fuel ih =>
    have hnext : Enc.AgreeCore P (e.nextAttempt P) (e'.nextAttempt P) := { h with ip := hfwd }
    have hnextFwd : (e.nextAttempt P).w.fwd = (e'.nextAttempt P).w.fwd := by
      simp [Enc.nextAttempt, hatt, hfwd]
    have hprobe := hnext.probe (src := src) e'.w.fwd
    rw [searchLoop_succ, searchLoop_succ, hlim.1, hnextFwd, hfwd, hnext.probe_verify_eq]
    split
    · exact ⟨rfl, hnext.toAgree (.inl rfl)⟩
    · split
      · exact ⟨rfl, { hprobe with
          limits := fun _ => hlim
          ref := fun _ => hnext.lookupPos_eq _
          tokpos := nofun
          matchLen := nofun }⟩
      · exact ih hprobe hlim (congrArg (· + 1) hatt) hnextFwd

theorem encSearch_agree (h : Enc.Agree P .search e e') :
    Enc.AgreeAt P (encSearch P src e) (encSearch P src e') := by
  unfold encSearch
  rw [h.n]
  exact searchLoop_agree _ { h with } (h.limits rfl) rfl h.ip

theorem encCatchUp_agree (h : Enc.Agree P .catchUp e e') :
    Enc.AgreeAt P (encCatchUp src e) (encCatchUp src e') := by
  unfold encCatchUp
  rw [h.anchor, h.ip, h.ref rfl]
  exact ⟨rfl, { h with
    ip := rfl, limits := fun _ => h.limits rfl, ref := fun _ => rfl, tokpos := nofun
    matchLen := nofun }⟩

theorem encEmitLiterals_agree (h : Enc.Agree P .emitLiterals e e') :
    Enc.AgreeAt P (encEmitLiterals src e) (encEmitLiterals src e') := by
  unfold encEmitLiterals
  rw [h.anchor, h.ip]
  exact ⟨rfl, { (h.toAgreeCore.encLitLen _).emit _ with
    limits := fun _ => h.limits rfl, ref := fun _ => h.ref rfl, tokpos := fun _ => h.op
    matchLen := nofun }⟩

theorem encEmitMatch_agree (h : Enc.Agree P .emitMatch e e') :
    Enc.AgreeAt P (encEmitMatch e) (encEmitMatch e') := by
  unfold encEmitMatch
  rw [h.ip, h.ref rfl]
  exact ⟨rfl, { h.toAgreeCore.emit _ with
    limits := fun _ => h.limits rfl, ref := fun _ => h.ref rfl, tokpos := fun _ => h.tokpos rfl
    matchLen := nofun }⟩

theorem encExtend_agree (h : Enc.Agree P .extend e e') :
    Enc.AgreeAt P (encExtend src e) (encExtend src e') := by
  unfold encExtend
  rw [h.ip, h.ref rfl, (h.limits rfl).2]
  exact ⟨rfl, { h with
    ip := rfl, limits := fun _ => h.limits rfl, ref := nofun, tokpos := fun _ => h.tokpos rfl
    matchLen := fun _ => rfl }⟩

theorem encEmitMatchlen_agree (h : Enc.Agree P .emitMatchlen e e') :
    Enc.AgreeAt P (encEmitMatchlen e) (encEmitMatchlen e') := by
  unfold encEmitMatchlen
  rw [h.matchLen rfl]
  exact ⟨rfl, { h with
    out := by simp [h.out, h.tokpos rfl], op := by simp [h.op], anchor := h.ip
    limits := fun _ => h.limits rfl, ref := nofun, tokpos := nofun, matchLen := nofun }⟩

theorem encAfterMatch_agree (h : Enc.Agree P .afterMatch e e') :
    Enc.AgreeAt P (encAfterMatch P src e) (encAfterMatch P src e') := by
  have hprobe := h.toAgreeCore.probe (src := src) e'.w.ip
  rw [encAfterMatch_eq, encAfterMatch_eq, (h.limits rfl).1, h.ip,
    h.toAgreeCore.probe_verify_eq]
  split
  · exact ⟨rfl, h.toAgreeCore.toAgree (.inl rfl)⟩
  · split
    · exact ⟨rfl, { hprobe.encLitLen 0 with
        limits := fun _ => h.limits rfl
        ref := fun _ => h.toAgreeCore.lookupPos_eq _
        tokpos := fun _ => h.op
        matchLen := nofun }⟩
    · exact ⟨rfl, { hprobe with
        ip := congrArg (· + 1) hprobe.ip, limits := fun _ => h.limits rfl, ref := nofun
        tokpos := nofun, matchLen := nofun }⟩

theorem encLastLiterals_agree (h : Enc.Agree P .lastLiterals e e') :
    Enc.AgreeAt P (encLastLiterals src e) (encLastLiterals src e') := by
  unfold encLastLiterals
  rw [h.n, h.anchor]
  exact ⟨rfl, ((h.toAgreeCore.encLitLen _).emit _).toAgree (.inr rfl)⟩

theorem encStep_agree {l : EncLabel} (h : Enc.Agree P l e e') :
    Enc.AgreeAt P (encStep P src l e) (encStep P src l e') := by
  cases l with
  | seed => exact encSeed_agree h
  | search => exact encSearch_agree h
  | catchUp => exact encCatchUp_agree h
  | emitLiterals => exact encEmitLiterals_agree h
  | emitMatch => exact encEmitMatch_agree h
  | extend => exact encExtend_agree h
  | emitMatchlen => exact encEmitMatchlen_agree h
  | afterMatch => exact encAfterMatch_agree h
  | lastLiterals => exact encLastLiterals_agree h
  | done => exact ⟨rfl, h⟩

end Steps

/-! ## Whole runs -/

/-- ENC_START writes the registers that the two runs need not have in common before. -/
theorem encStart_agree {P : Config.Params} {e e' : Enc} (n : Nat) (hout : e.out = e'.out)
    (hvar : e.w.variant = e'.w.variant)
    (htab : Tab.AgreeBelow (2 ^ hashLog P e.w.variant) e.tab e'.tab) :
    Enc.AgreeAt P (encStart P n e) (encStart P n e') := by
  unfold encStart
  split
  · exact ⟨rfl, ⟨⟨hout, rfl, hvar, rfl, rfl, rfl, htab⟩, nofun, nofun, nofun, nofun⟩⟩
  · exact ⟨rfl, ⟨⟨hout, rfl, hvar, rfl, rfl, rfl, htab⟩, fun _ => ⟨rfl, rfl⟩, nofun, nofun, nofun⟩⟩

theorem encRun_agree {P : Config.Params} {src : Nat → Byte} (k : Nat) {r r' : EncLabel × Enc}
    (h : Enc.AgreeAt P r r') : Enc.AgreeAt P (encRun P src k r) (encRun P src k r') := by
  induction k generalizing r r' with
  | zero => exact h
  | succ k ih =>
    obtain ⟨l, e⟩ := r
    obtain ⟨l', e'⟩ := r'
    obtain ⟨rfl, hagree⟩ : l = l' ∧ Enc.Agree P l e e' := h
    by_cases hl : l = .done
    · subst hl
      rw [encRun_done, encRun_done]
      exact ⟨rfl, hagree⟩
    · rw [encRun_succ hl, encRun_succ hl]
      exact ih (encStep_agree hagree)

/-- Two whole encodings of one input agree, whatever registers and table each found. -/
theorem encode_agree (P : Config.Params) (src : Nat → Byte) (n : Nat) (w w' : Work)
    (tab tab' : Tab) : Enc.AgreeAt P (encode P src n w tab) (encode P src n w' tab') :=
  encRun_agree _ (encStart_agree n rfl rfl (tableClear_agreeBelow P _ tab tab'))

/-- Settles O21: the two runs stay in agreement from ENC_START on, and the final label and the bytes
written are part of what they agree on. -/
theorem encoderIgnoresEarlierCommands : Obligations.EncoderIgnoresEarlierCommands := by
  intro P src n w w' tab tab' _
  obtain ⟨hlabel, hagree⟩ := encode_agree P src n w w' tab tab'
  exact ⟨hlabel, hagree.out⟩

end Sys2Proof.Machine
end

