-- ==== Sys2Proof/Proofs/DecoderStep.lean ====
section
/-! What a step of a running decoder can do, said once (`step_decodesTo`): the steps of a sequence keep
a frame (`Block.Frame`), and then the command goes on or ends. -/

namespace Sys2Proof.Machine

variable {P : Config.Params}

/-! ## The frame of a sequence's steps -/

/-- The cursors lie within their bounds. -/
abbrev Block.cursorsIn (s : Block P) : Prop :=
  s.work.ip ≤ s.work.ilim ∧ s.work.op ≤ s.work.oend

/-- What the steps of a sequence leave as it is on the way from `s` to `t`. The output cursor does not
go back, and the store changes only in DST's mapped bytes from the cursor up to the bound. -/
structure Block.Frame (s t : Block P) : Prop where
  setup : s.sameSetup t
  result : t.result = s.result
  status : t.status = s.status
  phase : t.phase = s.phase
  tab : t.tab = s.tab
  ilim : t.work.ilim = s.work.ilim
  oend : t.work.oend = s.work.oend
  op_le : s.work.op ≤ t.work.op
  dst : t.dst = s.dst
  read : ∀ a, s.outsideDst s.work.op (min s.work.oend s.dst.size) a → t.mem.read a = s.mem.read a
  wf : s.mem.wf → t.mem.wf

/-- A change of working registers that keeps the bounds and does not take the output cursor back. -/
theorem Block.Frame.of_work (s : Block P) (w : Work) (hilim : w.ilim = s.work.ilim)
    (hoend : w.oend = s.work.oend) (hop : s.work.op ≤ w.op) : s.Frame { s with work := w } where
  setup := ⟨rfl, rfl, rfl, rfl, rfl, rfl, rfl⟩
  result := rfl
  status := rfl
  phase := rfl
  tab := rfl
  ilim := hilim
  oend := hoend
  op_le := hop
  dst := rfl
  read _ _ := rfl
  wf := id

theorem Block.Frame.refl (s : Block P) : s.Frame s := .of_work s s.work rfl rfl (Nat.le_refl _)

/-- What lies outside the range of the whole frame lies outside the range that is left. -/
theorem Block.Frame.outside {s t : Block P} (h : s.Frame t) {a : Nat}
    (ha : s.outsideDst s.work.op (min s.work.oend s.dst.size) a) :
    t.outsideDst t.work.op (min t.work.oend t.dst.size) a := by
  have hop := h.op_le
  rw [Block.outsideDst, h.dst, h.oend]
  unfold Block.outsideDst at ha
  omega

theorem Block.Frame.trans {s t u : Block P} (hst : s.Frame t) (htu : t.Frame u) : s.Frame u where
  setup := by
    obtain ⟨h1, h2, h3, h4, h5, h6, h7⟩ := hst.setup
    obtain ⟨k1, k2, k3, k4, k5, k6, k7⟩ := htu.setup
    exact ⟨k1.trans h1, k2.trans h2, k3.trans h3, k4.trans h4, k5.trans h5, k6.trans h6, k7.trans h7⟩
  result := htu.result.trans hst.result
  status := htu.status.trans hst.status
  phase := htu.phase.trans hst.phase
  tab := htu.tab.trans hst.tab
  ilim := htu.ilim.trans hst.ilim
  oend := htu.oend.trans hst.oend
  op_le := hst.op_le.trans htu.op_le
  dst := htu.dst.trans hst.dst
  read a ha := (htu.read a (hst.outside ha)).trans (hst.read a ha)
  wf := htu.wf ∘ hst.wf

/-- A run of `k` bytes that the bound and the mapped bytes have room for lies inside the frame. -/
theorem Block.outside_of_room {s : Block P} {k a : Nat} (hoend : s.work.op + k ≤ s.work.oend)
    (hroom : s.roomInDst k = true)
    (ha : s.outsideDst s.work.op (min s.work.oend s.dst.size) a) :
    a < s.dst.base + s.work.op ∨ s.dst.base + s.work.op + k ≤ a := by
  have hroom' : k = 0 ∨ s.work.op + k ≤ s.dst.size := by simpa [Block.roomInDst] using hroom
  unfold Block.outsideDst at ha
  omega

/-! ## Steps that keep the frame -/

/-- The step keeps the frame however it ends, and the cursors stay within their bounds where it goes
on. -/
structure KeepsFrame (f : Block P → Flow P) : Prop where
  go : ∀ {s t}, f s = .go t → s.Frame t ∧ (s.cursorsIn → t.cursorsIn)
  raised : ∀ {s t c}, f s = .raised c t → s.Frame t

theorem KeepsFrame.andThen {f k : Block P → Flow P} (hf : KeepsFrame f) (hk : KeepsFrame k) :
    KeepsFrame fun s => (f s).andThen k where
  go h := by
    obtain ⟨u, hfu, hku⟩ := Flow.andThen_eq_go.1 h
    exact ⟨(hf.go hfu).1.trans (hk.go hku).1, (hk.go hku).2 ∘ (hf.go hfu).2⟩
  raised h := by
    obtain hfr | ⟨u, hfu, hku⟩ := Flow.andThen_eq_raised.1 h
    · exact hf.raised hfr
    · exact (hf.go hfu).1.trans (hk.raised hku)

theorem takeToken_frame (b : Byte) (s : Block P) : s.Frame (takeToken b s) :=
  .of_work s _ rfl rfl (Nat.le_refl _)

theorem setLitLen_frame (v : Nat) (s : Block P) : s.Frame (setLitLen v s) :=
  .of_work s _ rfl rfl (Nat.le_refl _)

theorem setMatchLen_frame (v : Nat) (s : Block P) : s.Frame (setMatchLen v s) :=
  .of_work s _ rfl rfl (Nat.le_refl _)

theorem advance_frame (k : Nat) (s : Block P) : s.Frame (advance k s) :=
  .of_work s _ rfl rfl (Nat.le_refl _)

theorem litShort_keepsFrame (ll : BitVec 4) : KeepsFrame (P := P) (litShort ll) where
  go := by
    rintro s _ ⟨⟩
    exact ⟨setLitLen_frame _ s, id⟩
  raised := nofun

theorem matchShort_keepsFrame (ml : BitVec 4) : KeepsFrame (P := P) (matchShort ml) where
  go := by
    rintro s _ ⟨⟩
    exact ⟨setMatchLen_frame _ s, id⟩
  raised := nofun

/-- An extension takes no more bytes than there are. -/
theorem extSum_count_le {bs : List Byte} {v k : Nat} (h : extSum bs = some (v, k)) :
    k ≤ bs.length := by
  induction bs generalizing v k with
  | nil => simp [extSum] at h
  | cons b bs ih =>
    rw [extSum] at h
    split at h
    · cases hrest : extSum bs with
      | none => simp [hrest] at h
      | some r =>
        obtain ⟨v', k'⟩ := r
        have hk' := ih hrest
        simp only [hrest, Option.some.injEq, Prod.mk.injEq] at h
        rw [List.length_cons]
        omega
    · simp only [Option.some.injEq, Prod.mk.injEq] at h
      rw [List.length_cons]
      omega

/-- DEC_EXT keeps the frame when storing the length does; it reads no byte at or behind the read
limit. -/
theorem decExt_keepsFrame {set : Nat → Block P → Block P}
    (hset : ∀ v s, s.Frame (set v s) ∧ (s.cursorsIn → (set v s).cursorsIn)) :
    KeepsFrame (decExt set) where
  go {s t} h := by
    obtain ⟨v, k, hext, rfl⟩ := decExt_go.1 h
    have hk : k ≤ s.work.ilim - s.work.ip :=
      (extSum_count_le hext).trans (s.srcBytes_length_le _ _)
    obtain ⟨hframe, hcur⟩ := hset (Config.nibbleMax + v) (advance k s)
    exact ⟨(advance_frame k s).trans hframe,
      fun ⟨hip, hop⟩ => hcur ⟨show s.work.ip + k ≤ s.work.ilim by omega, hop⟩⟩
  raised h := by
    obtain ⟨-, -, -, rfl⟩ := decExt_raised.1 h
    exact advance_frame _ _

theorem matchExtended_keepsFrame : KeepsFrame (P := P) matchExtended :=
  decExt_keepsFrame fun v s => ⟨setMatchLen_frame v s, id⟩

theorem litExtended_keepsFrame : KeepsFrame (P := P) litExtended :=
  KeepsFrame.andThen (f := fun s => .go (setLitLen Config.nibbleMax s))
    { go := by
        rintro s _ ⟨⟩
        exact ⟨setLitLen_frame _ s, id⟩
      raised := nofun }
    (decExt_keepsFrame fun v s => ⟨setLitLen_frame v s, id⟩)

theorem readOffset_keepsFrame : KeepsFrame (P := P) readOffset where
  go {s t} h := by
    obtain ⟨v, hlim, -, -, rfl⟩ := readOffset_go.1 h
    exact ⟨.of_work s _ rfl rfl (Nat.le_refl _), fun hcur => ⟨hlim, hcur.2⟩⟩
  raised {s t c} h := by
    obtain ⟨-, -, rfl⟩ | ⟨v, -, -, -, -, rfl⟩ := readOffset_raised.1 h
    · exact .refl _
    · exact .of_work s _ rfl rfl (Nat.le_refl _)

theorem copyLiterals_keepsFrame : KeepsFrame (P := P) copyLiterals where
  go {s t} h := by
    have hwf := wf_copyLiterals h
    obtain ⟨m, hoend, hilim, -, hroom, hcopy, rfl⟩ := copyLiterals_go.1 h
    refine ⟨{ Block.Frame.of_work s
      { s.work with op := s.work.op + s.work.litLen, ip := s.work.ip + s.work.litLen }
      rfl rfl (Nat.le_add_right _ _) with read := fun a ha => ?_, wf := hwf },
      fun _ => ⟨hilim, hoend⟩⟩
    exact Memory.read_copy_outside hcopy (Block.outside_of_room hoend hroom ha)
  raised h := by
    obtain ⟨rfl, -⟩ := copyLiterals_raised.1 h
    exact .refl _

/-- The bytes under a match with offset 0 lie inside the frame as those of any other match do. -/
theorem copyMatch_keepsFrame : KeepsFrame (P := P) copyMatch where
  go {s t} h := by
    have hwf := wf_copyMatch h
    have moved := Block.Frame.of_work s { s.work with op := s.work.op + s.work.matchLen } rfl rfl
      (Nat.le_add_right _ _)
    obtain ⟨hoend, hroom, ⟨-, rfl⟩ | ⟨-, m, hcopy, rfl⟩⟩ := copyMatch_go.1 h
    · refine ⟨{ moved with read := fun a ha => ?_, wf := hwf }, fun hcur => ⟨hcur.1, hoend⟩⟩
      exact Memory.read_writeBytes_outside _ _ _ _
        (by simpa using Block.outside_of_room hoend hroom ha)
    · refine ⟨{ moved with read := fun a ha => ?_, wf := hwf }, fun hcur => ⟨hcur.1, hoend⟩⟩
      exact Memory.read_copy_outside hcopy (Block.outside_of_room hoend hroom ha)
  raised h := by
    obtain ⟨-, -, rfl⟩ := copyMatch_raised.1 h
    exact .refl _

/-! ## The ends of a decoder command -/

/-- A decoder command ends with this RESULT and STATUS; DST's bytes behind the cursor become free. -/
def Block.decodeEnd (s : Block P) (result status : Word P.xlen) : Block P :=
  { s.scratchDst s.work.op s.work.oend with result := result, status := status, phase := .idle }

theorem Block.decodeFinish_eq (s : Block P) :
    s.decodeFinish = s.decodeEnd (BitVec.ofNat P.xlen s.finishValue) causeOk := rfl

theorem Block.decodeRaise_eq (s : Block P) (c : Cause) :
    s.decodeRaise c = s.decodeEnd (neg32 s.work.ip) (causeCode c) := rfl

theorem causeOk_le_four {x : Nat} : (causeOk : Word x).toNat ≤ 4 := by simp [causeOk]

theorem causeCode_le_four {x : Nat} (c : Cause) : (causeCode c : Word x).toNat ≤ 4 := by
  have reduced (v : Nat) (hv : v ≤ 4) : (BitVec.ofNat x v).toNat ≤ 4 := by
    rw [BitVec.toNat_ofNat]
    exact (Nat.mod_le _ _).trans hv
  cases c with
  | outputOverflow => exact reduced 1 (by decide)
  | backReferenceUnderflow => exact reduced 2 (by decide)
  | invalidArgument => exact reduced 3 (by decide)
  | sourceExhausted => exact reduced 4 (by decide)

/-- The end of a command changes the store only in DST's mapped bytes from the cursor up to the
bound. -/
theorem Block.read_decodeEnd (s : Block P) (r st : Word P.xlen) (a : Nat)
    (ha : s.outsideDst s.work.op (min s.work.oend s.dst.size) a) :
    (s.decodeEnd r st).mem.read a = s.mem.read a := by
  refine Memory.read_writeBytes_outside _ _ _ _ ?_
  rw [freeBytes_length]
  unfold Block.outsideDst at ha
  omega

theorem Block.wf_decodeEnd {s : Block P} (r st : Word P.xlen) (h : s.mem.wf) :
    (s.decodeEnd r st).mem.wf :=
  s.wf_scratchDst s.work.op s.work.oend h

/-! ## What a decoder step can do -/

/-- From `s` some steps that keep the frame come to a block `u`; either the command goes on in `u`, or
it ends there with one of the codes of STATUS. -/
def Block.DecodesTo (s t : Block P) : Prop :=
  ∃ u, s.Frame u ∧
    ((t = u ∧ (s.cursorsIn → u.cursorsIn)) ∨
      ∃ r st : Word P.xlen, st.toNat ≤ 4 ∧ t = u.decodeEnd r st)

theorem Block.Frame.decodesTo_decodeFinish {s u : Block P} (h : s.Frame u) :
    s.DecodesTo u.decodeFinish :=
  ⟨u, h, .inr ⟨_, _, causeOk_le_four, u.decodeFinish_eq⟩⟩

theorem Block.Frame.decodesTo_decodeRaise {s u : Block P} (h : s.Frame u) (c : Cause) :
    s.DecodesTo (u.decodeRaise c) :=
  ⟨u, h, .inr ⟨_, _, causeCode_le_four c, u.decodeRaise_eq c⟩⟩

/-- The steps after the control byte, for a sequence with a match. -/
theorem KeepsFrame.outcome_decodesTo {f : Block P → Flow P} (hf : KeepsFrame f) {b : Byte}
    {s t : Block P} (hip : s.work.ip < s.work.ilim)
    (h : (f (takeToken b s)).outcome = .next ⟨P, t⟩) : s.DecodesTo t := by
  obtain hgo | ⟨c, u, hraised, rfl⟩ := Flow.outcome_eq_next.1 h
  · obtain ⟨hframe, hcur⟩ := hf.go hgo
    exact ⟨t, (takeToken_frame b s).trans hframe, .inl ⟨rfl, fun hs => hcur ⟨hip, hs.2⟩⟩⟩
  · exact ((takeToken_frame b s).trans (hf.raised hraised)).decodesTo_decodeRaise c

/-- The steps after the control byte, for a terminal sequence. -/
theorem KeepsFrame.terminal_decodesTo {f : Block P → Flow P} (hf : KeepsFrame f) {b : Byte}
    {s t : Block P} (h : (f (takeToken b s)).terminal = .next ⟨P, t⟩) : s.DecodesTo t := by
  obtain ⟨u, hgo, rfl⟩ | ⟨c, u, hraised, rfl⟩ := Flow.terminal_eq_next.1 h
  · exact ((takeToken_frame b s).trans (hf.go hgo).1).decodesTo_decodeFinish
  · exact ((takeToken_frame b s).trans (hf.raised hraised)).decodesTo_decodeRaise c

/-- The steps of a sequence with a match, behind its control byte: the two length fields differ from
form to form. -/
def seqSteps (readLit readMatch : Block P → Flow P) (s : Block P) : Flow P :=
  ((((readLit s).andThen copyLiterals).andThen readOffset).andThen readMatch).andThen copyMatch

theorem exec_seqSS (ll ml : BitVec 4) (s : Block P) :
    exec (.seqSS ll ml) ⟨P, s⟩ =
      (seqSteps (litShort ll) (matchShort ml) (takeToken (token ll ml) s)).outcome := rfl

theorem exec_seqXS (ml : BitVec 4) (s : Block P) :
    exec (.seqXS ml) ⟨P, s⟩ =
      (seqSteps litExtended (matchShort ml) (takeToken (token 15 ml) s)).outcome := rfl

theorem exec_seqSX (ll : BitVec 4) (s : Block P) :
    exec (.seqSX ll) ⟨P, s⟩ =
      (seqSteps (litShort ll) matchExtended (takeToken (token ll 15) s)).outcome := rfl

theorem exec_seqXX (s : Block P) :
    exec .seqXX ⟨P, s⟩ =
      (seqSteps litExtended matchExtended (takeToken (token 15 15) s)).outcome := rfl

theorem seqSteps_keepsFrame {readLit readMatch : Block P → Flow P} (hlit : KeepsFrame readLit)
    (hmatch : KeepsFrame readMatch) : KeepsFrame (seqSteps readLit readMatch) :=
  (((hlit.andThen copyLiterals_keepsFrame).andThen readOffset_keepsFrame).andThen hmatch).andThen
    copyMatch_keepsFrame

/-- Whether the instruction is a command of the host, and not a sequence of the stream. -/
def isCommand : Instr → Bool
  | .compress | .decompressFixed | .decompressUnknown => true
  | _ => false

theorem sequenceForm_not_command (terminal : Bool) (t : Byte) :
    isCommand (sequenceForm terminal t) = false := by
  unfold sequenceForm
  split_ifs <;> rfl

/-- A sequence form, met where there is a control byte to read. -/
theorem exec_sequence_decodesTo {i : Instr} (hi : isCommand i = false) {s t : Block P}
    (hip : s.work.ip < s.work.ilim) (h : exec i ⟨P, s⟩ = .next ⟨P, t⟩) : s.DecodesTo t := by
  cases i with
  | compress | decompressFixed | decompressUnknown => cases hi
  | seqSS ll ml =>
    exact (seqSteps_keepsFrame (litShort_keepsFrame ll)
      (matchShort_keepsFrame ml)).outcome_decodesTo hip (exec_seqSS ll ml s ▸ h)
  | seqXS ml =>
    exact (seqSteps_keepsFrame litExtended_keepsFrame
      (matchShort_keepsFrame ml)).outcome_decodesTo hip (exec_seqXS ml s ▸ h)
  | seqSX ll =>
    exact (seqSteps_keepsFrame (litShort_keepsFrame ll)
      matchExtended_keepsFrame).outcome_decodesTo hip (exec_seqSX ll s ▸ h)
  | seqXX =>
    exact (seqSteps_keepsFrame litExtended_keepsFrame
      matchExtended_keepsFrame).outcome_decodesTo hip (exec_seqXX s ▸ h)
  | lastS ll x =>
    exact ((litShort_keepsFrame ll).andThen copyLiterals_keepsFrame).terminal_decodesTo h
  | lastX x => exact (litExtended_keepsFrame.andThen copyLiterals_keepsFrame).terminal_decodesTo h

/-- A step of a running decoder ends the command at the top of the loop, or runs a sequence. -/
theorem step_decodesTo {s t : Block P} (hrun : s.phase ≠ .idle)
    (h : step ⟨P, s⟩ = .next ⟨P, t⟩) : s.DecodesTo t := by
  rw [step_mk, Block.step_running hrun] at h
  obtain hended | ⟨i, hseq, hexec⟩ := decoderStep_next.1 h
  · obtain ⟨-, -, rfl⟩ | ⟨-, -, rfl⟩ := Block.fetch_ended.1 hended
    · exact (Block.Frame.refl s).decodesTo_decodeFinish
    · exact (Block.Frame.refl s).decodesTo_decodeRaise _
  · obtain ⟨hip, hdec⟩ := Block.fetch_sequence.1 hseq
    obtain ⟨b, rest, -, rfl⟩ := decodeSequence_ok.1 hdec
    exact exec_sequence_decodesTo (sequenceForm_not_command _ b) hip hexec

/-- Settles O15: a decoder step goes on in the frame of its sequence, or ends the command, which adds
RESULT, STATUS, the phase and free bytes within the same range of DST. -/
theorem decoderStepFrame : Obligations.DecoderStepFrame := by
  intro P s t hrun h
  obtain ⟨u, hframe, ⟨rfl, -⟩ | ⟨r, st, -, rfl⟩⟩ := step_decodesTo hrun h
  · exact ⟨hframe.setup, hframe.tab, .inl hframe.phase, fun _ => ⟨hframe.result, hframe.status⟩,
      hframe.read⟩
  · exact ⟨hframe.setup, hframe.tab, .inr rfl, fun hphase => absurd hphase.symm hrun, fun a ha =>
      (u.read_decodeEnd r st a (hframe.outside ha)).trans (hframe.read a ha)⟩

end Sys2Proof.Machine
end

