-- ==== Sys2Proof/Proofs/HostStep.lean ====
section
/-! What a step of an idle block can do, said once: the host's action is a command, a reset, or a
change that leaves RESULT, STATUS and the block's own state alone. -/

namespace Sys2Proof.Machine

variable {P : Config.Params}

/-! ## CHECK_ARGS -/

/-- The signed reading of `45_commands.md` R281 is the two's-complement one. -/
theorem signed_eq_toInt {x : Nat} (v : Word x) : signed v = v.toInt := by
  have hv := v.isLt
  rw [signed, BitVec.toInt_eq_toNat_cond, Nat.cast_pow, Nat.cast_ofNat]
  cases x with
  | zero => simp_all
  | succ x =>
    have hpow : 2 ^ (x + 1) = 2 * 2 ^ x := Nat.pow_succ'
    rw [Nat.add_sub_cancel]
    split <;> split <;> omega

/-- A register that is not negative holds at most MAX_LEN. -/
theorem toNat_le_maxLen {x : Nat} {v : Word x} (h : 0 ≤ signed v) :
    v.toNat ≤ Config.maxLen x := by
  have hv : (v.toNat : Int) < 2 ^ x := mod_cast v.isLt
  unfold signed at h
  unfold Config.maxLen
  split at h <;> omega

theorem Block.badDecompress_eq_false {s : Block P} :
    s.badDecompress = false ↔ s.decompressArgs := by
  simp [Block.badDecompress, Block.badSource, Block.decompressArgs, signed_eq_toInt, and_assoc]

/-! ## Commands -/

/-- Only the three commands are decoded from a command word (`30_encoding.md` R91). -/
theorem decodeCommand_isCommand {x : Nat} {w : Word x} {i : Instr}
    (h : decodeCommand w = .ok i) : isCommand i = true := by
  unfold decodeCommand at h
  split_ifs at h <;> cases h <;> rfl

/-- What a write to `x[CMD]` can do: it is refused with InvalidArgument, it starts a decoder, or it
runs a COMPRESS to its end. -/
theorem startCommand_next {w : Word P.xlen} {s t : Block P}
    (h : startCommand w s = .next ⟨P, t⟩) :
    t = s.raise .invalidArgument 0 ∨
      (s.decompressArgs ∧ ∃ p, t = s.startDecoder p) ∨
      t = s.compressed (encode P s.srcFun s.srcLen.toNat s.work s.tab).2 := by
  have decoder {p : Phase} (h : s.startDecompress p = .next ⟨P, t⟩) :
      t = s.raise .invalidArgument 0 ∨ (s.decompressArgs ∧ ∃ p, t = s.startDecoder p) := by
    obtain ⟨-, ht⟩ | ⟨hargs, -, ht⟩ := Block.startDecompress_next.1 h
    · exact .inl ht
    · exact .inr ⟨Block.badDecompress_eq_false.1 hargs, p, ht⟩
  unfold startCommand at h
  cases hdec : decodeCommand w with
  | error _ =>
    rw [hdec] at h
    exact .inl (next_mk_inj.1 h).symm
  | ok i =>
    rw [hdec] at h
    have hi := decodeCommand_isCommand hdec
    cases i with
    | compress =>
      obtain ⟨-, ht⟩ | ⟨-, -, -, -, ht⟩ := Block.compress_next.1 h
      · exact .inl ht
      · exact .inr (.inr ht)
    | decompressFixed | decompressUnknown => exact (decoder h).imp_right .inl
    | _ => cases hi

theorem Block.raise_sameSetup (s : Block P) (c : Cause) (n : Nat) : s.sameSetup (s.raise c n) :=
  ⟨rfl, rfl, rfl, rfl, rfl, rfl, rfl⟩

theorem Block.startDecoder_sameSetup (s : Block P) (p : Phase) : s.sameSetup (s.startDecoder p) :=
  ⟨rfl, rfl, rfl, rfl, rfl, rfl, rfl⟩

theorem Block.compressed_sameSetup (s : Block P) (e : Enc) : s.sameSetup (s.compressed e) :=
  ⟨rfl, rfl, rfl, rfl, rfl, rfl, rfl⟩

/-- A command writes none of `x[1]` to `x[4]` (`10_state.md` R52). -/
theorem startCommand_sameSetup {w : Word P.xlen} {s t : Block P}
    (h : startCommand w s = .next ⟨P, t⟩) : s.sameSetup t := by
  obtain rfl | ⟨-, p, rfl⟩ | rfl := startCommand_next h
  · exact s.raise_sameSetup _ _
  · exact s.startDecoder_sameSetup p
  · exact s.compressed_sameSetup _

/-- A command that changes RESULT or STATUS in its first step also ends there. -/
theorem startCommand_phase {w : Word P.xlen} {s t : Block P}
    (h : startCommand w s = .next ⟨P, t⟩) (hne : t.result ≠ s.result ∨ t.status ≠ s.status) :
    t.phase = .idle := by
  obtain rfl | ⟨-, p, rfl⟩ | rfl := startCommand_next h
  · rfl
  · simp at hne
  · rfl

/-! ## Host actions -/

/-- What a host action leaves alone that is neither a command nor a reset. -/
structure Block.HostFrame (s t : Block P) : Prop where
  result : t.result = s.result
  status : t.status = s.status
  phase : t.phase = s.phase
  tab : t.tab = s.tab
  wf : s.mem.wf → t.mem.wf

theorem writeRegister_hostFrame {r : Nat} {v : Word P.xlen} {s t : Block P} (hr : r ≠ 0)
    (h : writeRegister r v s = .next ⟨P, t⟩) : s.HostFrame t := by
  unfold writeRegister at h
  split at h
  · exact absurd rfl hr
  all_goals cases h
  all_goals exact ⟨rfl, rfl, rfl, rfl, id⟩

theorem readRegister_hostFrame {r : Nat} {s t : Block P}
    (h : readRegister r s = .next ⟨P, t⟩) : s.HostFrame t := by
  unfold readRegister at h
  split at h
  all_goals cases h
  all_goals exact ⟨rfl, rfl, rfl, rfl, id⟩

/-- A host action that gives a next state is a command, a reset, or leaves the block's own state
alone. -/
theorem hostAct_next {a : HostAction P.xlen} {s t : Block P} (h : hostAct a s = .next ⟨P, t⟩) :
    (∃ w, a = .writeReg 0 w ∧ startCommand w s = .next ⟨P, t⟩) ∨
      (a = .reset ∧ t = s.resetBlock) ∨ s.HostFrame t := by
  cases a with
  | writeReg r v =>
    by_cases hr : r = 0
    · subst hr
      exact .inl ⟨v, rfl, h⟩
    · exact .inr (.inr (writeRegister_hostFrame hr h))
  | readReg r => exact .inr (.inr (readRegister_hostFrame h))
  | storeByte addr b =>
    cases h
    exact .inr (.inr ⟨rfl, rfl, rfl, rfl, Memory.wf_write addr b⟩)
  | mapBuffer w =>
    cases h
    exact .inr (.inr ⟨rfl, rfl, rfl, rfl, id⟩)
  | reset => exact .inr (.inl ⟨rfl, (next_mk_inj.1 h).symm⟩)

/-- A step of an idle block takes the oldest host action, which is a command, a reset, or leaves the
block's own state alone; with none pending that holds of the step, too. -/
theorem step_idle_next {s t : Block P} (hidle : s.phase = .idle)
    (h : step ⟨P, s⟩ = .next ⟨P, t⟩) :
    (∃ w rest, s.host = .writeReg 0 w :: rest ∧
        startCommand w { s with host := rest } = .next ⟨P, t⟩) ∨
      (∃ rest, s.host = .reset :: rest ∧ t = Block.resetBlock { s with host := rest }) ∨
      s.HostFrame t := by
  rw [step_mk, Block.step_idle hidle] at h
  obtain ⟨-, rfl⟩ | ⟨a, rest, hhost, hact⟩ := idleStep_next.1 h
  · exact .inr (.inr ⟨rfl, rfl, rfl, rfl, id⟩)
  · obtain ⟨w, rfl, hw⟩ | ⟨rfl, rfl⟩ | hframe := hostAct_next hact
    · exact .inl ⟨w, rest, hhost, hw⟩
    · exact .inr (.inl ⟨rest, hhost, rfl⟩)
    · exact .inr (.inr ⟨hframe.result, hframe.status, hframe.phase, hframe.tab, hframe.wf⟩)

/-- The step that takes a given host action. -/
theorem step_of_host {s : Block P} {a : HostAction P.xlen} {rest : List (HostAction P.xlen)}
    (hidle : s.phase = .idle) (hhost : s.host = a :: rest) :
    step ⟨P, s⟩ = hostAct a { s with host := rest } := by
  rw [step_mk, Block.step_idle hidle, idleStep, hhost]

/-! ## The registers across commands -/

/-- In a running command and in the step that starts one, `x[1]` to `x[4]` stay. -/
theorem step_command_sameRegisters {s t : Block P}
    (hcmd : s.phase ≠ .idle ∨ ∃ w rest, s.host = .writeReg 0 w :: rest)
    (h : step ⟨P, s⟩ = .next ⟨P, t⟩) :
    t.srcBase = s.srcBase ∧ t.srcLen = s.srcLen ∧ t.dstBase = s.dstBase ∧ t.dstLen = s.dstLen := by
  by_cases hidle : s.phase = .idle
  · obtain ⟨w, rest, hhost⟩ := hcmd.resolve_left (not_not.2 hidle)
    rw [step_of_host hidle hhost] at h
    obtain ⟨hsb, hsl, hdb, hdl, -⟩ := startCommand_sameSetup (w := w) h
    exact ⟨hsb, hsl, hdb, hdl⟩
  · obtain ⟨⟨hsb, hsl, hdb, hdl, -⟩, -⟩ := decoderStepFrame P s t hidle h
    exact ⟨hsb, hsl, hdb, hdl⟩

/-- Settles O14: RESULT and STATUS change in the last step of a decoder, in a write to `x[CMD]` that
ends at once, or in a reset; every other step keeps them. -/
theorem registersKeptAcrossCommands : Obligations.RegistersKeptAcrossCommands := by
  intro P s t h
  refine ⟨fun hcmd => step_command_sameRegisters hcmd h, fun hne => ?_⟩
  by_cases hidle : s.phase = .idle
  · obtain ⟨w, rest, hhost, hw⟩ | ⟨rest, hhost, rfl⟩ | hframe := step_idle_next hidle h
    · exact ⟨startCommand_phase hw hne, .inr (.inl ⟨w, rest, hhost⟩)⟩
    · exact ⟨rfl, .inr (.inr ⟨rest, hhost⟩)⟩
    · exact absurd hne (by simp [hframe.result, hframe.status])
  · obtain ⟨-, -, hphase, hkept, -⟩ := decoderStepFrame P s t hidle h
    refine ⟨hphase.resolve_left fun hsame => ?_, .inl hidle⟩
    obtain ⟨hres, hstat⟩ := hkept hsame
    exact absurd hne (by simp [hres, hstat])

/-- Settles O26: with good arguments and disjoint buffers, DEC_START is all that the two commands do. -/
theorem decompressCommandsStart : Obligations.DecompressCommandsStart := by
  intro P s hargs hdisj
  have start (p : Phase) : s.startDecompress p = .next ⟨P, s.startDecoder p⟩ :=
    Block.startDecompress_next.2
      (.inr ⟨Block.badDecompress_eq_false.2 hargs, Block.overlap_eq_false.2 hdisj, rfl⟩)
  exact ⟨start .fixed, start .unknown⟩

end Sys2Proof.Machine
end

