-- ==== Sys2Proof/Proofs/Invariant.lean ====
section
/-! The invariant of `Safety.lean`: it holds after reset, and every step keeps it. The table is changed
by the encoder alone and the cursors by the decoder alone, so each has its own lemma. -/

namespace Sys2Proof.Machine

variable {P : Config.Params}

/-! ## The table -/

/-- The part of the invariant about TAB: the canonical form, indices within the larger geometry, and
positions that fit the wider entry (`10_state.md` R43, R44). -/
def Tab.InBounds (P : Config.Params) (t : Tab) : Prop :=
  Tab.wf t ∧ ∀ e ∈ t, e.1 < 2 ^ max P.hashLogNarrow P.hashLogWide ∧
    e.2 < 2 ^ max Config.entryWNarrow P.entryWWide

theorem hashLog_le_max (P : Config.Params) (v : Variant) :
    hashLog P v ≤ max P.hashLogNarrow P.hashLogWide := by
  cases v
  · exact Nat.le_max_left _ _
  · exact Nat.le_max_right _ _

theorem entryW_le_max (P : Config.Params) (v : Variant) :
    entryW P v ≤ max Config.entryWNarrow P.entryWWide := by
  cases v
  · exact Nat.le_max_left _ _
  · exact Nat.le_max_right _ _

theorem Tab.inBounds_nil : Tab.InBounds P [] := ⟨⟨List.Pairwise.nil, nofun⟩, nofun⟩

theorem Tab.InBounds.tableClear {t : Tab} (h : Tab.InBounds P t) (v : Variant) :
    Tab.InBounds P (tableClear P v t) := by
  obtain ⟨⟨hsorted, hpos⟩, hbounds⟩ := h
  exact ⟨⟨Assoc.wf_filter _ hsorted, fun e he => hpos e (List.mem_of_mem_filter he)⟩,
    fun e he => hbounds e (List.mem_of_mem_filter he)⟩

/-- INSERT writes at a bucket, and the low bits of a position (log 28). -/
theorem Tab.InBounds.insertPos {e : Enc} (h : Tab.InBounds P e.tab) (src : Nat → Byte) (p : Nat) :
    Tab.InBounds P (insertPos P src p e).tab := by
  rw [insertPos_tab]
  refine ⟨Tab.wf_set _ _ h.1, fun x hx => ?_⟩
  obtain rfl | hx := Tab.mem_set hx
  · exact ⟨(bucket_lt P _ src p).trans_le (Nat.pow_le_pow_right (by decide) (hashLog_le_max P _)),
      (Nat.mod_lt _ (Nat.two_pow_pos _)).trans_le
        (Nat.pow_le_pow_right (by decide) (entryW_le_max P _))⟩
  · exact h.2 x hx

theorem searchLoop_tab_inBounds (src : Nat → Byte) (fuel : Nat) {e : Enc}
    (h : Tab.InBounds P e.tab) : Tab.InBounds P (searchLoop P src fuel e).2.tab := by
  induction fuel generalizing e with
  | zero => exact h
  | succ fuel ih =>
    have hprobe : Tab.InBounds P (probe P src e.w.fwd (e.nextAttempt P)).1.tab :=
      Tab.InBounds.insertPos (e := e.nextAttempt P) h src _
    rw [searchLoop_succ]
    split
    · exact h
    · split
      · exact hprobe
      · exact ih hprobe

theorem encAfterMatch_tab_inBounds (src : Nat → Byte) {e : Enc} (h : Tab.InBounds P e.tab) :
    Tab.InBounds P (encAfterMatch P src e).2.tab := by
  have hprobe : Tab.InBounds P (probe P src e.w.ip e).1.tab := h.insertPos src _
  rw [encAfterMatch_eq]
  split
  · exact h
  · split <;> exact hprobe

/-- Three labels insert positions into the table; the others do not touch it. -/
theorem encStep_tab_inBounds (src : Nat → Byte) (l : EncLabel) {e : Enc}
    (h : Tab.InBounds P e.tab) : Tab.InBounds P (encStep P src l e).2.tab := by
  cases l with
  | seed => exact h.insertPos src 0
  | search => exact searchLoop_tab_inBounds src _ h
  | afterMatch => exact encAfterMatch_tab_inBounds src h
  | catchUp | emitLiterals | emitMatch | extend | emitMatchlen | lastLiterals | done => exact h

theorem encRun_tab_inBounds (src : Nat → Byte) (k : Nat) {r : EncLabel × Enc}
    (h : Tab.InBounds P r.2.tab) : Tab.InBounds P (encRun P src k r).2.tab := by
  induction k generalizing r with
  | zero => exact h
  | succ k ih =>
    rw [encRun]
    split
    · exact h
    · exact ih (encStep_tab_inBounds src r.1 h)

theorem encStart_tab (P : Config.Params) (n : Nat) (e : Enc) : (encStart P n e).2.tab = e.tab := by
  unfold encStart
  split <;> rfl

theorem encode_tab_inBounds (src : Nat → Byte) (n : Nat) (w : Work) {t : Tab}
    (h : Tab.InBounds P t) : Tab.InBounds P (encode P src n w t).2.tab := by
  refine encRun_tab_inBounds src _ ?_
  rw [encStart_tab]
  exact h.tableClear _

/-! ## The invariant by its parts -/

theorem Block.inv_iff {s : Block P} :
    s.inv ↔ s.mem.wf ∧ Tab.InBounds P s.tab ∧ s.status.toNat ≤ 4 ∧
      (s.phase ≠ .idle → s.cursorsOk) := by
  unfold Block.inv Tab.InBounds
  simp only [and_assoc]

/-- An idle block has no cursors to keep in bounds. -/
theorem Block.inv_of_idle {s : Block P} (hidle : s.phase = .idle) (hmem : s.mem.wf)
    (htab : Tab.InBounds P s.tab) (hstatus : s.status.toNat ≤ 4) : s.inv :=
  Block.inv_iff.2 ⟨hmem, htab, hstatus, fun hrun => absurd hidle hrun⟩

theorem Block.reset_inv : (Block.reset : Block P).inv :=
  Block.inv_of_idle rfl Block.reset_mem_wf Tab.inBounds_nil (by simp [Block.reset])

theorem Block.resetBlock_inv {s : Block P} (hmem : s.mem.wf) : s.resetBlock.inv :=
  Block.inv_of_idle rfl hmem Tab.inBounds_nil (by simp [Block.resetBlock, Block.reset])

/-! ## Commands -/

/-- DEC_START on good arguments: the cursors are 0 and the bounds are the sampled lengths. -/
theorem Block.startDecoder_cursorsOk {s : Block P} (hargs : s.decompressArgs) (p : Phase) :
    (s.startDecoder p).cursorsOk := by
  obtain ⟨-, -, hsrc, hdst⟩ := hargs
  rw [← signed_eq_toInt] at hsrc hdst
  exact ⟨rfl, rfl, toNat_le_maxLen hsrc, toNat_le_maxLen hdst, Nat.zero_le _, Nat.zero_le _⟩

theorem Block.compressed_inv {s : Block P} {e : Enc} (hmem : s.mem.wf)
    (htab : Tab.InBounds P e.tab) : (s.compressed e).inv :=
  Block.inv_of_idle rfl (Block.wf_scratchDst _ _ (Block.wf_writeDst 0 e.out hmem)) htab
    causeOk_le_four

theorem startCommand_inv {w : Word P.xlen} {s t : Block P} (hinv : s.inv)
    (h : startCommand w s = .next ⟨P, t⟩) : t.inv := by
  obtain ⟨hmem, htab, hstatus, -⟩ := Block.inv_iff.1 hinv
  obtain rfl | ⟨hargs, p, rfl⟩ | rfl := startCommand_next h
  · exact Block.inv_of_idle rfl hmem htab (causeCode_le_four _)
  · exact Block.inv_iff.2 ⟨hmem, htab, hstatus, fun _ => Block.startDecoder_cursorsOk hargs p⟩
  · exact Block.compressed_inv hmem (encode_tab_inBounds _ _ _ htab)

/-! ## Steps -/

theorem step_idle_inv {s t : Block P} (hidle : s.phase = .idle) (hinv : s.inv)
    (h : step ⟨P, s⟩ = .next ⟨P, t⟩) : t.inv := by
  obtain ⟨hmem, htab, hstatus, -⟩ := Block.inv_iff.1 hinv
  obtain ⟨w, rest, -, hw⟩ | ⟨rest, -, rfl⟩ | hframe := step_idle_next hidle h
  · exact startCommand_inv (s := { s with host := rest }) hinv hw
  · exact Block.resetBlock_inv hmem
  · exact Block.inv_of_idle (hframe.phase.trans hidle) (hframe.wf hmem) (hframe.tab ▸ htab)
      (hframe.status ▸ hstatus)

/-- Steps that keep the frame keep the sampled lengths and the bounds, so only the cursors are left. -/
theorem Block.Frame.cursorsOk {s t : Block P} (hframe : s.Frame t) (hs : s.cursorsOk)
    (ht : t.cursorsIn) : t.cursorsOk := by
  obtain ⟨hilim, hoend, hilimMax, hoendMax, -, -⟩ := hs
  obtain ⟨-, hsrcLen, -, hdstLen, -⟩ := hframe.setup
  rw [Block.cursorsOk, hsrcLen, hdstLen]
  obtain ⟨hip, hop⟩ := ht
  rw [hframe.ilim] at hip ⊢
  rw [hframe.oend] at hop ⊢
  exact ⟨hilim, hoend, hilimMax, hoendMax, hip, hop⟩

theorem step_running_inv {s t : Block P} (hrun : s.phase ≠ .idle) (hinv : s.inv)
    (h : step ⟨P, s⟩ = .next ⟨P, t⟩) : t.inv := by
  obtain ⟨hmem, htab, hstatus, hcur⟩ := Block.inv_iff.1 hinv
  obtain ⟨u, hframe, ⟨rfl, hin⟩ | ⟨r, st, hst, rfl⟩⟩ := step_decodesTo hrun h
  · obtain ⟨-, -, -, -, hip, hop⟩ := hcur hrun
    exact Block.inv_iff.2 ⟨hframe.wf hmem, hframe.tab ▸ htab, hframe.status ▸ hstatus,
      fun _ => hframe.cursorsOk (hcur hrun) (hin ⟨hip, hop⟩)⟩
  · exact Block.inv_of_idle rfl (Block.wf_decodeEnd r st (hframe.wf hmem))
      (show Tab.InBounds P u.tab from hframe.tab ▸ htab) hst

theorem step_keeps_inv {s t : Block P} (hinv : s.inv) (h : step ⟨P, s⟩ = .next ⟨P, t⟩) :
    t.inv := by
  by_cases hidle : s.phase = .idle
  · exact step_idle_inv hidle hinv h
  · exact step_running_inv hidle hinv h

/-- Settles O4: a next state is a block with the same parameters, and both kinds of step keep the
invariant. -/
theorem stepKeepsInvariant : Obligations.StepKeepsInvariant := by
  rintro ⟨P, s⟩ t hinv h
  obtain ⟨b, rfl⟩ := step_next_block h
  exact step_keeps_inv hinv h

/-- Settles O3: after reset the store and the table are empty, STATUS is 0 and the block is idle. -/
theorem invariantAtReset : Obligations.InvariantAtReset :=
  ⟨Block.reset_inv, fun _ => Block.reset_inv⟩

end Sys2Proof.Machine
end

