-- ==== Sys2Proof/Proofs/HostRegisters.lean ====
section
/-! The registers as the host sees them (`10_state.md` R20 to R27, R50): their values after reset, and
what the step of each access is. -/

namespace Sys2Proof.Machine

variable {P : Config.Params}

/-- There is no register above 6 to write (`10_state.md` R20, U9). -/
theorem writeRegister_of_gt {r : Nat} (hr : 6 < r) (v : Word P.xlen) (s : Block P) :
    writeRegister r v s = .fault .noSuchRegister := by
  unfold writeRegister
  split
  case h_8 => rfl
  all_goals omega

/-- There is no register above 6 to read (`10_state.md` R20, U9). -/
theorem readRegister_of_gt {r : Nat} (hr : 6 < r) (s : Block P) :
    readRegister r s = .fault .noSuchRegister := by
  unfold readRegister
  split
  case h_8 => rfl
  all_goals omega

/-- Settles O1: each register is one of the fields that `Block.reset` lists. -/
theorem resetStateValues : Obligations.ResetStateValues :=
  ⟨rfl, rfl, rfl, rfl, rfl, rfl, rfl⟩

/-- Settles O12: the step takes the access, and the access is its register's arm or the fault. -/
theorem hostRegisterAccess : Obligations.HostRegisterAccess := by
  intro P s v rest hidle
  exact ⟨step_of_host hidle, step_of_host hidle, step_of_host hidle, step_of_host hidle,
    step_of_host hidle, step_of_host hidle, step_of_host hidle, step_of_host hidle,
    step_of_host hidle, step_of_host hidle, step_of_host hidle, step_of_host hidle,
    fun r hr hhost => (step_of_host hidle hhost).trans (writeRegister_of_gt hr v _),
    fun r hr hhost => (step_of_host hidle hhost).trans (readRegister_of_gt hr _)⟩

/-- Settles O13: the value is the next free word. -/
theorem hostReadOfCmd : Obligations.HostReadOfCmd := by
  intro P s rest hidle hhost
  exact ⟨Config.freeWord P.xlen s.freeCount, step_of_host hidle hhost⟩

end Sys2Proof.Machine
end

