-- ==== Sys2Proof/Proofs/Instructions.lean ====
section
/-! Decode and encode of command words and control bytes (`30_encoding.md` R91, R92, R97, R103): what the
two fields of each are, and that an instruction and its code determine each other. -/

namespace Sys2Proof

/-! ## Command words -/

/-- Field OP of a command word is the word's value modulo 4, also where the word is narrower. -/
theorem commandOp_eq_iff {x k : Nat} (w : Word x) (hk : k < 4) :
    w.extractLsb' 0 2 = BitVec.ofNat 2 k ↔ w.toNat % 4 = k := by
  rw [← BitVec.toNat_inj]
  simp [BitVec.extractLsb'_toNat, Nat.mod_eq_of_lt hk]

/-- Field RSV of a command word is 0 exactly when nothing stands above OP. -/
theorem commandRsv_eq_zero_iff {x : Nat} (w : Word x) :
    w.extractLsb' 2 (x - 2) = 0#(x - 2) ↔ w.toNat < 4 := by
  have hpow : 2 ^ x ≤ 2 ^ 2 * 2 ^ (x - 2) := by
    rw [← Nat.pow_add]
    exact Nat.pow_le_pow_right (by decide) (by omega)
  have hrsv : w.toNat / 4 < 2 ^ (x - 2) := Nat.div_lt_of_lt_mul (w.isLt.trans_le hpow)
  rw [← BitVec.toNat_inj]
  simp [BitVec.extractLsb'_toNat, Nat.shiftRight_eq_div_pow, Nat.mod_eq_of_lt hrsv]

/-- What a word decodes to, by its value (`30_encoding.md` R91, R92). -/
theorem decodeCommand_eq {x : Nat} (w : Word x) :
    decodeCommand w =
      if w.toNat = 1 then .ok .compress
      else if w.toNat = 2 then .ok .decompressFixed
      else if w.toNat = 3 then .ok .decompressUnknown
      else .error .reservedCommand := by
  simp only [decodeCommand, BitVec.ofNat_eq_ofNat, commandRsv_eq_zero_iff,
    commandOp_eq_iff w (show 1 < 4 by decide), commandOp_eq_iff w (show 2 < 4 by decide),
    commandOp_eq_iff w (show 3 < 4 by decide)]
  by_cases hrsv : w.toNat < 4
  · rw [if_pos hrsv, Nat.mod_eq_of_lt hrsv]
  · rw [if_neg hrsv, if_neg (by omega), if_neg (by omega), if_neg (by omega)]

/-- The words of `30_encoding.md` R92 are reserved: OP is 0, or RSV is not. -/
theorem decodeCommand_of_reserved {x : Nat} {w : Word x}
    (h : w.extractLsb' 0 2 = 0 ∨ w.extractLsb' 2 (x - 2) ≠ 0) :
    decodeCommand w = .error .reservedCommand := by
  have hop := commandOp_eq_iff w (show 0 < 4 by decide)
  have hrsv := commandRsv_eq_zero_iff w
  have hvalue : w.toNat % 4 = 0 ∨ ¬ w.toNat < 4 := h.imp hop.1 (mt hrsv.2)
  rw [decodeCommand_eq, if_neg (by omega), if_neg (by omega), if_neg (by omega)]

/-- Settles O7: the value of a word that decodes is 1, 2 or 3, and it fixes the command. -/
theorem commandWordsDecode : Obligations.CommandWordsDecode := by
  intro x w i
  rw [decodeCommand_eq]
  split_ifs with h1 h2 h3
  · simp [h1, eq_comm]
  · simp [h2, eq_comm]
  · simp [h3, eq_comm]
  · simp [h1, h2, h3]

@[simp] theorem Machine.neg32_zero (x : Nat) : (Machine.neg32 0 : Word x) = 0 := by
  refine BitVec.eq_of_toNat_eq ?_
  rw [Machine.neg32, BitVec.toNat_ofNat, Nat.zero_mod, Nat.sub_zero, Nat.mod_self]
  exact BitVec.toNat_zero.symm

/-- Settles O8: START finds no command and raises InvalidArgument; the block was idle before. -/
theorem reservedCommandWords : Obligations.ReservedCommandWords := by
  rintro P s w rest ⟨hidle, hhost⟩ hword
  calc Machine.step ⟨P, s⟩
    _ = Machine.startCommand w { s with host := rest } := Machine.step_of_host hidle hhost
    _ = .next ⟨P, Machine.Block.raise { s with host := rest } .invalidArgument 0⟩ := by
      rw [Machine.startCommand, decodeCommand_of_reserved hword]
    _ = _ := by
      simp [Machine.Block.raise, Machine.causeCode, hidle]

/-! ## Control bytes -/

@[simp] theorem tokenLL_token (ll ml : BitVec 4) : tokenLL (token ll ml) = ll :=
  BitVec.extractLsb'_append_eq_left

@[simp] theorem tokenML_token (ll ml : BitVec 4) : tokenML (token ll ml) = ml :=
  BitVec.extractLsb'_append_eq_right

@[simp] theorem token_nibbles (t : Byte) : token (tokenLL t) (tokenML t) = t :=
  BitVec.extractLsb'_append_extractLsb'

/-- A control byte is its two nibbles, each of which is short or saturated. -/
theorem encode_sequenceForm (terminal : Bool) (t : Byte) :
    encode (sequenceForm terminal t) = .controlByte t := by
  obtain ⟨ll, ml, rfl⟩ : ∃ ll ml, t = token ll ml := ⟨_, _, (token_nibbles t).symm⟩
  unfold sequenceForm
  split_ifs <;> simp_all [encode, shortNibble]

theorem sequenceForm_wellFormed (terminal : Bool) (t : Byte) :
    (sequenceForm terminal t).wellFormed = true := by
  unfold sequenceForm
  split_ifs <;> simp_all [Instr.wellFormed]

theorem sequenceForm_isTerminal (terminal : Bool) (t : Byte) :
    (sequenceForm terminal t).isTerminal = terminal := by
  unfold sequenceForm
  split_ifs <;> simp_all [Instr.isTerminal]

/-! ## Instructions -/

theorem decodeCode_encode {i : Instr} (hi : i.wellFormed = true) :
    decodeCode i.isTerminal (encode i) = .ok i := by
  cases i with
  | compress | decompressFixed | decompressUnknown => exact decodeCommand_eq _
  | _ =>
    simp_all [Instr.wellFormed, Instr.isTerminal, encode, decodeCode, sequenceForm, shortNibble]

/-- A command word that decodes is the code of its command. -/
theorem encode_of_decodeCommand {w : Word 32} {i : Instr} (h : decodeCommand w = .ok i) :
    i.wellFormed = true ∧ encode i = .command w := by
  obtain ⟨hw, rfl⟩ | ⟨hw, rfl⟩ | ⟨hw, rfl⟩ := (commandWordsDecode 32 w i).1 h
  all_goals exact ⟨rfl, congrArg Code.command (BitVec.eq_of_toNat_eq hw.symm)⟩

/-- Settles O44: both ways for control bytes by their four cases, for command words by their values. -/
theorem instructionsDecodeEncode : Obligations.InstructionsDecodeEncode :=
  ⟨fun _ hi => decodeCode_encode hi,
    fun terminal t => ⟨sequenceForm terminal t, rfl, sequenceForm_wellFormed terminal t,
      sequenceForm_isTerminal terminal t, encode_sequenceForm terminal t⟩,
    fun _ _ _ h => encode_of_decodeCommand h⟩

/-- Settles O43: each word is a closed bit pattern, so the decoder computes its instruction. -/
theorem writtenWordsDecode : Obligations.WrittenWordsDecode := by
  unfold Obligations.WrittenWordsDecode
  decide

end Sys2Proof
end

