-- ==== Sys2Proof/Proofs/SequenceBytes.lean ====
section
/-! The bytes of a sequence (`30_encoding.md` R95 to R104): how many they are, and that the decoder reads
its lengths back from the control byte and the extension. -/

namespace Sys2Proof

/-! ## Extensions -/

@[simp] theorem extRun_length (k r : Nat) : (extRun k r).length = k + 1 := by
  induction k with
  | zero => rfl
  | succ k ih => rw [extRun, List.length_cons, ih]

/-- The extension of a length has `litext` bytes (`30_encoding.md` R98). -/
@[simp] theorem extOf_length (v : Nat) : (extOf v).length = litext v := by
  unfold extOf litext
  split
  · rfl
  · rw [extBytes, extRun_length, Nat.add_comm]

/-- R99 is R98 at the match-length code (`30_encoding.md`). -/
theorem litext_sub_minMatch (m : Nat) : litext (m - Config.minMatch) = matchext m := by
  have hlt : m - Config.minMatch < Config.nibbleMax ↔ m < Config.nibbleMax + Config.minMatch := by
    simp only [Config.minMatch, Config.nibbleMax]
    omega
  simp only [litext, matchext, hlt, Nat.sub_sub, Nat.add_comm Config.minMatch]

/-- The closing byte is the first one other than 255. -/
theorem extSum_extRun {k r : Nat} (hr : r < Config.extContinue) (rest : List Byte) :
    extSum (extRun k r ++ rest) = some (Config.extContinue * k + r, k + 1) := by
  simp only [Config.extContinue] at hr
  induction k with
  | zero =>
    have hmod : r % 256 = r := Nat.mod_eq_of_lt (by omega)
    simp [extRun, extSum, Config.extContinue, hmod, Nat.ne_of_lt hr]
  | succ k ih =>
    simp only [extRun, List.cons_append, extSum, ih]
    simp [Config.extContinue]
    omega

/-- DEC_EXT reads back what ENC_EXT wrote, whatever follows (`42_length_codec.md` R179). -/
theorem extSum_extOf {v : Nat} (hv : Config.nibbleMax ≤ v) (rest : List Byte) :
    extSum (extOf v ++ rest) = some (v - Config.nibbleMax, litext v) := by
  rw [extOf, if_neg (Nat.not_lt.2 hv), extBytes, extSum_extRun (Nat.mod_lt _ (by decide)),
    Nat.div_add_mod, litext, if_neg (Nat.not_lt.2 hv), Nat.add_comm]

/-! ## Sizes -/

theorem seqBytes_length (lits : List Byte) (offset m : Nat) :
    (seqBytes lits offset m).length = 1 + litext lits.length + lits.length + 2 + matchext m := by
  simp only [seqBytes, le16, List.length_append, List.length_cons, List.length_nil, extOf_length,
    litext_sub_minMatch]
  omega

theorem lastBytes_length (lits : List Byte) :
    (lastBytes lits).length = 1 + litext lits.length + lits.length := by
  simp only [lastBytes, List.length_append, List.length_cons, extOf_length]
  omega

/-- Settles O46: the lengths of the fields add up. -/
theorem sequenceSizes : Obligations.SequenceSizes := fun lits offset m _ =>
  ⟨seqBytes_length lits offset m, lastBytes_length lits⟩

/-! ## The control byte of two lengths -/

theorem controlByte_eq_token (len code : Nat) :
    controlByte len code = token (BitVec.ofNat 4 (nibble len)) (BitVec.ofNat 4 (nibble code)) := by
  have hlen : nibble len < 2 ^ 4 := Nat.lt_succ_of_le (Nat.min_le_right _ _)
  have hcode : nibble code < 2 ^ 4 := Nat.lt_succ_of_le (Nat.min_le_right _ _)
  refine BitVec.eq_of_toNat_eq ?_
  rw [controlByte, token, BitVec.toNat_append]
  simp only [BitVec.toNat_ofNat]
  rw [Nat.mod_eq_of_lt hlen, Nat.mod_eq_of_lt hcode, ← Nat.shiftLeft_add_eq_or_of_lt hcode,
    Nat.shiftLeft_eq]
  omega

theorem nibble_of_lt {v : Nat} (hv : v < Config.nibbleMax) : nibble v = v :=
  Nat.min_eq_left (Nat.le_of_lt hv)

theorem nibble_of_le {v : Nat} (hv : Config.nibbleMax ≤ v) : nibble v = Config.nibbleMax :=
  Nat.min_eq_right hv

/-- The nibble of a length is short exactly when the length takes no extension (`30_encoding.md` R97). -/
theorem shortNibble_nibble (v : Nat) :
    shortNibble (BitVec.ofNat 4 (nibble v)) = decide (v < Config.nibbleMax) := by
  by_cases hv : v < Config.nibbleMax
  · have hne : v % 16 ≠ 15 := by simp only [Config.nibbleMax] at hv; omega
    simpa [shortNibble, nibble_of_lt hv, ← BitVec.toNat_inj, hv] using hne
  · rw [nibble_of_le (Nat.le_of_not_lt hv), decide_eq_false hv]
    rfl

/-- A control byte read as terminal gives the LAST form of its length (`30_encoding.md` R103). -/
theorem sequenceForm_true_controlByte (len code : Nat) :
    sequenceForm true (controlByte len code) =
      Machine.lastForm len (BitVec.ofNat 4 (nibble code)) := by
  rw [controlByte_eq_token, sequenceForm, Machine.lastForm, tokenLL_token, tokenML_token,
    shortNibble_nibble]
  by_cases hlen : len < Config.nibbleMax
  · simp [nibble_of_lt hlen, hlen, show len < 15 from hlen]
  · simp [hlen, show ¬ len < 15 from hlen]

/-- A control byte read as non-terminal gives the SEQ form of its lengths (`30_encoding.md` R110). -/
theorem sequenceForm_false_controlByte (len code : Nat) :
    sequenceForm false (controlByte len code) = Machine.seqForm len (code + Config.minMatch) := by
  have hcode : code + Config.minMatch < 19 ↔ code < Config.nibbleMax := by
    simp only [Config.minMatch, Config.nibbleMax]
    omega
  rw [controlByte_eq_token, sequenceForm, Machine.seqForm, tokenLL_token, tokenML_token,
    shortNibble_nibble, shortNibble_nibble]
  simp only [hcode, show len < 15 ↔ len < Config.nibbleMax from Iff.rfl,
    show code + Config.minMatch - 4 = code from rfl, decide_eq_true_eq, Bool.false_eq_true, if_false]
  split_ifs <;> simp_all [nibble_of_lt]

/-! ## SEQ or LAST -/

/-- The look-ahead finds the literal length behind the control byte (`30_encoding.md` R102). -/
theorem terminalAt_controlByte (P : Config.Params) (c : Context) (len code : Nat) (rest : List Byte) :
    terminalAt P c (controlByte len code) (extOf len ++ rest) =
      takenAsTerminal P c len (litext len) := by
  rw [terminalAt, controlByte_eq_token, tokenLL_token, shortNibble_nibble]
  by_cases hlen : len < Config.nibbleMax
  · have hmod : len % 16 = len := Nat.mod_eq_of_lt (Nat.lt_succ_of_lt hlen)
    simp [hlen, nibble_of_lt hlen, litext, hmod]
  · simp [hlen, extSum_extOf (Nat.le_of_not_lt hlen), Nat.add_sub_of_le (Nat.le_of_not_lt hlen)]

theorem takenAsTerminal_eq_true {P : Config.Params} {c : Context} {len ext : Nat} :
    takenAsTerminal P c len ext = true ↔
      c.oend < c.op + len + P.decMargin ∨ (c.unknown = true ∧ c.ip + 1 + ext + len = c.ilim) := by
  simp [takenAsTerminal]

/-- The form of a control byte with its literal extension behind it: its lengths give the nibbles, the
context says SEQ or LAST. -/
theorem decodeSequence_controlByte (P : Config.Params) (c : Context) (len code : Nat)
    (rest : List Byte) :
    decodeSequence P c (controlByte len code :: (extOf len ++ rest)) = .ok
      (if c.oend < c.op + len + P.decMargin ∨
          (c.unknown = true ∧ c.ip + 1 + litext len + len = c.ilim)
        then Machine.lastForm len (BitVec.ofNat 4 (nibble code))
        else Machine.seqForm len (code + Config.minMatch)) := by
  rw [decodeSequence, terminalAt_controlByte]
  simp only [← takenAsTerminal_eq_true]
  cases takenAsTerminal P c len (litext len) with
  | true => rw [sequenceForm_true_controlByte, if_pos rfl]
  | false => rw [sequenceForm_false_controlByte, if_neg Bool.false_ne_true]

/-- Settles O45: both kinds of sequence start with a control byte and the literal extension. -/
theorem sequencesDecodeEncode : Obligations.SequencesDecodeEncode := by
  intro P c lits rest offset m hm
  have hseq := decodeSequence_controlByte P c lits.length (m - Config.minMatch)
    (lits ++ le16 offset ++ extOf (m - Config.minMatch) ++ rest)
  have hlast := decodeSequence_controlByte P c lits.length 0 (lits ++ rest)
  rw [Nat.sub_add_cancel (show Config.minMatch ≤ m from hm)] at hseq
  simp only [seqBytes, lastBytes, List.cons_append, List.append_assoc] at hseq ⊢
  exact ⟨hseq, hlast⟩

end Sys2Proof
end

