-- ==== Sys2Proof/Proofs/ListingMatches.lean ====
section
/-! What the encoder listing (`43_encoder.md` R204) finds: each pass of its loop starts at a candidate
that lies before the position, near enough for an offset and with the same bytes, and takes it as far
as it goes. -/

namespace Sys2Proof.Machine

/-! ## VERIFY -/

theorem src32_eq_iff (src : Nat → Byte) (a b : Nat) :
    src32 src a = src32 src b ↔ ∀ k, k < 4 → src (a + k) = src (b + k) := by
  constructor
  · intro h k hk
    unfold src32 at h
    refine BitVec.eq_of_toNat_eq ?_
    interval_cases k
    · change (src a).toNat = (src b).toNat
      omega
    all_goals omega
  · intro h
    simp only [src32, h 1 (by decide), h 2 (by decide), h 3 (by decide),
      show src a = src b from h 0 (by decide)]

/-- VERIFY tests the four bytes, and in the wide variant the distance (`41_match_finder.md` R154). -/
theorem verify_eq_true {v : Variant} {src : Nat → Byte} {p ref : Nat} :
    verify v src p ref = true ↔
      (v = .narrow ∨ p - ref ≤ Config.maxDistance) ∧ ∀ k, k < 4 → src (ref + k) = src (p + k) := by
  simp [verify, src32_eq_iff]

/-! ## The two walks of a match -/

theorem listingOn_le (src : Nat → Byte) (ip ref k : Nat) : listingOn src ip ref k ≤ k := by
  induction k generalizing ip ref with
  | zero => exact Nat.le_refl 0
  | succ k ih =>
    rw [listingOn]
    split
    · exact Nat.succ_le_succ (ih _ _)
    · exact Nat.zero_le _

theorem listingOn_agrees {src : Nat → Byte} {ip ref k j : Nat} (h : j < listingOn src ip ref k) :
    src (ref + j) = src (ip + j) := by
  induction k generalizing ip ref j with
  | zero => exact absurd h (Nat.not_lt_zero j)
  | succ k ih =>
    rw [listingOn] at h
    split at h
    next heq =>
      cases j with
      | zero => exact heq
      | succ j =>
        have hj := ih (Nat.lt_of_succ_lt_succ h)
        rwa [Nat.add_assoc ref, Nat.add_assoc ip, Nat.add_comm 1 j] at hj
    next => exact absurd h (Nat.not_lt_zero j)

/-- The walk forward does not stop where the bytes agree. -/
theorem le_listingOn {src : Nat → Byte} {ip ref k b : Nat} (hb : b ≤ k)
    (h : ∀ j, j < b → src (ref + j) = src (ip + j)) : b ≤ listingOn src ip ref k := by
  induction k generalizing ip ref b with
  | zero => exact hb
  | succ k ih =>
    cases b with
    | zero => exact Nat.zero_le _
    | succ b =>
      rw [listingOn, if_pos (show src ref = src ip from h 0 (Nat.succ_pos b))]
      refine Nat.succ_le_succ (ih (Nat.le_of_succ_le_succ hb) fun j hj => ?_)
      have hj' := h (j + 1) (Nat.succ_lt_succ hj)
      rwa [Nat.add_assoc ref, Nat.add_assoc ip, Nat.add_comm 1 j]

theorem listingBack_le (src : Nat → Byte) (ip ref k : Nat) : listingBack src ip ref k ≤ k := by
  induction k generalizing ip ref with
  | zero => exact Nat.le_refl 0
  | succ k ih =>
    rw [listingBack]
    split
    · exact Nat.succ_le_succ (ih _ _)
    · exact Nat.zero_le _

/-- The bytes that the walk back passes over agree. -/
theorem listingBack_agrees {src : Nat → Byte} {ip ref k j : Nat} (hj : j < listingBack src ip ref k) :
    src (ref - 1 - j) = src (ip - 1 - j) := by
  induction k generalizing ip ref j with
  | zero => exact absurd hj (Nat.not_lt_zero j)
  | succ k ih =>
    rw [listingBack] at hj
    split at hj
    next heq =>
      cases j with
      | zero => exact heq.symm
      | succ j =>
        have hj' := ih (Nat.lt_of_succ_lt_succ hj)
        rwa [Nat.sub_sub _ 1 j, Nat.sub_sub _ 1 j, Nat.add_comm 1 j] at hj'
    next => exact absurd hj (Nat.not_lt_zero j)

/-! ## The table -/

/-- Every position the listing's table holds lies before `p`. -/
def PositionsBelow (tab : Nat → Nat) (p : Nat) : Prop := ∀ h, tab h < p

theorem PositionsBelow.mono {tab : Nat → Nat} {p q : Nat} (h : PositionsBelow tab p) (hpq : p ≤ q) :
    PositionsBelow tab q := fun x => (h x).trans_le hpq

theorem PositionsBelow.listingStore {tab : Nat → Nat} {p : Nat} (h : PositionsBelow tab p)
    (b : Nat) : PositionsBelow (listingStore tab b p) (p + 1) := by
  intro x
  unfold Machine.listingStore
  split
  · exact Nat.lt_succ_self p
  · exact (h x).trans (Nat.lt_succ_self p)

/-! ## Where a match starts -/

section Matches

variable {P : Config.Params} {v : Variant} {src : Nat → Byte} {n : Nat}

/-- A match can start at `ip` with the candidate `ref`: behind the literals from `anchor` on, before
`mflimit`, with at least four bytes in agreement that leave the last literals, and no position behind
those bytes is in the table. -/
structure StartsMatch (P : Config.Params) (src : Nat → Byte) (n anchor ip ref : Nat)
    (tab : Nat → Nat) (len : Nat) : Prop where
  anchor_le : anchor ≤ ip
  ref_lt : ref < ip
  near : ip - ref ≤ Config.maxDistance
  mfLimit : ip + P.mfLimit ≤ n
  four_le : 4 ≤ len
  agrees : ∀ j, j < len → src (ref + j) = src (ip + j)
  room : ip + len + P.lastLiterals ≤ n
  table : PositionsBelow tab (ip + len)

/-- A verified candidate, walked back over `b` more bytes. In the narrow variant no position is too far
away (`41_match_finder.md` R154). -/
theorem startsMatch_of_verify {anchor p ref b : Nat} {tab : Nat → Nat} (hP : P.wf)
    (hv : v = .narrow → n ≤ 65536) (hverify : verify v src p ref = true) (href : ref < p)
    (hlimit : p + P.mfLimit ≤ n) (htab : PositionsBelow tab (p + 1)) (hanchor : anchor + b ≤ p)
    (hb : b ≤ ref) (hback : ∀ j, j < b → src (ref - 1 - j) = src (p - 1 - j)) :
    StartsMatch P src n anchor (p - b) (ref - b) tab (b + 4) := by
  obtain ⟨hnear, hfour⟩ := verify_eq_true.1 hverify
  obtain ⟨-, -, hmin, hlast, -⟩ := hP
  simp only [Config.minMatch, Config.maxDistance] at hmin hlast hnear
  exact
    { anchor_le := by omega
      ref_lt := by omega
      near := by
        have hdist : p - ref ≤ 65535 := hnear.elim (fun h => by have := hv h; omega) id
        simp only [Config.maxDistance]
        omega
      mfLimit := by omega
      four_le := by omega
      agrees := by
        intro j hj
        obtain hjb | hjb := Nat.lt_or_ge j b
        · have h := hback (b - 1 - j) (by omega)
          rwa [show ref - 1 - (b - 1 - j) = ref - b + j by omega,
            show p - 1 - (b - 1 - j) = p - b + j by omega] at h
        · have h := hfour (j - b) (by omega)
          rwa [show ref + (j - b) = ref - b + j by omega,
            show p + (j - b) = p - b + j by omega] at h
      room := by omega
      table := htab.mono (by omega) }

/-! ## SEARCH -/

/-- A search that finds something has verified it, at a position it has come to by steps of at least 1
(`00_scope.md` R8 (a)). -/
theorem listingSearch_eq_some {mflimit fuel attempts ip p ref : Nat} {tab tab' : Nat → Nat}
    (hstep : 1 ≤ attempts / 2 ^ P.skipStrength) (htab : PositionsBelow tab ip)
    (h : listingSearch P v src mflimit fuel attempts ip tab = some (p, ref, tab')) :
    ip ≤ p ∧ p ≤ mflimit ∧ ref < p ∧ verify v src p ref = true ∧ PositionsBelow tab' (p + 1) := by
  induction fuel generalizing attempts ip tab with
  | zero => cases h
  | succ fuel ih =>
    rw [listingSearch] at h
    split at h
    next => cases h
    next hlimit =>
      have hstored := htab.listingStore (bucket P v src ip)
      dsimp only at h
      split at h
      next hverify =>
        cases h
        exact ⟨Nat.le_refl _, by omega, htab _, hverify, hstored⟩
      next =>
        obtain ⟨hip, hp⟩ := ih (hstep.trans (Nat.div_le_div_right (Nat.le_succ attempts)))
          (hstored.mono (by omega)) h
        exact ⟨by omega, hp⟩

/-! ## One pass of the loop -/

/-- Where the next match of the loop starts: at the candidate given, or at the one a search finds,
walked back. -/
def listingStart (P : Config.Params) (v : Variant) (src : Nat → Byte) (n : Nat) (cand : Option Nat)
    (tab : Nat → Nat) (ip anchor : Nat) : Option (Nat × Nat × (Nat → Nat)) :=
  match cand with
  | some ref => some (ip, ref, tab)
  | none =>
    match listingSearch P v src (n - P.mfLimit) (n + 1) P.attemptInit ip tab with
    | none => none
    | some (p, ref, tab) =>
      some (p - listingBack src p ref (min (p - anchor) ref),
        ref - listingBack src p ref (min (p - anchor) ref), tab)

/-- The length of the match at `ip` with the candidate `ref`. -/
def listingMatchLen (P : Config.Params) (src : Nat → Byte) (n ip ref : Nat) : Nat :=
  4 + listingOn src (ip + 4) (ref + 4) (n - P.lastLiterals - (ip + 4))

/-- The sequences from a position behind a match on: none past `mflimit`, else a pass with the candidate
there if it is verified, or with a search. -/
def listingNext (P : Config.Params) (v : Variant) (src : Nat → Byte) (n fuel ip : Nat)
    (tab : Nat → Nat) : List SeqItem × Nat :=
  if n - P.mfLimit < ip then ([], ip)
  else if verify v src ip (tab (bucket P v src ip)) then
    listingItems P v src n fuel (some (tab (bucket P v src ip)))
      (listingStore tab (bucket P v src ip) ip) ip ip
  else listingItems P v src n fuel none (listingStore tab (bucket P v src ip) ip) (ip + 1) ip

/-- A pass of the loop, by where its match starts. -/
theorem listingItems_succ (fuel : Nat) (cand : Option Nat) (tab : Nat → Nat) (ip anchor : Nat) :
    listingItems P v src n (fuel + 1) cand tab ip anchor =
      match listingStart P v src n cand tab ip anchor with
      | none => ([], anchor)
      | some (mstart, ref, tab) =>
        let m := listingMatchLen P src n mstart ref
        let r := listingNext P v src n fuel (mstart + m) tab
        (⟨slice src anchor (mstart - anchor), mstart - ref, m⟩ :: r.1, r.2) := by
  rw [listingItems.eq_def]
  dsimp only
  unfold listingStart listingNext listingMatchLen
  cases cand with
  | some ref => dsimp only; split_ifs <;> rfl
  | none =>
    dsimp only
    cases listingSearch P v src (n - P.mfLimit) (n + 1) P.attemptInit ip tab with
    | none => rfl
    | some r => dsimp only; split_ifs <;> rfl

/-- What a pass of the loop starts from: a candidate that is verified already, or a position to search
from. -/
def PassReady (P : Config.Params) (src : Nat → Byte) (n anchor ip : Nat) (tab : Nat → Nat) :
    Option Nat → Prop
  | some ref => ∃ len, StartsMatch P src n anchor ip ref tab len
  | none => anchor ≤ ip ∧ PositionsBelow tab ip

theorem listingStart_startsMatch {cand : Option Nat} {anchor ip mstart ref : Nat}
    {tab tab' : Nat → Nat} (hP : P.wf) (hn : P.mfLimit ≤ n) (hv : v = .narrow → n ≤ 65536)
    (hready : PassReady P src n anchor ip tab cand)
    (h : listingStart P v src n cand tab ip anchor = some (mstart, ref, tab')) :
    ∃ len, StartsMatch P src n anchor mstart ref tab' len := by
  unfold listingStart at h
  cases cand with
  | some ref =>
    cases h
    exact hready
  | none =>
    obtain ⟨hanchor, htab⟩ := hready
    dsimp only at h
    split at h
    next => cases h
    next p ref tab' hsearch =>
      cases h
      obtain ⟨hip, hp, href, hverify, htab'⟩ := listingSearch_eq_some hP.1 htab hsearch
      have hback := listingBack_le src p ref (min (p - anchor) ref)
      exact ⟨_, startsMatch_of_verify hP hv hverify href (by omega) htab' (by omega) (by omega)
        fun j hj => listingBack_agrees hj⟩

end Matches

end Sys2Proof.Machine
end

