-- ==== Sys2Proof/Proofs/ConformingStream.lean ====
section
/-! The encoder listing's output is a conforming stream (`30_encoding.md` R106): replayed it gives the
input, its sequences keep the bounds, and each match pays for the bytes its sequence adds. -/

namespace Sys2Proof.Machine

variable {P : Config.Params} {v : Variant} {src : Nat → Byte} {n : Nat}

/-! ## The length of a match -/

section MatchLen

variable {anchor ip ref len : Nat} {tab : Nat → Nat}

theorem four_le_listingMatchLen (P : Config.Params) (src : Nat → Byte) (n ip ref : Nat) :
    4 ≤ listingMatchLen P src n ip ref := Nat.le_add_right 4 _

/-- A match takes all the bytes known to agree. -/
theorem StartsMatch.len_le (h : StartsMatch P src n anchor ip ref tab len) :
    len ≤ listingMatchLen P src n ip ref := by
  have hroom := h.room
  have hfour := h.four_le
  have hon : len - 4 ≤ listingOn src (ip + 4) (ref + 4) (n - P.lastLiterals - (ip + 4)) := by
    refine le_listingOn (by omega) fun j hj => ?_
    have hagree := h.agrees (4 + j) (by omega)
    rwa [← Nat.add_assoc, ← Nat.add_assoc] at hagree
  unfold listingMatchLen
  omega

/-- All bytes of a match agree with those of its candidate. -/
theorem StartsMatch.agrees_listingMatchLen (h : StartsMatch P src n anchor ip ref tab len) (j : Nat)
    (hj : j < listingMatchLen P src n ip ref) : src (ref + j) = src (ip + j) := by
  obtain hlt | hge := Nat.lt_or_ge j 4
  · exact h.agrees j (hlt.trans_le h.four_le)
  · obtain ⟨i, rfl⟩ := Nat.exists_eq_add_of_le hge
    rw [← Nat.add_assoc, ← Nat.add_assoc]
    exact listingOn_agrees (Nat.lt_of_add_lt_add_left hj)

/-- A match leaves the last literals (`30_encoding.md` R106 (f)). -/
theorem StartsMatch.end_le (h : StartsMatch P src n anchor ip ref tab len) :
    ip + listingMatchLen P src n ip ref + P.lastLiterals ≤ n := by
  have hroom := h.room
  have hfour := h.four_le
  have hon := listingOn_le src (ip + 4) (ref + 4) (n - P.lastLiterals - (ip + 4))
  unfold listingMatchLen
  omega

end MatchLen

/-! ## Replaying a sequence -/

theorem slice_append_slice {a b : Nat} (hab : a ≤ b) :
    slice src 0 a ++ slice src a (b - a) = slice src 0 b := by
  have h := slice_append src 0 a (b - a)
  rw [Nat.add_sub_of_le hab, Nat.zero_add] at h
  exact h.symm

/-- A copy from an earlier index whose bytes agree goes on with the source. -/
theorem copyBack_slice {ip ref k : Nat} (href : ref < ip)
    (h : ∀ j, j < k → src (ref + j) = src (ip + j)) :
    copyBack k (ip - ref) (slice src 0 ip) = slice src 0 (ip + k) := by
  induction k generalizing ip ref with
  | zero => rfl
  | succ k ih =>
    have hbyte : (slice src 0 ip)[ip - (ip - ref)]? = some (src ip) := by
      rw [slice_getElem? _ _ _ _ (by omega), Nat.sub_sub_self (Nat.le_of_lt href), Nat.zero_add]
      exact congrArg some (h 0 (Nat.succ_pos k))
    have hnext : slice src 0 (ip + 1) = slice src 0 ip ++ [src ip] := by
      rw [slice_append, Nat.zero_add]
      rfl
    have hrest := ih (ip := ip + 1) (ref := ref + 1) (Nat.succ_lt_succ href) fun j hj => by
      rw [Nat.add_right_comm ref, Nat.add_right_comm ip]
      exact h (j + 1) (Nat.succ_lt_succ hj)
    rw [copyBack, slice_length, hbyte, Option.getD_some, ← hnext]
    rwa [Nat.add_sub_add_right, Nat.add_right_comm] at hrest

/-- The sequence of a match, replayed behind the input up to its literals, gives the input up to the
match's end. -/
theorem SeqItem.apply_slice {anchor ip ref m : Nat} (hanchor : anchor ≤ ip) (href : ref < ip)
    (h : ∀ j, j < m → src (ref + j) = src (ip + j)) :
    SeqItem.apply (slice src 0 anchor) ⟨slice src anchor (ip - anchor), ip - ref, m⟩ =
      slice src 0 (ip + m) := by
  rw [SeqItem.apply, slice_append_slice hanchor, copyBack_slice href h]

/-! ## The sequences of the loop -/

/-- These sequences and the start of the terminal run cover the input from `anchor` on: replayed they
give it, each keeps its bounds, and a match leaves the last literals behind it. -/
structure Covers (P : Config.Params) (src : Nat → Byte) (n anchor : Nat) (r : List SeqItem × Nat) :
    Prop where
  replay : replay (slice src 0 anchor) r.1 = slice src 0 r.2
  items : conformingItems P n (slice src 0 anchor) r.1
  last : (r.1 = [] ∧ r.2 = anchor) ∨ r.2 + P.lastLiterals ≤ n

theorem covers_nil (P : Config.Params) (src : Nat → Byte) (n anchor : Nat) :
    Covers P src n anchor ([], anchor) := ⟨rfl, trivial, .inl ⟨rfl, rfl⟩⟩

/-- The sequence of a match in front of sequences that cover the input behind it. -/
theorem StartsMatch.covers_cons {anchor ip ref len : Nat} {tab : Nat → Nat} {r : List SeqItem × Nat}
    (h : StartsMatch P src n anchor ip ref tab len)
    (hr : Covers P src n (ip + listingMatchLen P src n ip ref) r) :
    Covers P src n anchor
      (⟨slice src anchor (ip - anchor), ip - ref, listingMatchLen P src n ip ref⟩ :: r.1, r.2) := by
  have happly := SeqItem.apply_slice h.anchor_le h.ref_lt h.agrees_listingMatchLen
  have hop : (slice src 0 anchor).length + (slice src anchor (ip - anchor)).length = ip := by
    rw [slice_length, slice_length, Nat.add_sub_of_le h.anchor_le]
  have hend := h.end_le
  refine ⟨?_, ?_, .inr ?_⟩
  · rw [Machine.replay, happly]
    exact hr.replay
  · rw [conformingItems, happly, hop]
    exact ⟨four_le_listingMatchLen P src n ip ref, Nat.sub_pos_of_lt h.ref_lt, Nat.sub_le _ _,
      h.near, h.mfLimit, hend, hr.items⟩
  · obtain ⟨-, hlast⟩ | hlast := hr.last
    · rwa [hlast]
    · exact hlast

/-- The loop behind a match covers the rest of the input if its passes do. -/
theorem listingNext_covers {fuel ip : Nat} {tab : Nat → Nat} (hP : P.wf) (hn : P.mfLimit ≤ n)
    (hv : v = .narrow → n ≤ 65536) (htab : PositionsBelow tab ip)
    (ih : ∀ {cand tab ip anchor}, PassReady P src n anchor ip tab cand →
      Covers P src n anchor (listingItems P v src n fuel cand tab ip anchor)) :
    Covers P src n ip (listingNext P v src n fuel ip tab) := by
  have hstored := htab.listingStore (bucket P v src ip)
  unfold listingNext
  split
  · exact covers_nil P src n ip
  next hlimit =>
    split
    next hverify =>
      exact ih ⟨_, startsMatch_of_verify (b := 0) hP hv hverify (htab _) (by omega) hstored
        (Nat.le_refl _) (Nat.zero_le _) nofun⟩
    next => exact ih ⟨Nat.le_succ ip, hstored⟩

theorem listingItems_covers {fuel : Nat} {cand : Option Nat} {tab : Nat → Nat} {ip anchor : Nat}
    (hP : P.wf) (hn : P.mfLimit ≤ n) (hv : v = .narrow → n ≤ 65536)
    (hready : PassReady P src n anchor ip tab cand) :
    Covers P src n anchor (listingItems P v src n fuel cand tab ip anchor) := by
  induction fuel generalizing cand tab ip anchor with
  | zero => exact covers_nil P src n anchor
  | succ fuel ih =>
    rw [listingItems_succ]
    split
    next => exact covers_nil P src n anchor
    next mstart ref tab' hstart =>
      obtain ⟨len, hmatch⟩ := listingStart_startsMatch hP hn hv hready hstart
      have htab := hmatch.table.mono (Nat.add_le_add_left hmatch.len_le mstart)
      exact hmatch.covers_cons (listingNext_covers hP hn hv htab ih)

/-! ## The size of a stream -/

@[simp] theorem copyBack_length (k offset : Nat) (out : List Byte) :
    (copyBack k offset out).length = out.length + k := by
  induction k generalizing out with
  | zero => rfl
  | succ k ih =>
    rw [copyBack, ih, List.length_append, List.length_singleton]
    omega

@[simp] theorem SeqItem.apply_length (out : List Byte) (q : SeqItem) :
    (q.apply out).length = out.length + q.lits.length + q.m := by
  rw [SeqItem.apply, copyBack_length, List.length_append]

theorem litext_le (len : Nat) : 255 * litext len ≤ len + 240 := by
  unfold litext
  split
  next => omega
  next hlen =>
    simp only [Config.nibbleMax, Config.extContinue] at hlen ⊢
    omega

theorem matchext_le {m : Nat} (hm : 4 ≤ m) : 255 * matchext m + 1005 ≤ 256 * m := by
  unfold matchext
  split
  next => omega
  next hlong =>
    simp only [Config.nibbleMax, Config.minMatch, Config.extContinue] at hlong ⊢
    omega

/-- The bytes of a sequence: a match of at least four bytes pays for the control byte and the offset, so
that only one byte for each 255 of the output can be added. -/
theorem seqBytes_length_le {lits : List Byte} {offset m : Nat} (hm : 4 ≤ m) :
    255 * (seqBytes lits offset m).length ≤ 256 * (lits.length + m) := by
  have hlit := litext_le lits.length
  have hmatch := matchext_le hm
  rw [seqBytes_length]
  omega

theorem lastBytes_length_le (lits : List Byte) :
    255 * (lastBytes lits).length ≤ 256 * lits.length + 495 := by
  have hlit := litext_le lits.length
  rw [lastBytes_length]
  omega

/-- A stream takes at most 256 bytes for each 255 of its output, and the terminal run's own two. -/
theorem streamBytes_length_le {items : List SeqItem} {out last : List Byte}
    (h : conformingItems P n out items) :
    255 * (streamBytes items last).length + 256 * out.length ≤
      256 * (replay out items ++ last).length + 495 := by
  induction items generalizing out with
  | nil =>
    have hlast := lastBytes_length_le last
    rw [streamBytes, replay, List.length_append]
    omega
  | cons q items ih =>
    obtain ⟨hm, -, -, -, -, -, hitems⟩ := h
    have hrest := ih hitems
    have hseq := seqBytes_length_le (lits := q.lits) (offset := q.offset) hm
    rw [SeqItem.apply_length] at hrest
    rw [streamBytes, replay, List.length_append]
    omega

/-! ## The encoder listing -/

theorem variantOf_eq_narrow (h : variantOf n = .narrow) : n ≤ 65536 := by
  unfold variantOf at h
  split at h
  next hlt => exact Nat.le_of_lt hlt
  next => cases h

/-- Below MINLENGTH there is only the terminal run (`30_encoding.md` R106 (d)). -/
theorem listingEncode_of_lt (src : Nat → Byte) (h : n < P.minLength) :
    listingEncode P src n = ([], slice src 0 n) := if_pos h

/-- From MINLENGTH on the loop starts at index 1 with an empty table and no literals behind it. -/
theorem listingEncode_covers (src : Nat → Byte) (hP : P.wf) (hmin : P.minLength ≤ n) :
    ∃ anchor, Covers P src n 0 ((listingEncode P src n).1, anchor) ∧
      (listingEncode P src n).2 = slice src anchor (n - anchor) := by
  have hn : P.mfLimit ≤ n := by
    obtain ⟨-, -, -, -, hlen, -⟩ := hP
    omega
  have hstart : PassReady P src n 0 1 (fun _ => 0) none :=
    ⟨Nat.zero_le 1, fun _ => Nat.zero_lt_one⟩
  rw [listingEncode, if_neg (Nat.not_lt.2 hmin)]
  exact ⟨_, listingItems_covers hP hn variantOf_eq_narrow hstart, rfl⟩

/-- The listing's stream conforms for its input (`30_encoding.md` R106 (a) to (d) and (f)). -/
theorem listingEncode_conforming (src : Nat → Byte) (n : Nat) (hP : P.wf) :
    conforming P (slice src 0 n) (listingEncode P src n).1 (listingEncode P src n).2 := by
  unfold conforming
  rw [slice_length]
  obtain hlt | hmin := Nat.lt_or_ge n P.minLength
  · rw [listingEncode_of_lt src hlt]
    exact ⟨rfl, trivial, nofun, fun _ => rfl⟩
  · obtain ⟨anchor, ⟨hreplay, hitems, hlast⟩, hrun⟩ := listingEncode_covers src hP hmin
    dsimp only at hreplay hitems hlast
    have hle : anchor ≤ n := by
      obtain ⟨-, rfl⟩ | hend := hlast
      · exact Nat.zero_le n
      · exact Nat.le_trans (Nat.le_add_right _ _) hend
    rw [hrun, slice_length]
    refine ⟨?_, hitems, fun hne => ?_, fun hlt => absurd hlt (Nat.not_lt.2 hmin)⟩
    · exact (congrArg (· ++ _) hreplay).trans (slice_append_slice hle)
    · exact Nat.le_sub_of_add_le' (hlast.resolve_left fun h => hne h.1)

/-- The stream of an empty input is one control byte (`30_encoding.md` R106 (e)). -/
theorem streamBytes_listingEncode_zero (src : Nat → Byte) (hP : P.wf) :
    streamBytes (listingEncode P src 0).1 (listingEncode P src 0).2 = [0] := by
  have hmin : 0 < P.minLength := by
    obtain ⟨-, -, -, -, hlen, -⟩ := hP
    omega
  rw [listingEncode_of_lt src hmin]
  rfl

/-- The size bound (`30_encoding.md` R106 (g)). -/
theorem streamBytes_listingEncode_length_le (src : Nat → Byte) (n : Nat) (hP : P.wf) :
    (streamBytes (listingEncode P src n).1 (listingEncode P src n).2).length ≤
      n + max 8 ((n + 19) / 20) := by
  obtain ⟨hreplay, hitems, -⟩ := listingEncode_conforming src n hP
  have hsize := streamBytes_length_le (last := (listingEncode P src n).2) hitems
  rw [hreplay, slice_length, List.length_nil] at hsize
  omega

/-- Settles O19: conforming by what the loop covers, an empty input by the short branch, the size by what
each sequence adds to its output. -/
theorem encoderOutputConforms : Obligations.EncoderOutputConforms := by
  intro P src n hP
  refine ⟨listingEncode_conforming src n hP, ?_, streamBytes_listingEncode_length_le src n hP⟩
  rintro rfl
  exact streamBytes_listingEncode_zero src hP

end Sys2Proof.Machine
end

