-- ==== Sys2Proof/Proofs/Primitives.lean ====
section
/-! The primitives of `40_primitives.md`: a little-endian access is a number written in base 256,
NBCOMMON finds the lowest nonzero byte of an exclusive or, and HASH at its formula and example values. -/

namespace Sys2Proof.Machine

/-! ## The bytes of a word -/

@[simp] theorem wordBytes_length (k v : Nat) : (wordBytes k v).length = k := by
  induction k generalizing v with
  | zero => rfl
  | succ k ih => rw [wordBytes, List.length_cons, ih]

/-- Dropping the lowest byte and then `j` more drops `j + 1`. -/
theorem div_byte_div_pow (v j : Nat) : v / 256 / 256 ^ j = v / 256 ^ (j + 1) := by
  rw [Nat.div_div_eq_div_mul, Nat.pow_succ']

theorem getElem?_wordBytes {k j : Nat} (v : Nat) (h : j < k) :
    (wordBytes k v)[j]? = some (BitVec.ofNat 8 (v / 256 ^ j)) := by
  induction k generalizing v j with
  | zero => exact absurd h (Nat.not_lt_zero j)
  | succ k ih =>
    cases j with
    | zero => simp [wordBytes]
    | succ j =>
      rw [wordBytes, List.getElem?_cons_succ, ih _ (Nat.lt_of_succ_lt_succ h), div_byte_div_pow]

theorem ofDigits_wordBytes (k v : Nat) :
    Nat.ofDigits 256 ((wordBytes k v).map BitVec.toNat) = v % 256 ^ k := by
  induction k generalizing v with
  | zero => rw [Nat.pow_zero, Nat.mod_one]; rfl
  | succ k ih =>
    rw [wordBytes, List.map_cons, Nat.ofDigits_cons, ih, Nat.pow_succ', Nat.mod_mul,
      BitVec.toNat_ofNat]

/-! ## Little-endian accesses -/

/-- A read of written bytes is the number whose base-256 digits they are. -/
theorem Memory.readLE_eq_ofDigits {m : Memory} {a : Nat} (bs : List Byte)
    (h : ∀ j, j < bs.length → m.read (a + j) = bs[j]?) :
    Memory.readLE bs.length m a = some (Nat.ofDigits 256 (bs.map BitVec.toNat)) := by
  induction bs generalizing a with
  | nil => rfl
  | cons b bs ih =>
    have hhead : m.read a = some b := h 0 (Nat.zero_lt_succ _)
    have htail : ∀ j, j < bs.length → m.read (a + 1 + j) = bs[j]? := fun j hj => by
      rw [Nat.add_assoc, Nat.add_comm 1 j]
      exact h (j + 1) (Nat.succ_lt_succ hj)
    rw [List.length_cons, Memory.readLE, hhead, ih htail, List.map_cons, Nat.ofDigits_cons]

/-- The number a run of bytes spells, as the sum over its byte indices. -/
theorem ofDigits_bytes_eq_sum (bs : List Byte) :
    Nat.ofDigits 256 (bs.map BitVec.toNat) =
      ((List.range bs.length).map fun j => (bs.getD j 0).toNat * 256 ^ j).sum := by
  rw [Nat.ofDigits_eq_sum_mapIdx]
  congr 1
  apply List.ext_getElem
  · simp
  · intro j hj _
    have hlt : j < bs.length := by simpa using hj
    simp [hlt]

theorem Memory.read_writeLE (m : Memory) (a v : Nat) {k j : Nat} (h : j < k) :
    (m.writeLE a k v).read (a + j) = some (BitVec.ofNat 8 (v / 256 ^ j)) := by
  rw [Memory.writeLE, Memory.read_writeBytes _ _ _ _ (by rwa [wordBytes_length]),
    getElem?_wordBytes v h]

theorem Memory.read_writeLE_outside (m : Memory) {a k b : Nat} (v : Nat)
    (h : b < a ∨ a + k ≤ b) : (m.writeLE a k v).read b = m.read b :=
  Memory.read_writeBytes_outside _ _ _ _ (by rwa [wordBytes_length])

/-- A read of what a write of `k` bytes left is the written number, cut to `k` bytes. -/
theorem Memory.readLE_writeLE (m : Memory) (a k v : Nat) :
    Memory.readLE k (m.writeLE a k v) a = some (v % 256 ^ k) := by
  have hread := Memory.readLE_eq_ofDigits (m := m.writeLE a k v) (a := a) (wordBytes k v)
    fun j hj => Memory.read_writeBytes _ _ _ _ hj
  rwa [wordBytes_length, ofDigits_wordBytes] at hread

/-- Settles O50: reads and writes both through the base-256 digits of the word. -/
theorem littleEndianAccesses : Obligations.LittleEndianAccesses := by
  intro mem a k
  refine ⟨?_, fun v hv => ?_, fun v j hj => mem.read_writeLE a v hj,
    fun v b hb => mem.read_writeLE_outside v hb⟩
  · rintro bs rfl hbs
    rw [Memory.readLE_eq_ofDigits bs hbs, ofDigits_bytes_eq_sum]
  · rw [Memory.readLE_writeLE, Nat.mod_eq_of_lt hv]

/-! ## NBCOMMON -/

/-- A nonzero number of at most `k` bytes has a nonzero byte among them, and `zeroBytes` is the index of
the lowest one. -/
theorem zeroBytes_spec {k v : Nat} (hlt : v < 256 ^ k) (hne : v ≠ 0) :
    zeroBytes k v < k ∧ (∀ j, j < zeroBytes k v → v / 256 ^ j % 256 = 0) ∧
      v / 256 ^ zeroBytes k v % 256 ≠ 0 := by
  induction k generalizing v with
  | zero => exact absurd (Nat.lt_one_iff.1 hlt) hne
  | succ k ih =>
    rw [zeroBytes]
    split
    case isFalse hlow => exact ⟨Nat.zero_lt_succ k, nofun, by simpa using hlow⟩
    case isTrue hlow =>
      have hhigh : v / 256 < 256 ^ k := Nat.div_lt_of_lt_mul (by rwa [← Nat.pow_succ'])
      obtain ⟨hk, hzero, hbyte⟩ := ih hhigh (by omega)
      refine ⟨Nat.succ_lt_succ hk, fun j hj => ?_, by rwa [← div_byte_div_pow]⟩
      cases j with
      | zero => simpa using hlow
      | succ j => rw [← div_byte_div_pow]; exact hzero j (Nat.lt_of_succ_lt_succ hj)

theorem pow_byte_eq_two_pow (j : Nat) : 256 ^ j = 2 ^ (8 * j) := by rw [Nat.pow_mul]

/-- A byte of an exclusive or is 0 where the two words have the same byte. -/
theorem byte_xor_eq_zero_iff (a b j : Nat) :
    (a ^^^ b) / 256 ^ j % 256 = 0 ↔ a / 256 ^ j % 256 = b / 256 ^ j % 256 := by
  have hbyte : (a ^^^ b) / 256 ^ j % 2 ^ 8 = a / 256 ^ j % 2 ^ 8 ^^^ b / 256 ^ j % 2 ^ 8 := by
    rw [pow_byte_eq_two_pow, Nat.xor_div_two_pow, Nat.xor_mod_two_pow]
  exact hbyte ▸ Nat.xor_eq_zero_iff

/-- Settles O51: two words agree in a byte where their exclusive or has a zero byte. -/
theorem commonLeadingBytes : Obligations.CommonLeadingBytes := by
  intro width a b ha hb hne
  have hxor : a ^^^ b < 256 ^ width := by
    rw [pow_byte_eq_two_pow] at ha hb ⊢
    exact Nat.xor_lt_two_pow ha hb
  obtain ⟨hlt, hzero, hbyte⟩ := zeroBytes_spec hxor (mt Nat.xor_eq_zero_iff.1 hne)
  rw [nbCommon, if_neg hne]
  exact ⟨hlt, fun j hj => (byte_xor_eq_zero_iff a b j).1 (hzero j hj),
    mt (byte_xor_eq_zero_iff a b _).2 hbyte⟩

/-! ## HASH -/

/-- HASH as the rule writes it, with a shift in place of the division. -/
theorem hash_eq_shiftRight (bits log w : Nat) :
    hash bits log w = (w * 2654435761 % 2 ^ bits) >>> (bits - log) :=
  (Nat.shiftRight_eq_div_pow _ _).symm

/-- Settles O52: the formula and the range for every width, the rule's examples by evaluation. -/
theorem hashFormulaAndRange : Obligations.HashFormulaAndRange := by
  refine ⟨fun bits log w _ => ⟨hash_eq_shiftRight bits log w, hash_lt bits log w⟩, ?_⟩
  decide

end Sys2Proof.Machine
end

