-- ==== Sys2Proof/Proofs/MatchFinder.lean ====
section
/-! The match finder (`41_match_finder.md`): what TABLE_CLEAR, VERIFY and PROBE do, and what stands in the
table after a COMPRESS. The last rests on an invariant of the encoder's run: every entry of the geometry
in use lists a position of this input in its own bucket. It speaks of what the table lists, so it needs no
premise on the table that an earlier command left. -/

namespace Sys2Proof.Machine

/-! ## Entries of the table -/

theorem Assoc.mem_of_get_eq_some {α : Type} {l : List (Nat × α)} {a : Nat} {v : α}
    (h : Assoc.get l a = some v) : (a, v) ∈ l := by
  induction l with
  | nil => cases h
  | cons e l ih =>
    obtain ⟨k, w⟩ := e
    rw [Assoc.get_cons] at h
    split at h
    next hk =>
      obtain rfl : w = v := Option.some.inj h
      exact hk ▸ List.mem_cons_self
    next => exact List.mem_cons_of_mem _ (ih h)

/-- An entry that is not 0 is listed. -/
theorem Tab.mem_of_get_ne_zero {t : Tab} {h : Nat} (hne : Tab.get t h ≠ 0) :
    (h, Tab.get t h) ∈ t := by
  unfold Tab.get at hne ⊢
  cases hget : Assoc.get t h with
  | none => simp [hget] at hne
  | some p => exact Assoc.mem_of_get_eq_some hget

/-! ## TABLE_CLEAR -/

theorem get_tableClear (P : Config.Params) (v : Variant) (t : Tab) (h : Nat) :
    Tab.get (tableClear P v t) h = if 2 ^ hashLog P v ≤ h then Tab.get t h else 0 := by
  unfold Tab.get tableClear
  rw [Assoc.get_filter_key t fun k => decide (2 ^ hashLog P v ≤ k)]
  by_cases hle : 2 ^ hashLog P v ≤ h <;> simp [hle]

theorem wf_tableClear {t : Tab} (P : Config.Params) (v : Variant) (ht : Tab.wf t) :
    Tab.wf (tableClear P v t) := by
  obtain ⟨hsorted, hpos⟩ := ht
  exact ⟨Assoc.wf_filter _ hsorted, fun e he => hpos e (List.mem_of_mem_filter he)⟩

/-- Settles O53: an entry after the clear is 0 or the old one, by which side of the geometry's size its
index lies on. -/
theorem tableClearEffect : Obligations.TableClearEffect := by
  intro P v t
  refine ⟨fun h hh => ?_, fun h hh => ?_, wf_tableClear P v⟩
  · rw [get_tableClear, if_neg (Nat.not_le.2 hh)]
  · rw [get_tableClear, if_pos hh]

/-! ## VERIFY and PROBE -/

/-- Settles O54: two words of four bytes are equal exactly when their bytes are. -/
theorem verifyComparesFourBytes : Obligations.VerifyComparesFourBytes :=
  fun _ _ _ _ => verify_eq_true

/-- The table after a probe: the position, cut to the entry's width (log 28), in its bucket, and every
other entry as it was. -/
theorem get_probe_tab {e : Enc} (P : Config.Params) (src : Nat → Byte) (p x : Nat)
    (he : Tab.wf e.tab) :
    Tab.get (probe P src p e).1.tab x =
      if bucket P e.w.variant src p = x then p % 2 ^ entryW P e.w.variant else Tab.get e.tab x := by
  rw [probe_tab, insertPos_tab, Tab.get_set _ _ _ he.1]

/-- Settles O55: the candidate is looked up in the table before the insert, so the write of entry `h`
does not show in it. -/
theorem probeLooksUpThenInserts : Obligations.ProbeLooksUpThenInserts := by
  rintro P src p h e - he hp rfl
  refine ⟨bucket_lt P _ src p, probe_w P src p e, probe_verify P src p e, ?_, fun x hx => ?_,
    probe_out P src p e, Tab.wf_set _ _ he⟩
  · rw [get_probe_tab P src p _ he, if_pos rfl, Nat.mod_eq_of_lt hp]
  · rw [get_probe_tab P src p x he, if_neg hx.symm]

/-! ## The table during an encoding -/

/-- Every entry that the table lists below the geometry's size is a position of the input, with its four
bytes inside it, and stands in its own bucket (`41_match_finder.md` R156). -/
def Tab.HoldsPositions (P : Config.Params) (v : Variant) (src : Nat → Byte) (n : Nat) (t : Tab) :
    Prop :=
  ∀ x ∈ t, x.1 < 2 ^ hashLog P v → x.2 + 3 < n ∧ bucket P v src x.2 = x.1

/-- What an encoder keeps in which SEARCH can run: the variant of the command, a limit that leaves the
four bytes of every scanned position inside the input, and a table of such positions. -/
structure Enc.HoldsPositions (P : Config.Params) (v : Variant) (src : Nat → Byte) (n : Nat)
    (e : Enc) : Prop where
  variant : e.w.variant = v
  mflimit : e.w.mflimit + 3 < n
  tab : Tab.HoldsPositions P v src n e.tab

section Encoding

variable {P : Config.Params} {v : Variant} {src : Nat → Byte} {n : Nat} {e : Enc}

/-- A cleared table lists nothing below the geometry's size. -/
theorem tableClear_holdsPositions (t : Tab) :
    Tab.HoldsPositions P v src n (tableClear P v t) := by
  intro x hx hlt
  have hle : 2 ^ hashLog P v ≤ x.1 := of_decide_eq_true (List.mem_filter.1 hx).2
  exact absurd hlt (Nat.not_lt.2 hle)

/-- INSERT of a position of the input, which fits its entry, keeps the invariant. -/
theorem Enc.HoldsPositions.insertPos (h : e.HoldsPositions P v src n) (hfit : n ≤ 2 ^ entryW P v)
    {p : Nat} (hp : p + 3 < n) : (insertPos P src p e).HoldsPositions P v src n := by
  refine ⟨h.variant, h.mflimit, fun x hx => ?_⟩
  rw [insertPos_tab, h.variant, Nat.mod_eq_of_lt (by omega)] at hx
  obtain rfl | hx := Tab.mem_set hx
  · exact fun _ => ⟨hp, rfl⟩
  · exact h.tab x hx

theorem Enc.HoldsPositions.probe (h : e.HoldsPositions P v src n) (hfit : n ≤ 2 ^ entryW P v)
    {p : Nat} (hp : p + 3 < n) : (probe P src p e).1.HoldsPositions P v src n :=
  { h.insertPos hfit hp with }

/-- An attempt of SEARCH probes a position only up to `mflimit`. -/
theorem searchLoop_holdsPositions (hfit : n ≤ 2 ^ entryW P v) (fuel : Nat)
    (h : e.HoldsPositions P v src n) : (searchLoop P src fuel e).2.HoldsPositions P v src n := by
  induction fuel generalizing e with
  | zero => exact h
  | succ fuel ih =>
    have hnext : (e.nextAttempt P).HoldsPositions P v src n := { h with }
    rw [searchLoop_succ]
    split
    next => exact hnext
    next hlimit =>
      have hfwd : e.w.fwd ≤ (e.nextAttempt P).w.fwd := Nat.le_add_right _ _
      have hlim := h.mflimit
      have hprobe := hnext.probe hfit (p := e.w.fwd) (by omega)
      split
      · exact hprobe
      · exact ih hprobe

theorem encAfterMatch_holdsPositions (hfit : n ≤ 2 ^ entryW P v) (h : e.HoldsPositions P v src n) :
    (encAfterMatch P src e).2.HoldsPositions P v src n := by
  rw [encAfterMatch_eq]
  split
  next => exact h
  next hlimit =>
    have hlim := h.mflimit
    have hprobe := h.probe hfit (p := e.w.ip) (by omega)
    split <;> exact { hprobe with }

/-- Three labels insert positions into the table; the others touch neither it nor the limit. -/
theorem encStep_holdsPositions (hfit : n ≤ 2 ^ entryW P v) (l : EncLabel)
    (h : e.HoldsPositions P v src n) : (encStep P src l e).2.HoldsPositions P v src n := by
  cases l with
  | seed =>
    have hlim := h.mflimit
    exact { h.insertPos hfit (p := 0) (by omega) with }
  | search => exact searchLoop_holdsPositions hfit _ { h with }
  | afterMatch => exact encAfterMatch_holdsPositions hfit h
  | catchUp | emitLiterals | emitMatch | extend | emitMatchlen | lastLiterals | done =>
    exact { h with }

theorem encRun_holdsPositions (hfit : n ≤ 2 ^ entryW P v) (k : Nat) {r : EncLabel × Enc}
    (h : r.2.HoldsPositions P v src n) : (encRun P src k r).2.HoldsPositions P v src n := by
  induction k generalizing r with
  | zero => exact h
  | succ k ih =>
    rw [encRun]
    split
    · exact h
    · exact ih (encStep_holdsPositions hfit r.1 h)

/-- Once only the terminal literals are due, the table stays. -/
theorem encRun_tab_of_lastLiterals (k : Nat) {r : EncLabel × Enc} (hr : r.1 = .lastLiterals) :
    (encRun P src k r).2.tab = r.2.tab := by
  obtain ⟨l, e⟩ := r
  obtain rfl : l = .lastLiterals := hr
  cases k with
  | zero => rfl
  | succ k =>
    rw [encRun_succ (by decide), encStep, encLastLiterals, encRun_done]
    rfl

/-! ## ENC_START -/

theorem encStart_label_of_lt (e : Enc) (h : n < P.minLength) :
    (encStart P n e).1 = .lastLiterals := by
  simp [encStart, h]

theorem encStart_mflimit (e : Enc) (h : ¬ n < P.minLength) :
    (encStart P n e).2.w.mflimit = n - P.mfLimit := by
  simp [encStart, h]

theorem encStart_variant (P : Config.Params) (n : Nat) (e : Enc) :
    (encStart P n e).2.w.variant = e.w.variant := by
  unfold encStart
  split <;> rfl

/-- The table after an encoding: as TABLE_CLEAR left it when the input is short, and filled with its
positions else. MINLENGTH is above MFLIMIT and MFLIMIT at least 4 (`00_scope.md` R8 (c) to (e)), so
`mflimit` leaves four bytes. -/
theorem encode_tab_holdsPositions (hP : P.wf) (hfit : n ≤ 2 ^ entryW P (variantOf n))
    (src : Nat → Byte) (w : Work) (t : Tab) :
    Tab.HoldsPositions P (variantOf n) src n (encode P src n w t).2.tab := by
  obtain ⟨-, -, hfour, -, hmin, -⟩ := hP
  simp only [Config.minMatch] at hfour
  unfold encode
  by_cases h : n < P.minLength
  · rw [encRun_tab_of_lastLiterals _ (encStart_label_of_lt _ h), encStart_tab]
    exact tableClear_holdsPositions t
  · refine (encRun_holdsPositions hfit _ ⟨encStart_variant P n _, ?_, ?_⟩).tab
    · rw [encStart_mflimit _ h]
      omega
    · rw [encStart_tab]
      exact tableClear_holdsPositions t

end Encoding

/-! ## COMPRESS -/

theorem Block.badCompress_eq_false {P : Config.Params} {s : Block P} :
    s.badCompress = false ↔ s.compressArgs := by
  simp [Block.badCompress, Block.badSource, Block.compressArgs, signed_eq_toInt, and_assoc]

/-- Settles O24: the table of a COMPRESS that ran is the encoder's, and an entry other than 0 is one that
it lists. -/
theorem tableHoldsThisInputsPositions : Obligations.TableHoldsThisInputsPositions := by
  rintro P s t ⟨hP, -, hfit⟩ hargs hexec h hh hne
  have hgood := Block.badCompress_eq_false.2 hargs
  obtain ⟨hbad, -⟩ | ⟨-, -, -, -, rfl⟩ := Block.compress_next.1 hexec
  · simp [hgood] at hbad
  · exact encode_tab_holdsPositions hP hfit _ _ _ _ (Tab.mem_of_get_ne_zero hne) hh

end Sys2Proof.Machine
end

