-- ==== Sys2Proof/Proofs/LengthCodec.lean ====
section
/-! The length codec (`42_length_codec.md`): what ENC_EXT writes, what DEC_EXT makes of the unread bytes,
and that each undoes the other. A byte string with an extension at its front is an `extRun` and the bytes
behind it; that `extSum` reads the run is `extSum_extRun`, and the converse is `extRun_of_extSum`. -/

namespace Sys2Proof

/-! ## ENC_EXT -/

theorem extRun_eq_replicate (k r : Nat) :
    extRun k r = List.replicate k (255 : Byte) ++ [BitVec.ofNat 8 r] := by
  induction k with
  | zero => rfl
  | succ k ih =>
    rw [extRun, ih, List.replicate_succ, List.cons_append]
    rfl

theorem extOf_of_le {v : Nat} (hv : Config.nibbleMax ≤ v) : extOf v = extBytes v :=
  if_neg (Nat.not_lt.2 hv)

theorem extBytes_length (v : Nat) :
    (extBytes v).length = 1 + (v - Config.nibbleMax) / Config.extContinue := by
  rw [extBytes, extRun_length, Nat.add_comm]

/-- Settles O47: the run is ENC_EXT's by `extRun_eq_replicate`, and `emit` moves the cursor by its
length. -/
theorem extensionBytesWritten : Obligations.ExtensionBytesWritten := fun v e _ =>
  ⟨extRun_eq_replicate _ _, Machine.Enc.emit_out e _,
    congrArg (e.w.op + ·) (extBytes_length v)⟩

/-! ## Reading an extension -/

/-- A byte other than 255 closes an extension, and is its own value. -/
theorem byte_toNat_lt_extContinue {b : Byte} (hb : b ≠ 255) : b.toNat < Config.extContinue := by
  have hne : b.toNat ≠ 255 := fun h => hb (BitVec.eq_of_toNat_eq h)
  have hlt := b.isLt
  simp only [Config.extContinue]
  omega

theorem extSum_cons_continue (rest : List Byte) :
    extSum (255 :: rest) = (extSum rest).map fun (v, c) => (Config.extContinue + v, c + 1) := by
  rw [extSum, if_pos (show (255 : Byte).toNat = Config.extContinue from rfl)]
  cases extSum rest <;> rfl

theorem extSum_cons_closing {b : Byte} (hb : b ≠ 255) (rest : List Byte) :
    extSum (b :: rest) = some (b.toNat, 1) := by
  rw [extSum, if_neg (Nat.ne_of_lt (byte_toNat_lt_extContinue hb))]

/-- Bytes of 255 alone have no closing byte. -/
theorem extSum_replicate_continue (k : Nat) : extSum (List.replicate k (255 : Byte)) = none := by
  induction k with
  | zero => rfl
  | succ k ih => rw [List.replicate_succ, extSum_cons_continue, ih, Option.map_none]

/-- Bytes of 255 and a closing byte are an extension (`42_length_codec.md` R175). -/
theorem extSum_replicate_closing (k : Nat) {e : Byte} (he : e ≠ 255) (rest : List Byte) :
    extSum (List.replicate k (255 : Byte) ++ e :: rest) = some (255 * k + e.toNat, k + 1) := by
  have hrun : List.replicate k (255 : Byte) ++ e :: rest = extRun k e.toNat ++ rest := by
    rw [extRun_eq_replicate, BitVec.ofNat_toNat, BitVec.setWidth_eq, List.append_assoc,
      List.singleton_append]
  rw [hrun, extSum_extRun (byte_toNat_lt_extContinue he)]
  rfl

/-- Settles O48: `extSum` finds the closing byte, or finds none where `unread` ends at the read limit. -/
theorem extensionDecoded : Obligations.ExtensionDecoded := by
  intro P set s
  constructor
  · intro k e rest he hunread
    exact Machine.decExt_go.2 ⟨_, _, hunread ▸ extSum_replicate_closing k he rest, rfl⟩
  · intro hunread
    have hlen : s.unread.length = s.work.ilim - s.work.ip := by rw [hunread, List.length_replicate]
    have hnone : extSum s.unread = none := by rw [hunread, extSum_replicate_continue]
    exact Machine.decExt_raised.2 ⟨hnone, hlen, rfl, by rw [hlen]⟩

/-! ## Round trip -/

/-- What decodes starts with a run of 255s and a closing byte, which the sum and the count determine. -/
theorem extRun_of_extSum {bs : List Byte} {v c : Nat} (h : extSum bs = some (v, c)) :
    ∃ k r rest, r < Config.extContinue ∧ bs = extRun k r ++ rest ∧
      v = Config.extContinue * k + r ∧ c = k + 1 := by
  induction bs generalizing v c with
  | nil => cases h
  | cons b bs ih =>
    by_cases hb : b = 255
    · subst hb
      rw [extSum_cons_continue, Option.map_eq_some_iff] at h
      obtain ⟨⟨v', c'⟩, htail, heq⟩ := h
      obtain ⟨rfl, rfl⟩ := Prod.mk.inj heq
      obtain ⟨k, r, rest, hr, rfl, rfl, rfl⟩ := ih htail
      exact ⟨k + 1, r, rest, hr, rfl, by rw [Nat.mul_succ]; omega, rfl⟩
    · rw [extSum_cons_closing hb] at h
      obtain ⟨rfl, rfl⟩ := Prod.mk.inj (Option.some.inj h)
      refine ⟨0, b.toNat, bs, byte_toNat_lt_extContinue hb, ?_, (Nat.zero_add _).symm, rfl⟩
      rw [extRun, BitVec.ofNat_toNat, BitVec.setWidth_eq, List.singleton_append]

/-- The division of R172 undoes the sum of R175: each sum has one spelling. -/
theorem extOf_add_eq_extRun {k r : Nat} (hr : r < Config.extContinue) :
    extOf (Config.nibbleMax + (Config.extContinue * k + r)) = extRun k r := by
  rw [extOf_of_le (Nat.le_add_right _ _), extBytes, Nat.add_sub_cancel_left,
    Nat.mul_add_div (by decide), Nat.mul_add_mod, Nat.div_eq_of_lt hr, Nat.mod_eq_of_lt hr,
    Nat.add_zero]

/-- ENC_EXT writes for the sum exactly the bytes that DEC_EXT read (`42_length_codec.md` R179). -/
theorem take_eq_extOf_of_extSum {bs : List Byte} {v c : Nat} (h : extSum bs = some (v, c)) :
    bs.take c = extOf (Config.nibbleMax + v) := by
  obtain ⟨k, r, rest, hr, rfl, rfl, rfl⟩ := extRun_of_extSum h
  rw [extOf_add_eq_extRun hr, List.take_left' (extRun_length k r)]

/-- Settles O49: `extSum_extOf` is the one way, `take_eq_extOf_of_extSum` the other. -/
theorem codecRoundTrip : Obligations.CodecRoundTrip := by
  refine ⟨fun v hv => ⟨nibble_of_lt hv, if_pos hv⟩, fun v rest hv => ?_,
    fun bs v k => take_eq_extOf_of_extSum⟩
  have hlen : (extOf v).length = 1 + (v - 15) / 255 := by
    rw [extOf_of_le hv]
    exact extBytes_length v
  have hread : extSum (extOf v ++ rest) = some (v - 15, (extOf v).length) := by
    rw [extOf_length]
    exact extSum_extOf hv rest
  exact ⟨nibble_of_le hv, hlen, hread⟩

end Sys2Proof
end

