-- ==== Sys2Proof/Proofs/EncoderRefinement.lean ====
section
/-! The encoder's steps come to the listing (`43_encoder.md` R204). A machine follows the listing
when its table reads as the listing's and its registers hold the listing's values; the steps of one
pass keep that and write the bytes of the pass's sequence. -/

namespace Sys2Proof.Machine

variable {P : Config.Params} {src : Nat → Byte} {n : Nat}

/-! ## Runs of the encoder -/

/-- From `r` the encoder comes to `r'` in `j` steps, whatever fuel is left behind them. -/
def Reaches (P : Config.Params) (src : Nat → Byte) (j : Nat) (r r' : EncLabel × Enc) : Prop :=
  ∀ k, encRun P src (k + j) r = encRun P src k r'

theorem Reaches.refl (r : EncLabel × Enc) : Reaches P src 0 r r := fun _ => rfl

theorem Reaches.step {l : EncLabel} {e : Enc} {r : EncLabel × Enc} (hl : l ≠ .done)
    (h : encStep P src l e = r) : Reaches P src 1 (l, e) r := fun _ => h ▸ encRun_succ hl

theorem Reaches.trans {i j : Nat} {r r' r'' : EncLabel × Enc} (h : Reaches P src i r r')
    (h' : Reaches P src j r' r'') : Reaches P src (i + j) r r'' := fun k => by
  rw [Nat.add_comm i, ← Nat.add_assoc, h, h']

/-- A run that is done after `j` steps is done with any fuel from `j` on. -/
theorem Reaches.encRun_eq {j k : Nat} {r : EncLabel × Enc} {e : Enc}
    (h : Reaches P src j r (.done, e)) (hjk : j ≤ k) : encRun P src k r = (.done, e) := by
  obtain ⟨i, rfl⟩ := Nat.exists_eq_add_of_le' hjk
  rw [h, encRun_done]

/-! ## The terminal literals -/

theorem encLastLiterals_eq (src : Nat → Byte) (e : Enc) :
    ∃ e', encLastLiterals src e = (.done, e') ∧ e'.tab = e.tab ∧ e'.w.n = e.w.n ∧
      e'.out = e.out ++ lastBytes (slice src e.w.anchor (e.w.n - e.w.anchor)) := by
  refine ⟨_, rfl, rfl, rfl, ?_⟩
  simp [lastBytes]

/-- Below MINLENGTH the encoder writes the terminal sequence and nothing else (`43_encoder.md` R191,
R203). -/
theorem encode_of_lt (src : Nat → Byte) (w : Work) (t : Tab) (h : n < P.minLength) :
    ∃ e, encode P src n w t = (.done, e) ∧ e.tab = tableClear P (variantOf n) t ∧ e.w.n = n ∧
      e.out = lastBytes (slice src 0 n) := by
  have hstart (e : Enc) : encStart P n e =
      (.lastLiterals, { e with w := { e.w with n := n, ip := 0, anchor := 0, op := 0 } }) :=
    if_pos h
  obtain ⟨e, hlast, htab, hn, hout⟩ := encLastLiterals_eq src
    ⟨{ w with variant := variantOf n, n := n, ip := 0, anchor := 0, op := 0 },
      tableClear P (variantOf n) t, []⟩
  refine ⟨e, ?_, htab, hn, by simpa using hout⟩
  rw [encode, hstart]
  exact (Reaches.step (l := .lastLiterals) (by decide) hlast).encRun_eq (by omega)

@[simp] theorem Enc.emit_nil (e : Enc) : e.emit [] = e := by simp [Enc.emit]

/-! ## Machines that follow the listing -/

/-- The machine's table reads as the listing's `tab`, its literal run starts at `anchor`, and it has
written `out`. -/
structure Enc.Follows (P : Config.Params) (n anchor : Nat) (out : List Byte) (tab : Nat → Nat)
    (e : Enc) : Prop where
  variant : e.w.variant = variantOf n
  mflimit : e.w.mflimit = n - P.mfLimit
  matchlimit : e.w.matchlimit = n - P.lastLiterals
  anchor : e.w.anchor = anchor
  op : e.w.op = out.length
  written : e.out = out
  wf : Tab.wf e.tab
  tab : ∀ h, Tab.get e.tab h = tab h
  n : e.w.n = n

/-- The machine is at EMIT_MATCH for a match at `ip` with the candidate `ref`: behind `out` stand
the control byte, its low nibble still 0, and the literals `lits`. -/
structure Enc.AtMatch (P : Config.Params) (n anchor : Nat) (out lits : List Byte) (ip ref : Nat)
    (tab : Nat → Nat) (e : Enc) : Prop
    extends e.Follows P n anchor (out ++ lastBytes lits) tab where
  ip : e.w.ip = ip
  ref : e.w.ref = ref
  tokpos : e.w.tokpos = out.length

section Follows

variable {anchor : Nat} {out : List Byte} {tab : Nat → Nat} {e : Enc}

/-- The candidate of a probe is the listing's. -/
theorem Enc.Follows.lookupPos_eq (h : e.Follows P n anchor out tab) (p : Nat) :
    lookupPos P src p e = tab (bucket P (variantOf n) src p) := by
  rw [lookupPos, h.variant, h.tab]

/-- A position that fits its entry is stored as it is. -/
theorem Enc.Follows.insertPos (h : e.Follows P n anchor out tab) (src : Nat → Byte) {p : Nat}
    (hp : p < 2 ^ entryW P (variantOf n)) :
    (insertPos P src p e).Follows P n anchor out
      (listingStore tab (bucket P (variantOf n) src p) p) :=
  { h with
    wf := Tab.wf_set _ _ h.wf
    tab := fun x => by
      rw [insertPos_tab, Tab.get_set _ _ _ h.wf.1, h.variant, Nat.mod_eq_of_lt hp, h.tab]
      simp [listingStore, eq_comm] }

theorem Enc.Follows.probe (h : e.Follows P n anchor out tab) (src : Nat → Byte) {p : Nat}
    (hp : p < 2 ^ entryW P (variantOf n)) :
    (probe P src p e).1.Follows P n anchor out
      (listingStore tab (bucket P (variantOf n) src p) p) :=
  { h.insertPos src hp with }

theorem Enc.Follows.probe_verify (h : e.Follows P n anchor out tab) (src : Nat → Byte) (p : Nat) :
    (Machine.probe P src p e).2 =
      verify (variantOf n) src p (tab (bucket P (variantOf n) src p)) := by
  rw [Machine.probe_verify, h.variant, h.lookupPos_eq]

/-- ENC_LITLEN and the literals behind it: a machine at the label EMIT_MATCH. -/
theorem Enc.Follows.atMatch (h : e.Follows P n anchor out tab) (lits : List Byte) :
    ((encLitLen lits.length e).emit lits).AtMatch P n anchor out lits e.w.ip e.w.ref tab :=
  { h with
    written := by simp [lastBytes, h.written]
    op := by
      simp only [Enc.emit_w, encLitLen_w, h.op, extOf_length, List.length_append, lastBytes_length]
      omega
    ip := rfl
    ref := rfl
    tokpos := h.op }

end Follows

/-! ## SEARCH -/

section Search

variable {anchor : Nat} {out : List Byte} {tab : Nat → Nat} {e : Enc}

/-- What SEARCH comes to when the listing's search comes to `found`. -/
def SearchEnds (P : Config.Params) (n anchor : Nat) (out : List Byte) (r : EncLabel × Enc) :
    Option (Nat × Nat × (Nat → Nat)) → Prop
  | none => r.1 = .lastLiterals ∧ ∃ tab, r.2.Follows P n anchor out tab
  | some (p, ref, tab) =>
    r.1 = .catchUp ∧ r.2.Follows P n anchor out tab ∧ r.2.w.ip = p ∧ r.2.w.ref = ref

/-- The two searches make the same attempts. -/
theorem searchLoop_ends (src : Nat → Byte) (hfit : n - P.mfLimit < 2 ^ entryW P (variantOf n))
    (fuel : Nat) (h : e.Follows P n anchor out tab) :
    SearchEnds P n anchor out (searchLoop P src fuel e)
      (listingSearch P (variantOf n) src (n - P.mfLimit) fuel e.w.attempts e.w.fwd tab) := by
  induction fuel generalizing e tab with
  | zero => exact ⟨rfl, tab, h⟩
  | succ fuel ih =>
    have hnext : (e.nextAttempt P).Follows P n anchor out tab := { h with }
    have hfwd : (e.nextAttempt P).w.fwd = e.w.fwd + e.w.attempts / 2 ^ P.skipStrength := rfl
    rw [searchLoop_succ, listingSearch, h.mflimit, hfwd, hnext.probe_verify]
    split
    next => exact ⟨rfl, tab, hnext⟩
    next hlimit =>
      have hfwd_le := Nat.le_add_right e.w.fwd (e.w.attempts / 2 ^ P.skipStrength)
      have hprobe := hnext.probe src (p := e.w.fwd) (by omega)
      dsimp only
      split
      · exact ⟨rfl, hprobe, rfl, hnext.lookupPos_eq _⟩
      · exact ih hprobe

theorem encSearch_ends (src : Nat → Byte) (hfit : n - P.mfLimit < 2 ^ entryW P (variantOf n))
    (h : e.Follows P n anchor out tab) :
    SearchEnds P n anchor out (encSearch P src e)
      (listingSearch P (variantOf n) src (n - P.mfLimit) (n + 1) P.attemptInit e.w.ip tab) := by
  rw [encSearch, h.n]
  exact searchLoop_ends (e := { e with w := { e.w with attempts := P.attemptInit, fwd := e.w.ip } })
    src hfit (n + 1) { h with }

/-! ## CATCH_UP, EMIT_LITERALS and EXTEND -/

/-- The walk back of CATCH_UP is the listing's, cut at the anchor and at index 0. -/
theorem catchUpLoop_eq (src : Nat → Byte) (anchor ip ref : Nat) :
    catchUpLoop src anchor ip ref =
      (ip - listingBack src ip ref (min (ip - anchor) ref),
        ref - listingBack src ip ref (min (ip - anchor) ref)) := by
  induction ref generalizing ip with
  | zero => rw [catchUpLoop, Nat.min_zero, listingBack]; rfl
  | succ ref ih =>
    rw [catchUpLoop]
    by_cases hanchor : anchor < ip
    · have hmin : min (ip - anchor) (ref + 1) = min (ip - 1 - anchor) ref + 1 := by omega
      rw [hmin, listingBack, Nat.add_sub_cancel]
      by_cases hbyte : src (ip - 1) = src ref
      · rw [if_pos (by simp [hanchor, hbyte]), if_pos hbyte, ih]
        simp only [Prod.mk.injEq]
        omega
      · rw [if_neg (by simp [hbyte]), if_neg hbyte]
        rfl
    · rw [if_neg (by simp [hanchor]), show min (ip - anchor) (ref + 1) = 0 by omega]
      rfl

/-- CATCH_UP walks back as far as the listing does. -/
theorem encCatchUp_eq (src : Nat → Byte) (e : Enc) {b : Nat}
    (hb : b = listingBack src e.w.ip e.w.ref (min (e.w.ip - e.w.anchor) e.w.ref)) :
    encCatchUp src e =
      (.emitLiterals, { e with w := { e.w with ip := e.w.ip - b, ref := e.w.ref - b } }) := by
  rw [encCatchUp, catchUpLoop_eq, hb]

/-- CATCH_UP and EMIT_LITERALS come to EMIT_MATCH at the candidate walked back. -/
theorem catchUp_reaches_emitMatch (src : Nat → Byte) (h : e.Follows P n anchor out tab) {b : Nat}
    (hb : b = listingBack src e.w.ip e.w.ref (min (e.w.ip - anchor) e.w.ref)) :
    ∃ e', Reaches P src 2 (.catchUp, e) (.emitMatch, e') ∧
      e'.AtMatch P n anchor out (slice src anchor (e.w.ip - b - anchor)) (e.w.ip - b) (e.w.ref - b)
        tab := by
  have hcaught := encCatchUp_eq src e (h.anchor ▸ hb)
  have hfollows : Enc.Follows P n anchor out tab
      { e with w := { e.w with ip := e.w.ip - b, ref := e.w.ref - b } } := { h with }
  refine ⟨_, (Reaches.step (l := .catchUp) (by decide) hcaught).trans
      (Reaches.step (l := .emitLiterals) (by decide) ?_),
    hfollows.atMatch (slice src anchor (e.w.ip - b - anchor))⟩
  simp only [encStep, encEmitLiterals, h.anchor, slice_length]

theorem extendLoop_eq_listingOn (src : Nat → Byte) (k ip ref : Nat) :
    extendLoop src k ip ref = listingOn src ip ref k := by
  induction k generalizing ip ref with
  | zero => rfl
  | succ k ih => rw [extendLoop, listingOn, ih]

/-- EXTEND makes the match as long as the listing does, and moves behind it. -/
theorem encExtend_eq (src : Nat → Byte) (hlimit : e.w.matchlimit = n - P.lastLiterals) {m : Nat}
    (hm : m = listingMatchLen P src n e.w.ip e.w.ref) :
    encExtend src e =
      (.emitMatchlen,
        { e with w := { e.w with ip := e.w.ip + m, ref := e.w.ref + m, matchLen := m } }) := by
  simp only [encExtend, extendLoop_eq_listingOn, hlimit, hm, listingMatchLen, Config.minMatch,
    Nat.add_assoc]

end Search

/-! ## The steps of one pass -/

/-- What a pass of the loop starts from: with a candidate the machine is at EMIT_MATCH with an empty
literal run, without one at SEARCH. -/
def PassStarts (P : Config.Params) (n anchor : Nat) (out : List Byte) (ip : Nat) (tab : Nat → Nat) :
    Option Nat → EncLabel × Enc → Prop
  | some ref, r => r.1 = .emitMatch ∧ anchor = ip ∧ r.2.AtMatch P n anchor out [] ip ref tab
  | none, r => r.1 = .search ∧ r.2.w.ip = ip ∧ r.2.Follows P n anchor out tab

section Pass

variable {anchor ip ref : Nat} {out lits : List Byte} {tab : Nat → Nat} {cand : Option Nat}
  {r : EncLabel × Enc} {e : Enc}

/-- LAST_LITERALS ends the run. -/
theorem lastLiterals_reaches (h : e.Follows P n anchor out tab) :
    ∃ e', Reaches P src 1 (.lastLiterals, e) (.done, e') ∧
      e'.out = out ++ lastBytes (slice src anchor (n - anchor)) := by
  obtain ⟨e', hstep, -, -, hout⟩ := encLastLiterals_eq src e
  exact ⟨e', .step (by decide) hstep, by rw [hout, h.written, h.anchor, h.n]⟩

/-- A pass that finds no match ends the run. -/
theorem pass_reaches_done (hfit : n - P.mfLimit < 2 ^ entryW P (variantOf n))
    (hr : PassStarts P n anchor out ip tab cand r)
    (hnone : listingStart P (variantOf n) src n cand tab ip anchor = none) :
    ∃ e', Reaches P src 2 r (.done, e') ∧
      e'.out = out ++ lastBytes (slice src anchor (n - anchor)) := by
  obtain ⟨l, e⟩ := r
  cases cand with
  | some ref => cases hnone
  | none =>
    obtain ⟨rfl, rfl, h⟩ : l = .search ∧ e.w.ip = ip ∧ e.Follows P n anchor out tab := hr
    have hends := encSearch_ends src hfit h
    unfold listingStart at hnone
    dsimp only at hnone
    split at hnone
    next hsearch =>
      rw [hsearch] at hends
      obtain ⟨hlabel, tab', hfollows⟩ := hends
      obtain ⟨e', hlast, hout⟩ := lastLiterals_reaches (src := src) hfollows
      have hsearched : encStep P src .search e = (.lastLiterals, (encSearch P src e).2) :=
        Prod.ext hlabel rfl
      exact ⟨e', (Reaches.step (by decide) hsearched).trans hlast, hout⟩
    next => cases hnone

/-- A pass that starts a match at `mstart` comes to EMIT_MATCH there, with the literals before it
written. -/
theorem pass_reaches_emitMatch {mstart : Nat} {tab' : Nat → Nat}
    (hfit : n - P.mfLimit < 2 ^ entryW P (variantOf n))
    (hr : PassStarts P n anchor out ip tab cand r)
    (hsome : listingStart P (variantOf n) src n cand tab ip anchor = some (mstart, ref, tab')) :
    ∃ j e', j ≤ 3 ∧ Reaches P src j r (.emitMatch, e') ∧
      e'.AtMatch P n anchor out (slice src anchor (mstart - anchor)) mstart ref tab' := by
  obtain ⟨l, e⟩ := r
  cases cand with
  | some ref =>
    obtain ⟨rfl, rfl, h⟩ :
      l = .emitMatch ∧ anchor = ip ∧ e.AtMatch P n anchor out [] ip ref tab := hr
    cases hsome
    rw [Nat.sub_self]
    exact ⟨0, e, Nat.zero_le 3, .refl _, h⟩
  | none =>
    obtain ⟨rfl, rfl, h⟩ : l = .search ∧ e.w.ip = ip ∧ e.Follows P n anchor out tab := hr
    have hends := encSearch_ends src hfit h
    unfold listingStart at hsome
    dsimp only at hsome
    split at hsome
    next => cases hsome
    next hsearch =>
      rw [hsearch] at hends
      obtain ⟨hlabel, hfound, rfl, rfl⟩ := hends
      cases hsome
      obtain ⟨e', hcaught, hat⟩ := catchUp_reaches_emitMatch src hfound rfl
      have hsearched : encStep P src .search e = (.catchUp, (encSearch P src e).2) :=
        Prod.ext hlabel rfl
      exact ⟨3, e', Nat.le_refl 3, (Reaches.step (by decide) hsearched).trans hcaught, hat⟩

/-- EMIT_MATCHLEN puts the match length into the low nibble of the control byte. -/
theorem controlByte_or (len code : Nat) :
    controlByte len 0 ||| BitVec.ofNat 8 (nibble code) = controlByte len code := by
  have hcode : nibble code < 2 ^ 4 := Nat.lt_succ_of_le (Nat.min_le_right _ _)
  have hlen : nibble len < 2 ^ 4 := Nat.lt_succ_of_le (Nat.min_le_right _ _)
  have hor : nibble len * 16 ||| nibble code = nibble len * 16 + nibble code := by
    rw [show nibble len * 16 = nibble len <<< 4 from (Nat.shiftLeft_eq _ 4).symm,
      Nat.shiftLeft_add_eq_or_of_lt hcode]
  rw [controlByte, controlByte, show nibble 0 = 0 from rfl, Nat.add_zero, ← BitVec.ofNat_or, hor]

theorem modify_append_cons {α : Type} (out : List α) (t : α) (rest : List α) (f : α → α) :
    (out ++ t :: rest).modify out.length f = out ++ f t :: rest :=
  List.modifyTailIdx_add (List.modifyHead f) 0 out (t :: rest)

/-- EMIT_MATCH, EXTEND and EMIT_MATCHLEN write the rest of the sequence and come to AFTER_MATCH
behind the match. -/
theorem emitMatch_reaches_afterMatch (src : Nat → Byte)
    (h : e.AtMatch P n anchor out lits ip ref tab) {m : Nat}
    (hm : m = listingMatchLen P src n ip ref) :
    ∃ e', Reaches P src 3 (.emitMatch, e) (.afterMatch, e') ∧ e'.w.ip = ip + m ∧
      e'.Follows P n (ip + m) (out ++ seqBytes lits (ip - ref) m) tab := by
  obtain ⟨hfollows, rfl, rfl, htokpos⟩ := h
  have hmodify : (e.emit (le16 (e.w.ip - e.w.ref))).out.modify e.w.tokpos
        (fun t => t ||| BitVec.ofNat 8 (nibble (m - Config.minMatch))) ++
      extOf (m - Config.minMatch) = out ++ seqBytes lits (e.w.ip - e.w.ref) m := by
    simp only [Enc.emit_out, hfollows.written, htokpos, lastBytes, List.append_assoc,
      List.cons_append, modify_append_cons, controlByte_or, seqBytes]
  refine ⟨_, (Reaches.step (l := .emitMatch) (by decide) rfl).trans
    ((Reaches.step (l := .extend) (by decide)
        (encExtend_eq (e := e.emit (le16 (e.w.ip - e.w.ref))) src hfollows.matchlimit hm)).trans
      (Reaches.step (l := .emitMatchlen) (by decide) rfl)), rfl,
    { hfollows with
      anchor := rfl
      written := hmodify
      op := ?_ }⟩
  simp only [encMatchLen_w, Enc.emit_w, hfollows.op, ← hmodify, Enc.emit_out,
    hfollows.written, List.length_append, List.length_modify]

end Pass

/-! ## The whole loop -/

/-- Within `bound` steps from `r` the encoder is done, with the stream of `q`, sequences and start
of the terminal run, behind `out`. -/
def WritesStream (P : Config.Params) (src : Nat → Byte) (n bound : Nat) (r : EncLabel × Enc)
    (out : List Byte) (q : List SeqItem × Nat) : Prop :=
  ∃ j e, j ≤ bound ∧ Reaches P src j r (.done, e) ∧
    e.out = out ++ streamBytes q.1 (slice src q.2 (n - q.2))

theorem Reaches.writesStream {i b b' : Nat} {r r' : EncLabel × Enc} {out : List Byte}
    {q : List SeqItem × Nat} (h : Reaches P src i r r') (hb : i + b ≤ b')
    (hw : WritesStream P src n b r' out q) : WritesStream P src n b' r out q := by
  obtain ⟨j, e, hj, hreach, hout⟩ := hw
  exact ⟨i + j, e, by omega, h.trans hreach, hout⟩

section Loop

variable {anchor ip : Nat} {out : List Byte} {tab : Nat → Nat} {e : Enc} {fuel : Nat}

/-- Behind a match the machine writes what the rest of the listing's loop gives, if it does so from
the start of each pass. -/
theorem afterMatch_writesStream (hP : P.wf) (hn : P.mfLimit ≤ n)
    (hfit : n - P.mfLimit < 2 ^ entryW P (variantOf n)) (hip : e.w.ip = ip)
    (h : e.Follows P n ip out tab) (htab : PositionsBelow tab ip)
    (ih : ∀ cand tab ip' r, PassReady P src n ip ip' tab cand →
      PassStarts P n ip out ip' tab cand r → WritesStream P src n (2 * (n - ip) + 3) r out
        (listingItems P (variantOf n) src n fuel cand tab ip' ip)) :
    WritesStream P src n (2 * (n - ip) + 4) (.afterMatch, e) out
      (listingNext P (variantOf n) src n fuel ip tab) := by
  have hafter := encAfterMatch_eq P src e
  rw [h.mflimit, hip] at hafter
  unfold listingNext
  by_cases hlimit : n - P.mfLimit < ip
  · rw [if_pos hlimit] at hafter ⊢
    obtain ⟨e', hlast, hout⟩ := lastLiterals_reaches (src := src) h
    exact (Reaches.step (l := .afterMatch) (by decide) hafter).writesStream (b := 1) (by omega)
      ⟨1, e', Nat.le_refl 1, hlast, hout⟩
  · have hprobe := h.probe src (p := ip) (by omega)
    have hstored := htab.listingStore (bucket P (variantOf n) src ip)
    rw [if_neg hlimit, h.probe_verify] at hafter
    rw [if_neg hlimit]
    split at hafter
    next hverify =>
      have hready := startsMatch_of_verify (n := n) (b := 0) hP variantOf_eq_narrow hverify (htab _)
        (by omega) hstored (Nat.le_refl ip) (Nat.zero_le _) nofun
      have hat := hprobe.atMatch []
      rw [Enc.emit_nil] at hat
      rw [if_pos hverify]
      refine (Reaches.step (l := .afterMatch) (by decide) hafter).writesStream (by omega)
        (ih (some _) _ ip _ ⟨_, hready⟩
          ⟨rfl, rfl, { hat with ip := hip, ref := h.lookupPos_eq ip }⟩)
    next hverify =>
      rw [if_neg hverify]
      exact (Reaches.step (l := .afterMatch) (by decide) hafter).writesStream (by omega)
        (ih none _ (ip + 1) _ ⟨Nat.le_succ ip, hstored⟩
          ⟨rfl, congrArg (· + 1) hip, { hprobe with }⟩)

/-- The loop, by induction on the listing's passes: each takes at most seven steps of the machine
and at least four bytes of the input. -/
theorem listingItems_writesStream (hP : P.wf) (hn : P.mfLimit ≤ n)
    (hfit : n - P.mfLimit < 2 ^ entryW P (variantOf n)) {cand : Option Nat} {r : EncLabel × Enc}
    (hfuel : n - anchor < fuel) (hready : PassReady P src n anchor ip tab cand)
    (hstarts : PassStarts P n anchor out ip tab cand r) :
    WritesStream P src n (2 * (n - anchor) + 3) r out
      (listingItems P (variantOf n) src n fuel cand tab ip anchor) := by
  induction fuel generalizing cand tab ip anchor out r with
  | zero => exact absurd hfuel (Nat.not_lt_zero _)
  | succ fuel ih =>
    rw [listingItems_succ]
    cases hstart : listingStart P (variantOf n) src n cand tab ip anchor with
    | none =>
      obtain ⟨e', hreach, hout⟩ := pass_reaches_done hfit hstarts hstart
      exact ⟨2, e', by omega, hreach, hout⟩
    | some found =>
      obtain ⟨mstart, ref, tab'⟩ := found
      obtain ⟨len, hmatch⟩ := listingStart_startsMatch hP hn variantOf_eq_narrow hready hstart
      obtain ⟨j, e, hj, hreach, hat⟩ := pass_reaches_emitMatch hfit hstarts hstart
      obtain ⟨e', hwritten, hip, hfollows⟩ := emitMatch_reaches_afterMatch src hat rfl
      have hanchor := hmatch.anchor_le
      have hend := hmatch.end_le
      have hfour := four_le_listingMatchLen P src n mstart ref
      have hrest := afterMatch_writesStream hP hn hfit hip hfollows
        (hmatch.table.mono (Nat.add_le_add_left hmatch.len_le mstart))
        fun cand tab ip' r hready hstarts => ih (by omega) hready hstarts
      have hall :=
        (hreach.trans hwritten).writesStream (b' := 2 * (n - anchor) + 3) (by omega) hrest
      unfold WritesStream at hall ⊢
      simpa only [streamBytes, List.append_assoc] using hall

end Loop

/-! ## ENCODE -/

theorem encStart_of_le (e : Enc) (hmin : P.minLength ≤ n) :
    encStart P n e =
      (.seed,
        { e with
          w := { e.w with
            n := n, ip := 0, anchor := 0, op := 0
            mflimit := n - P.mfLimit, matchlimit := n - P.lastLiterals } }) :=
  if_neg (Nat.not_lt.2 hmin)

/-- From MINLENGTH on, SEED on an empty table comes to the first SEARCH with no position stored. -/
theorem seed_reaches_search (src : Nat → Byte) (w : Work) (hv : w.variant = variantOf n)
    (hn : w.n = n) (hanchor : w.anchor = 0) (hop : w.op = 0) (hmf : w.mflimit = n - P.mfLimit)
    (hmatch : w.matchlimit = n - P.lastLiterals) :
    ∃ r, Reaches P src 1 (.seed, ⟨w, [], []⟩) r ∧ PassStarts P n 0 [] 1 (fun _ => 0) none r := by
  have hempty : Enc.Follows P n 0 [] (fun _ => 0) ⟨w, [], []⟩ :=
    ⟨hv, hmf, hmatch, hanchor, hop, rfl, ⟨List.Pairwise.nil, nofun⟩, fun _ => rfl, hn⟩
  have hseed := hempty.insertPos src (p := 0) (Nat.two_pow_pos _)
  have hzero (b : Nat) : listingStore (fun _ => 0) b 0 = fun _ => 0 := by
    funext x
    simp [listingStore]
  rw [hzero] at hseed
  exact ⟨_, .step (by decide) rfl, rfl, rfl, { hseed with }⟩

/-- ENCODE with an empty table comes to the listing's stream. -/
theorem encode_nil_writes_listing (src : Nat → Byte) (w : Work) (hP : P.wf)
    (hfit : n ≤ 2 ^ entryW P (variantOf n)) :
    (encode P src n w []).1 = .done ∧
      (encode P src n w []).2.out =
        streamBytes (listingEncode P src n).1 (listingEncode P src n).2 := by
  obtain ⟨-, -, hfour, -, hlen, -⟩ := id hP
  simp only [Config.minMatch] at hfour
  obtain hlt | hmin := Nat.lt_or_ge n P.minLength
  · obtain ⟨e, hencode, -, -, hout⟩ := encode_of_lt src w [] hlt
    rw [hencode, listingEncode_of_lt src hlt]
    exact ⟨rfl, hout⟩
  · obtain ⟨r, hseed, hstarts⟩ := seed_reaches_search src
      { w with
        variant := variantOf n, n := n, ip := 0, anchor := 0, op := 0
        mflimit := n - P.mfLimit, matchlimit := n - P.lastLiterals } rfl rfl rfl rfl rfl rfl
    have hready : PassReady P src n 0 1 (fun _ => 0) none :=
      ⟨Nat.zero_le 1, fun _ => Nat.zero_lt_one⟩
    obtain ⟨j, e, hj, hreach, hout⟩ := listingItems_writesStream hP (by omega) (by omega)
      (fuel := n + 1) (by omega) hready hstarts
    have hrun := (hseed.trans hreach).encRun_eq (k := 2 * n + 8) (by omega)
    have hencode : encode P src n w [] = (.done, e) := by
      rw [encode, encStart_of_le _ hmin]
      exact hrun
    rw [hencode, listingEncode, if_neg (Nat.not_lt.2 hmin)]
    exact ⟨rfl, hout⟩

/-- Settles O18: the output does not depend on the table found (`encode_agree`), and from an empty
one the machine follows the listing pass by pass. -/
theorem encoderStepsRefineListing : Obligations.EncoderStepsRefineListing := by
  intro P src n w tab hP hfit
  obtain ⟨hlabel, hagree⟩ := encode_agree P src n w w tab []
  rw [hlabel, hagree.out]
  exact encode_nil_writes_listing src w hP hfit

/-- Settles O20: the bound of the listing's stream. -/
theorem encoderSizeBound : Obligations.EncoderSizeBound := by
  intro P src n w tab hP hfit
  rw [(encoderStepsRefineListing P src n w tab hP hfit).2]
  exact streamBytes_listingEncode_length_le src n hP

end Sys2Proof.Machine
end

