-- ==== Sys2Proof/Proofs/EncoderInput.lean ====
section
/-! The encoder reads no byte at or behind the input's end (`43_encoder.md` R207): at every label
its positions are such that the bytes read next lie inside the input. An entry of the table, cut to
its width or not (log 28), lies before every position still to be probed. -/

namespace Sys2Proof.Machine

variable {P : Config.Params} {src src' : Nat → Byte} {n : Nat} {e : Enc}

/-! ## Two sources with the same input -/

/-- The two sources agree on the `n` bytes of the input. -/
def SameInput (n : Nat) (src src' : Nat → Byte) : Prop := ∀ i, i < n → src i = src' i

theorem src32_congr (hsrc : SameInput n src src') {p : Nat} (hp : p + 3 < n) :
    src32 src p = src32 src' p := by
  rw [src32, src32, hsrc p (by omega), hsrc (p + 1) (by omega), hsrc (p + 2) (by omega), hsrc _ hp]

theorem bucket_congr (P : Config.Params) (v : Variant) (hsrc : SameInput n src src') {p : Nat}
    (hp : p + 3 < n) : bucket P v src p = bucket P v src' p := by
  rw [bucket, bucket, src32_congr hsrc hp]

theorem insertPos_congr (P : Config.Params) (e : Enc) (hsrc : SameInput n src src') {p : Nat}
    (hp : p + 3 < n) : insertPos P src p e = insertPos P src' p e := by
  rw [insertPos, insertPos, bucket_congr P _ hsrc hp]

theorem probe_congr (hsrc : SameInput n src src') {p : Nat} (hp : p + 3 < n)
    (href : lookupPos P src p e ≤ p) : probe P src p e = probe P src' p e := by
  have hbucket := bucket_congr P e.w.variant hsrc hp
  have hlookup : lookupPos P src p e = lookupPos P src' p e := by rw [lookupPos, lookupPos, hbucket]
  have hverify : verify e.w.variant src p (lookupPos P src p e) =
      verify e.w.variant src' p (lookupPos P src p e) := by
    rw [verify, verify, src32_congr hsrc hp, src32_congr hsrc (by omega)]
  rw [hlookup] at hverify
  simp only [probe, insertPos_congr P e hsrc hp, hbucket, hlookup, hverify]

theorem catchUpLoop_congr (hsrc : SameInput n src src') (anchor : Nat) {ip ref : Nat} (hip : ip ≤ n)
    (href : ref ≤ n) : catchUpLoop src anchor ip ref = catchUpLoop src' anchor ip ref := by
  induction ref generalizing ip with
  | zero => rw [catchUpLoop, catchUpLoop]
  | succ ref ih =>
    rw [catchUpLoop, catchUpLoop, ih (by omega) (by omega), hsrc ref href]
    by_cases hanchor : anchor < ip
    · rw [hsrc (ip - 1) (by omega)]
    · simp [hanchor]

theorem extendLoop_congr (hsrc : SameInput n src src') {k ip ref : Nat} (hip : ip + k ≤ n)
    (href : ref ≤ ip) : extendLoop src k ip ref = extendLoop src' k ip ref := by
  induction k generalizing ip ref with
  | zero => rfl
  | succ k ih =>
    rw [extendLoop, extendLoop, hsrc ref (by omega), hsrc ip (by omega), ih (by omega) (by omega)]

/-! ## Entries before a position -/

/-- Every entry that the table lists below the geometry's size lies before position `p`. -/
def Tab.Before (P : Config.Params) (v : Variant) (t : Tab) (p : Nat) : Prop :=
  ∀ x ∈ t, x.1 < 2 ^ hashLog P v → x.2 < p

theorem Tab.Before.mono {v : Variant} {t : Tab} {p q : Nat} (h : Tab.Before P v t p) (hpq : p ≤ q) :
    Tab.Before P v t q := fun x hx hlt => (h x hx hlt).trans_le hpq

/-- The candidate of a probe lies before the position. -/
theorem Tab.Before.lookupPos_lt {p : Nat} (h : Tab.Before P e.w.variant e.tab p) (hp : 0 < p) :
    lookupPos P src p e < p := by
  unfold lookupPos
  by_cases hzero : Tab.get e.tab (bucket P e.w.variant src p) = 0
  · omega
  · exact h _ (Tab.mem_of_get_ne_zero hzero) (bucket_lt P _ src p)

/-- INSERT stores at most the position. -/
theorem Tab.Before.insertPos {p : Nat} (h : Tab.Before P e.w.variant e.tab p) :
    Tab.Before P e.w.variant (insertPos P src p e).tab (p + 1) := by
  intro x hx hlt
  rw [insertPos_tab] at hx
  obtain rfl | hx := Tab.mem_set hx
  · exact Nat.lt_succ_of_le (Nat.mod_le _ _)
  · exact (h x hx hlt).trans (Nat.lt_succ_self p)

/-! ## Where the encoder is in its input -/

/-- What holds of the positions at each label: SEARCH and AFTER_MATCH are at a position behind every
entry, CATCH_UP has a verified candidate, and from EMIT_LITERALS to EXTEND a match can start. The
table is kept apart from `StartsMatch`, whose table is the listing's. -/
def Enc.Positions (P : Config.Params) (src : Nat → Byte) (n : Nat) : EncLabel → Enc → Prop
  | .seed, e => e.w.anchor = 0 ∧ Tab.Before P e.w.variant e.tab 0
  | .search, e | .afterMatch, e =>
    e.w.anchor ≤ e.w.ip ∧ 0 < e.w.ip ∧ Tab.Before P e.w.variant e.tab e.w.ip
  | .catchUp, e =>
    e.w.anchor ≤ e.w.ip ∧ e.w.ip + P.mfLimit ≤ n ∧ e.w.ref < e.w.ip ∧
      verify e.w.variant src e.w.ip e.w.ref = true ∧ Tab.Before P e.w.variant e.tab (e.w.ip + 1)
  | .emitLiterals, e | .emitMatch, e | .extend, e =>
    ∃ len, StartsMatch P src n e.w.anchor e.w.ip e.w.ref (fun _ => 0) len ∧
      Tab.Before P e.w.variant e.tab (e.w.ip + len)
  | .emitMatchlen, e => 0 < e.w.ip ∧ Tab.Before P e.w.variant e.tab e.w.ip
  | .lastLiterals, _ | .done, _ => True

/-- The encoder is at a label of a run on `n` bytes: its length, its variant, the limits as long as
they are read, and the positions. -/
structure Enc.InInput (P : Config.Params) (src : Nat → Byte) (n : Nat) (l : EncLabel) (e : Enc) :
    Prop where
  variant : e.w.variant = variantOf n
  limits : l.usesLimits →
    P.mfLimit ≤ n ∧ e.w.mflimit = n - P.mfLimit ∧ e.w.matchlimit = n - P.lastLiterals
  positions : e.Positions P src n l
  length : e.w.n = n

/-- At `r` the other source gives the same next step, and the run stays in its input. -/
def StaysInInput (P : Config.Params) (src : Nat → Byte) (n : Nat) (r r' : EncLabel × Enc) : Prop :=
  r' = r ∧ r.2.InInput P src n r.1

/-- Where the terminal literals are due or written, only the length counts. -/
theorem Enc.InInput.of_last {l : EncLabel} (hl : l = .lastLiterals ∨ l = .done)
    (hvariant : e.w.variant = variantOf n) (hlength : e.w.n = n) : e.InInput P src n l := by
  obtain rfl | rfl := hl
  all_goals exact ⟨hvariant, nofun, trivial, hlength⟩

/-- What an attempt of SEARCH starts from: the next position lies behind every entry, and the step
is at least 1. -/
structure Enc.InSearch (P : Config.Params) (n : Nat) (e : Enc) : Prop where
  variant : e.w.variant = variantOf n
  limits : P.mfLimit ≤ n ∧ e.w.mflimit = n - P.mfLimit ∧ e.w.matchlimit = n - P.lastLiterals
  anchor_le : e.w.anchor ≤ e.w.fwd
  fwd_pos : 0 < e.w.fwd
  before : Tab.Before P e.w.variant e.tab e.w.fwd
  step_pos : 1 ≤ e.w.attempts / 2 ^ P.skipStrength
  length : e.w.n = n

/-! ## One lemma per label -/

/-- Four bytes can be read at a position up to `mflimit` (`00_scope.md` R8 (c)). -/
theorem four_bytes_of_mfLimit (hP : P.wf) {p : Nat} (hp : p + P.mfLimit ≤ n) : p + 3 < n := by
  obtain ⟨-, -, hfour, -⟩ := hP
  simp only [Config.minMatch] at hfour
  omega

section Steps

variable (hsrc : SameInput n src src')

include hsrc

theorem encEmitLiterals_staysInInput (h : e.InInput P src n .emitLiterals) :
    StaysInInput P src n (encEmitLiterals src e) (encEmitLiterals src' e) := by
  obtain ⟨len, hmatch, hbefore⟩ := h.positions
  have hlimit := hmatch.mfLimit
  have hanchor := hmatch.anchor_le
  refine ⟨?_, { h with positions := ⟨len, hmatch, hbefore⟩ }⟩
  rw [encEmitLiterals, encEmitLiterals, slice_congr fun j hj => hsrc _ (by omega)]

theorem encExtend_staysInInput (h : e.InInput P src n .extend) :
    StaysInInput P src n (encExtend src e) (encExtend src' e) := by
  obtain ⟨-, -, hmatchlimit⟩ := h.limits rfl
  obtain ⟨len, hmatch, hbefore⟩ := h.positions
  have href := hmatch.ref_lt
  have hroom := hmatch.room
  have hfour := hmatch.four_le
  have hlen := hmatch.len_le
  refine ⟨?_, ?_⟩
  · simp only [encExtend, hmatchlimit]
    rw [extendLoop_congr hsrc (by simp only [Config.minMatch]; omega) (by omega)]
  · rw [encExtend_eq src hmatchlimit rfl]
    exact { h with positions := ⟨by dsimp only; omega, hbefore.mono (by dsimp only; omega)⟩ }

theorem encLastLiterals_staysInInput (h : e.InInput P src n .lastLiterals) :
    StaysInInput P src n (encLastLiterals src e) (encLastLiterals src' e) := by
  refine ⟨?_, .of_last (.inr rfl) h.variant h.length⟩
  rw [encLastLiterals, encLastLiterals, h.length, slice_congr fun j hj => hsrc _ (by omega)]

variable (hP : P.wf)

include hP

theorem encSeed_staysInInput (h : e.InInput P src n .seed) :
    StaysInInput P src n (encSeed P src e) (encSeed P src' e) := by
  obtain ⟨hmf, -⟩ := h.limits rfl
  obtain ⟨hanchor, hbefore⟩ := h.positions
  have hfour := four_bytes_of_mfLimit hP ((Nat.zero_add _).trans_le hmf)
  refine ⟨?_, { h with positions := ⟨?_, Nat.zero_lt_one, hbefore.insertPos⟩ }⟩
  · rw [encSeed, encSeed, insertPos_congr P e hsrc hfour]
  · simp [encSeed, hanchor]

/-- Every attempt of SEARCH is at a position up to `mflimit`, behind the positions tried before it.
-/
theorem searchLoop_staysInInput (fuel : Nat) (h : e.InSearch P n) :
    StaysInInput P src n (searchLoop P src fuel e) (searchLoop P src' fuel e) := by
  induction fuel generalizing e with
  | zero => exact ⟨rfl, .of_last (.inl rfl) h.variant h.length⟩
  | succ fuel ih =>
    obtain ⟨hmf, hmflimit, -⟩ := h.limits
    have hnext : (e.nextAttempt P).w.fwd = e.w.fwd + e.w.attempts / 2 ^ P.skipStrength := rfl
    have hstep := h.step_pos
    rw [searchLoop_succ, searchLoop_succ, hnext, hmflimit]
    split
    next => exact ⟨rfl, .of_last (.inl rfl) h.variant h.length⟩
    next hlimit =>
      have hp : e.w.fwd + P.mfLimit ≤ n := by omega
      have href : lookupPos P src e.w.fwd (e.nextAttempt P) < e.w.fwd :=
        Tab.Before.lookupPos_lt (e := e.nextAttempt P) h.before h.fwd_pos
      have hstored : Tab.Before P e.w.variant (probe P src e.w.fwd (e.nextAttempt P)).1.tab
          (e.w.fwd + 1) := Tab.Before.insertPos (e := e.nextAttempt P) h.before
      rw [← probe_congr hsrc (four_bytes_of_mfLimit hP hp) (Nat.le_of_lt href)]
      split
      next hverify =>
        exact ⟨rfl, h.variant, fun _ => h.limits, ⟨h.anchor_le, hp, href, hverify, hstored⟩,
          h.length⟩
      next =>
        exact ih
          { h with
            anchor_le := h.anchor_le.trans (Nat.le_add_right _ _)
            fwd_pos := h.fwd_pos.trans_le (Nat.le_add_right _ _)
            before := hstored.mono (Nat.add_le_add_left hstep _)
            step_pos := hstep.trans (Nat.div_le_div_right (Nat.le_succ _)) }

theorem encSearch_staysInInput (h : e.InInput P src n .search) :
    StaysInInput P src n (encSearch P src e) (encSearch P src' e) := by
  obtain ⟨hanchor, hip, hbefore⟩ := h.positions
  exact searchLoop_staysInInput hsrc hP _
    ⟨h.variant, h.limits rfl, hanchor, hip, hbefore, hP.1, h.length⟩

theorem encCatchUp_staysInInput (h : e.InInput P src n .catchUp) :
    StaysInInput P src n (encCatchUp src e) (encCatchUp src' e) := by
  obtain ⟨hanchor, hlimit, href, hverify, hbefore⟩ := h.positions
  have hsame : encCatchUp src' e = encCatchUp src e := by
    rw [encCatchUp, encCatchUp, catchUpLoop_congr hsrc _ (by omega) (by omega)]
  obtain ⟨b, hb⟩ : ∃ b, b = listingBack src e.w.ip e.w.ref (min (e.w.ip - e.w.anchor) e.w.ref) :=
    ⟨_, rfl⟩
  have hback := listingBack_le src e.w.ip e.w.ref (min (e.w.ip - e.w.anchor) e.w.ref)
  have hmatch := startsMatch_of_verify (n := n) (tab := fun _ => 0) (anchor := e.w.anchor) (b := b)
    hP (fun hnarrow => variantOf_eq_narrow (h.variant ▸ hnarrow)) hverify href hlimit
    (fun _ => Nat.succ_pos _) (by omega) (by omega) fun j hj => listingBack_agrees (hb ▸ hj)
  refine ⟨hsame, ?_⟩
  rw [encCatchUp_eq src e hb]
  exact { h with positions := ⟨b + 4, hmatch, hbefore.mono (by dsimp only; omega)⟩ }

/-- A probe behind a match is at a position up to `mflimit`, behind every entry. -/
theorem encAfterMatch_staysInInput (h : e.InInput P src n .afterMatch) :
    StaysInInput P src n (encAfterMatch P src e) (encAfterMatch P src' e) := by
  obtain ⟨hmf, hmflimit, -⟩ := h.limits rfl
  obtain ⟨hanchor, hip, hbefore⟩ := h.positions
  rw [encAfterMatch_eq, encAfterMatch_eq, hmflimit]
  split
  next => exact ⟨rfl, .of_last (.inl rfl) h.variant h.length⟩
  next hlimit =>
    have hp : e.w.ip + P.mfLimit ≤ n := by omega
    have href : lookupPos P src e.w.ip e < e.w.ip := hbefore.lookupPos_lt hip
    have hstored : Tab.Before P e.w.variant (probe P src e.w.ip e).1.tab (e.w.ip + 1) :=
      hbefore.insertPos
    rw [← probe_congr hsrc (four_bytes_of_mfLimit hP hp) (Nat.le_of_lt href)]
    split
    next hverify =>
      have hmatch := startsMatch_of_verify (n := n) (tab := fun _ => 0) (anchor := e.w.anchor)
        (b := 0) hP (fun hnarrow => variantOf_eq_narrow (h.variant ▸ hnarrow)) hverify href hp
        (fun _ => Nat.succ_pos _) hanchor (Nat.zero_le _) nofun
      exact ⟨rfl, { h with
        positions := ⟨_, hmatch, hstored.mono (Nat.add_le_add_left (by decide) _)⟩ }⟩
    next =>
      exact ⟨rfl, { h with positions := ⟨hanchor.trans (Nat.le_succ _), Nat.succ_pos _, hstored⟩ }⟩

theorem encStep_staysInInput {l : EncLabel} (h : e.InInput P src n l) :
    StaysInInput P src n (encStep P src l e) (encStep P src' l e) := by
  cases l with
  | seed => exact encSeed_staysInInput hsrc hP h
  | search => exact encSearch_staysInInput hsrc hP h
  | catchUp => exact encCatchUp_staysInInput hsrc hP h
  | emitLiterals => exact encEmitLiterals_staysInInput hsrc h
  | emitMatch => exact ⟨rfl, { h with }⟩
  | extend => exact encExtend_staysInInput hsrc h
  | emitMatchlen =>
    exact ⟨rfl, { h with positions := ⟨Nat.le_refl _, h.positions⟩ }⟩
  | afterMatch => exact encAfterMatch_staysInInput hsrc hP h
  | lastLiterals => exact encLastLiterals_staysInInput hsrc h
  | done => exact ⟨rfl, h⟩

theorem encRun_congr (k : Nat) {l : EncLabel} (h : e.InInput P src n l) :
    encRun P src k (l, e) = encRun P src' k (l, e) := by
  induction k generalizing l e with
  | zero => rfl
  | succ k ih =>
    by_cases hl : l = .done
    · rw [hl, encRun_done, encRun_done]
    · obtain ⟨hstep, hnext⟩ := encStep_staysInInput hsrc hP h
      rw [encRun_succ hl, encRun_succ hl, hstep]
      exact ih hnext

end Steps

/-! ## Whole runs -/

/-- ENC_START at index 0, with nothing of the geometry in use in the table. -/
theorem encStart_inInput (hP : P.wf) (hv : e.w.variant = variantOf n)
    (htab : Tab.Before P e.w.variant e.tab 0) :
    (encStart P n e).2.InInput P src n (encStart P n e).1 := by
  obtain hlt | hmin := Nat.lt_or_ge n P.minLength
  · rw [encStart, if_pos hlt]
    exact .of_last (.inl rfl) hv rfl
  · obtain ⟨-, -, -, -, hlen, -⟩ := hP
    rw [encStart_of_le e hmin]
    exact ⟨hv, fun _ => ⟨by omega, rfl, rfl⟩, ⟨rfl, htab⟩, rfl⟩

/-- Settles O22: the run stays in its input from ENC_START on, and there both sources give the same
steps. -/
theorem encoderReadsOnlyItsInput : Obligations.EncoderReadsOnlyItsInput := by
  intro P src src' n w tab hP hsrc
  have hcleared : Tab.Before P (variantOf n) (tableClear P (variantOf n) tab) 0 := by
    intro x hx hlt
    exact absurd hlt (Nat.not_lt.2 (of_decide_eq_true (List.mem_filter.1 hx).2))
  exact encRun_congr hsrc hP _ (encStart_inInput hP rfl hcleared)

end Sys2Proof.Machine
end

