-- ==== Sys2Proof/Proofs/CompressEffect.lean ====
section
/-! The effect of COMPRESS (`45_commands.md` R283, R286): what the encoder's output becomes in DST,
RESULT and STATUS, and what stays as it was. -/

namespace Sys2Proof.Machine

variable {P : Config.Params} {s : Block P} {e : Enc}

/-- The input as the encoder's source gives it. -/
theorem Block.slice_srcFun {n : Nat} (h : s.srcReadable n) :
    slice s.srcFun 0 n = s.srcBytes n 0 := by
  have hlen : (s.srcBytes n 0).length = n :=
    Block.srcBytes_length_eq.2 fun j hj => by simpa using h j hj
  refine List.ext_getElem? fun j => ?_
  obtain hj | hj := Nat.lt_or_ge j n
  · obtain ⟨b, hb⟩ := Option.isSome_iff_exists.1 (h j hj)
    rw [slice_getElem? _ _ _ _ hj, Block.srcBytes_getElem? _ _ _ _ (by omega), Nat.zero_add,
      Block.srcFun, hb, Option.getD_some]
  · rw [List.getElem?_eq_none (by simpa using hj), List.getElem?_eq_none (by omega)]

/-- The output stands in DST from index 0 on. -/
theorem Block.compressed_dstByte (hroom : e.out.length ≤ s.dst.size) {k : Nat}
    (hk : k < e.out.length) : (s.compressed e).dstByte k = e.out[k]? := by
  have hread : (s.compressed e).mem.read (s.dst.base + k) = e.out[k]? := by
    refine (Block.read_scratchDst _ _ _ _ (.inl (Nat.add_lt_add_left hk _))).trans ?_
    exact Memory.read_writeBytes e.out s.mem (s.dst.base + 0) k hk
  rw [Block.dstByte, show (s.compressed e).dst = s.dst from rfl, if_pos (by omega), hread]

/-- The store changes below the bound only; RESULT is the output's size (`45_commands.md` R283). -/
theorem Block.compressed_endsWith (hbound : e.out.length ≤ bound e.w.n) :
    s.endsWith (s.compressed e) (BitVec.ofNat P.xlen e.out.length) 0 0 (bound e.w.n) := by
  refine ⟨rfl, rfl, rfl, s.compressed_sameSetup e, fun a ha => ?_⟩
  unfold Block.outsideDst at ha
  refine (Block.read_scratchDst _ _ _ _ ?_).trans (Memory.read_writeBytes_outside _ _ _ _ ?_)
  · change a < s.dst.base + _ ∨ s.dst.base + _ ≤ a
    omega
  · omega

/-- A COMPRESS with good arguments under its premises goes through when its output fits DST. -/
theorem Block.compress_completes (hargs : s.compressArgs) (hprem : s.compressPremises)
    (hroom : (encode P s.srcFun s.srcLen.toNat s.work s.tab).2.out.length ≤ s.dst.size) :
    exec .compress ⟨P, s⟩ =
      .next ⟨P, s.compressed (encode P s.srcFun s.srcLen.toNat s.work s.tab).2⟩ := by
  obtain ⟨hread, -, hdisj⟩ := hprem
  refine Block.compress_next.2 (.inr ⟨Block.badCompress_eq_false.2 hargs,
    Block.overlap_eq_false.2 hdisj, Nat.le_of_eq (Eq.symm ?_), hroom, rfl⟩)
  exact Block.srcBytes_length_eq.2 fun j hj => by simpa using hread j hj

/-! ## An input below MINLENGTH -/

theorem lastBytes_length_le_bound (lits : List Byte) :
    (lastBytes lits).length ≤ bound lits.length := by
  have hlit := litext_le lits.length
  rw [lastBytes_length, bound]
  omega

/-- A run of fewer than 15 literals has no extension (`30_encoding.md` R101). -/
theorem lastBytes_of_lt {lits : List Byte} (h : lits.length < 15) :
    lastBytes lits = BitVec.ofNat 8 (lits.length * 16) :: lits := by
  have hnibble : nibble lits.length = lits.length := nibble_of_lt h
  rw [lastBytes, controlByte, hnibble, extOf, if_pos (show lits.length < Config.nibbleMax from h)]
  rfl

/-- Settles O16: the encoder writes the terminal sequence and leaves the cleared table
(`encode_of_lt`), and its size is within the bound. -/
theorem compressShortInput : Obligations.CompressShortInput := by
  intro P s hargs hprem hshort
  obtain ⟨hread, hroom, -⟩ := id hprem
  obtain ⟨e, hencode, htab, hn, hout⟩ := encode_of_lt s.srcFun s.work s.tab hshort
  have hlen : (s.srcBytes s.srcLen.toNat 0).length = s.srcLen.toNat := by
    rw [← Block.slice_srcFun hread, slice_length]
  rw [Block.slice_srcFun hread] at hout
  have hbound : e.out.length ≤ bound s.srcLen.toNat := by
    have h := lastBytes_length_le_bound (s.srcBytes s.srcLen.toNat 0)
    rwa [← hout, hlen] at h
  have hfits : e.out.length ≤ s.dst.size := hbound.trans hroom
  have hexec := Block.compress_completes hargs hprem
  rw [hencode] at hexec
  refine ⟨s.compressed e, hexec hfits, ?_⟩
  rintro out rfl
  rw [← hout]
  refine ⟨hn ▸ Block.compressed_endsWith (hn ▸ hbound), fun k => Block.compressed_dstByte hfits,
    fun h15 => ?_, fun h hh => ?_⟩
  · rw [hout, lastBytes_of_lt (by omega), hlen]
  · rw [show (s.compressed e).tab = e.tab from rfl, htab, get_tableClear, if_neg (Nat.not_le.2 hh)]

end Sys2Proof.Machine
end

