-- ==== Sys2Proof/Proofs/SequenceEffects.lean ====
section
/-! The sequence forms where nothing fails (`44_decoder.md` R250 to R255): each form reads its two
lengths, copies its literals and its match, and the cursors move behind it. The forms differ in how
they read the lengths; what they read is the same. -/

namespace Sys2Proof.Machine

variable {P : Config.Params} {s t : Block P}

/-! ## Bytes of the stream -/

/-- The stream holds these bytes from index `i` on, all below the read limit. -/
def Block.streamAt (s : Block P) (i : Nat) (bs : List Byte) : Prop :=
  s.srcBytes bs.length i = bs ∧ i + bs.length ≤ s.work.ilim

theorem Block.streamHas_iff {bs : List Byte} : s.streamHas bs ↔ s.streamAt s.work.ip bs := Iff.rfl

theorem Block.streamAt_append {i : Nat} {as bs : List Byte} :
    s.streamAt i (as ++ bs) ↔ s.streamAt i as ∧ s.streamAt (i + as.length) bs := by
  unfold Block.streamAt
  rw [List.length_append, ← Nat.add_assoc]
  constructor
  · rintro ⟨hbytes, hlim⟩
    have hall : (s.srcBytes (as.length + bs.length) i).length = as.length + bs.length := by
      rw [hbytes, List.length_append]
    have hfront : (s.srcBytes as.length i).length = as.length :=
      Block.srcBytes_length_eq.2 fun j hj => Block.srcBytes_length_eq.1 hall j (by omega)
    rw [Block.srcBytes_add hfront] at hbytes
    obtain ⟨has, hbs⟩ := List.append_inj hbytes hfront
    exact ⟨⟨has, by omega⟩, hbs, hlim⟩
  · rintro ⟨⟨has, -⟩, hbs, hlim⟩
    exact ⟨by rw [Block.srcBytes_add (by rw [has]), has, hbs], hlim⟩

theorem Block.streamAt_cons {i : Nat} {b : Byte} {bs : List Byte} (h : s.streamAt i (b :: bs)) :
    s.streamAt (i + 1) bs := (Block.streamAt_append (as := [b]).1 h).2

/-- The stream stays where the bytes of SRC below the read limit do. -/
theorem Block.streamAt_congr {i : Nat} {bs : List Byte} (h : s.streamAt i bs)
    (hlim : t.work.ilim = s.work.ilim)
    (hsrc : ∀ j, j < s.work.ilim → t.srcByte j = s.srcByte j) : t.streamAt i bs := by
  obtain ⟨hbytes, hend⟩ := h
  refine ⟨(Block.srcBytes_congr fun j hj => hsrc _ (by omega)).trans hbytes, ?_⟩
  rwa [hlim]

theorem Block.streamAt_getElem? {i k : Nat} {bs : List Byte} (h : s.streamAt i bs)
    (hk : k < bs.length) : s.srcByte (i + k) = bs[k]? := by
  obtain ⟨hbytes, -⟩ := h
  have hread := Block.srcBytes_getElem? s bs.length i k (by rwa [hbytes])
  rwa [hbytes, eq_comm] at hread

/-- What is read ahead starts with what the stream holds at the cursor. -/
theorem Block.unread_of_streamAt {bs : List Byte} (h : s.streamAt s.work.ip bs) :
    ∃ rest, s.unread = bs ++ rest := by
  obtain ⟨rest, hrest, -⟩ := Block.unread_of_streamHas h
  exact ⟨rest, hrest⟩

/-- SRC below the read limit is apart from the bytes of DST from `lo` up to `hi`, so it keeps its
bytes where only those change. -/
theorem Block.srcByte_of_outsideDst {n m lo hi : Nat} (hdisj : s.disjoint n m) (hhi : hi ≤ m)
    (hsize : hi ≤ s.dst.size) (hsrc : t.src = s.src)
    (hmem : ∀ a, s.outsideDst lo hi a → t.mem.read a = s.mem.read a) {j : Nat} (hj : j < n) :
    t.srcByte j = s.srcByte j := by
  unfold Block.srcByte
  rw [hsrc]
  split
  next hmapped =>
    refine hmem _ ?_
    by_contra hin
    unfold Block.outsideDst at hin
    exact hdisj j hj (s.src.base + j - s.dst.base) (by omega) hmapped (by omega) (by omega)
  next => rfl

/-- A mapped byte of DST is a byte of the store. -/
theorem Block.dstByte_of_lt (t : Block P) {i : Nat} (hdst : t.dst = s.dst) (hi : i < s.dst.size) :
    t.dstByte i = t.mem.read (s.dst.base + i) := by
  rw [Block.dstByte, hdst, if_pos hi]

/-! ## The length fields -/

/-- How the forms with a literal run of `len` bytes read its length (`42_length_codec.md` R177). -/
def readLitLen (len : Nat) : Block P → Flow P :=
  if len < 15 then litShort (BitVec.ofNat 4 len) else litExtended

/-- How the forms with the match-length code `code` read it (`42_length_codec.md` R178). -/
def readMatchLen (code : Nat) : Block P → Flow P :=
  if code < 15 then matchShort (BitVec.ofNat 4 code) else matchExtended

theorem readLitLen_go {len : Nat} {rest : List Byte} (h : s.unread = extOf len ++ rest) :
    readLitLen len s = .go (setLitLen len (advance (litext len) s)) := by
  unfold readLitLen
  split
  next hlen =>
    have hmod : len % 16 = len := Nat.mod_eq_of_lt (by omega)
    rw [litShort, BitVec.toNat_ofNat, hmod, litext, if_pos (show len < Config.nibbleMax from hlen)]
    rfl
  next hlen =>
    have hle : Config.nibbleMax ≤ len := Nat.le_of_not_lt hlen
    have hunread : (setLitLen Config.nibbleMax s).unread = s.unread :=
      Block.srcBytes_congr fun _ _ => rfl
    refine decExt_go.2 ⟨len - Config.nibbleMax, litext len, ?_, ?_⟩
    · rw [hunread, h, extSum_extOf hle rest]
    · rw [Nat.add_sub_of_le hle]
      rfl

theorem readMatchLen_go {code : Nat} {rest : List Byte} (h : s.unread = extOf code ++ rest) :
    readMatchLen code s = .go (setMatchLen code (advance (litext code) s)) := by
  unfold readMatchLen
  split
  next hcode =>
    have hmod : code % 16 = code := Nat.mod_eq_of_lt (by omega)
    rw [matchShort, BitVec.toNat_ofNat, hmod, litext,
      if_pos (show code < Config.nibbleMax from hcode)]
    rfl
  next hcode =>
    have hle : Config.nibbleMax ≤ code := Nat.le_of_not_lt hcode
    refine decExt_go.2 ⟨code - Config.nibbleMax, litext code, ?_, ?_⟩
    · rw [h, extSum_extOf hle rest]
    · rw [Nat.add_sub_of_le hle]

/-- The four non-terminal forms are one sequence of steps. -/
theorem exec_seqForm (len code : Nat) (s : Block P) :
    exec (seqForm len (code + 4)) ⟨P, s⟩ =
      (seqSteps (readLitLen len) (readMatchLen code)
        (takeToken (controlByte len code) s)).outcome := by
  have hcode : code + 4 < 19 ↔ code < 15 := by omega
  rw [controlByte_eq_token, seqForm, readLitLen, readMatchLen]
  simp only [hcode, Nat.add_sub_cancel]
  by_cases hl : len < 15 <;> by_cases hc : code < 15
  · rw [if_pos hl, if_pos hl, if_pos hc, if_pos hc, exec_seqSS, nibble_of_lt hl, nibble_of_lt hc]
  · rw [if_pos hl, if_pos hl, if_neg hc, if_neg hc, exec_seqSX, nibble_of_lt hl,
      nibble_of_le (Nat.le_of_not_lt hc)]
    rfl
  · rw [if_neg hl, if_neg hl, if_pos hc, if_pos hc, exec_seqXS, nibble_of_le (Nat.le_of_not_lt hl),
      nibble_of_lt hc]
    rfl
  · rw [if_neg hl, if_neg hl, if_neg hc, if_neg hc, exec_seqXX, nibble_of_le (Nat.le_of_not_lt hl),
      nibble_of_le (Nat.le_of_not_lt hc)]
    rfl

/-- The two terminal forms are one sequence of steps, whatever the low nibble. -/
theorem exec_lastForm (len : Nat) (x : BitVec 4) (s : Block P) :
    ∃ tok, exec (lastForm len x) ⟨P, s⟩ =
      ((readLitLen len (takeToken tok s)).andThen copyLiterals).terminal := by
  unfold lastForm readLitLen
  split
  · exact ⟨token (BitVec.ofNat 4 len) x, rfl⟩
  · exact ⟨token 15 x, rfl⟩

/-! ## The copies -/

/-- The literal run goes through where the stream holds it and DST takes it. -/
theorem copyLiterals_completes {lits : List Byte} (hlen : s.work.litLen = lits.length)
    (hstream : s.streamHas lits) (htakes : s.dstTakes lits.length) :
    ∃ m, copyLiterals s =
        .go { s with
          mem := m
          work := { s.work with op := s.work.op + lits.length, ip := s.work.ip + lits.length } } ∧
      (∀ k, k < lits.length → m.read (s.dst.base + (s.work.op + k)) = lits[k]?) ∧
      ∀ a, s.outsideDst s.work.op (s.work.op + lits.length) a → m.read a = s.mem.read a := by
  obtain ⟨hoend, hsize, hdisj⟩ := htakes
  have hbyte (k : Nat) (hk : k < lits.length) :
      s.work.ip + k < s.src.size ∧ s.mem.read (s.src.base + s.work.ip + k) = lits[k]? := by
    have hread := Block.streamAt_getElem? hstream hk
    rw [List.getElem?_eq_getElem hk] at hread ⊢
    rw [Nat.add_assoc]
    exact Block.srcByte_eq_some.1 hread
  have hapart : s.src.base + s.work.ip + lits.length ≤ s.dst.base + s.work.op ∨
      s.dst.base + s.work.op + lits.length ≤ s.src.base + s.work.ip := by
    by_contra hmeet
    have hlim := hstream.2
    obtain ⟨hmapped, -⟩ := hbyte (lits.length - 1) (by omega)
    exact hdisj (max (s.src.base + s.work.ip) (s.dst.base + s.work.op) - s.src.base) (by omega)
      (max (s.src.base + s.work.ip) (s.dst.base + s.work.op) - s.dst.base) (by omega) (by omega)
      (by omega) (by omega)
  obtain ⟨m, hcopy⟩ := Memory.copy_isSome_of_disjoint (m := s.mem) (k := lits.length)
    (fun j hj => by rw [(hbyte j hj).2, List.getElem?_eq_getElem hj]; rfl) hapart
  refine ⟨m, copyLiterals_go.2 ⟨m, ?_, ?_, ?_, ?_, ?_, ?_⟩, fun k hk => ?_, fun a ha => ?_⟩
  · rwa [hlen]
  · rw [hlen]
    exact hstream.2
  · by_cases hzero : lits.length = 0
    · simp [Block.roomInSrc, hlen, hzero]
    · obtain ⟨hmapped, -⟩ := hbyte (lits.length - 1) (by omega)
      have hroom : s.work.ip + lits.length ≤ s.src.size := by omega
      simp [Block.roomInSrc, hlen, hroom]
  · simp [Block.roomInDst, hlen, hsize]
  · rwa [hlen]
  · rw [hlen]
  · rw [← Nat.add_assoc, Memory.read_copy_of_disjoint hcopy hapart hk, (hbyte k hk).2]
  · unfold Block.outsideDst at ha
    exact Memory.read_copy_outside hcopy (by omega)

/-- A match with an offset other than 0 goes through where all bytes before it are there and DST
takes it: each of its bytes is the byte `offset` before it. -/
theorem copyMatch_completes (hzero : s.work.offset ≠ 0) (hoffset : s.work.offset ≤ s.work.op)
    (hoend : s.work.op + s.work.matchLen ≤ s.work.oend)
    (hsize : s.work.op + s.work.matchLen ≤ s.dst.size)
    (hread : ∀ i, i < s.work.op → (s.mem.read (s.dst.base + i)).isSome) :
    ∃ m, copyMatch s = .go (advanceOut s.work.matchLen { s with mem := m }) ∧
      (∀ k, k < s.work.matchLen → m.read (s.dst.base + (s.work.op + k)) =
        m.read (s.dst.base + (s.work.op + k - s.work.offset))) ∧
      ∀ a, s.outsideDst s.work.op (s.work.op + s.work.matchLen) a → m.read a = s.mem.read a := by
  have hback : s.dst.base + (s.work.op - s.work.offset) < s.dst.base + s.work.op := by omega
  obtain ⟨m, hcopy⟩ := Memory.copy_isSome_backward (m := s.mem) (k := s.work.matchLen) hback
    fun c hlo hhi => by
      have hc := hread (c - s.dst.base) (by omega)
      rwa [Nat.add_sub_of_le (by omega)] at hc
  refine ⟨m, copyMatch_go.2 ⟨hoend, by simp [Block.roomInDst, hsize], .inr ⟨hzero, m, hcopy, rfl⟩⟩,
    fun k hk => ?_, fun a ha => ?_⟩
  · have hbyte := Memory.read_copy_backward hcopy hback hk
    rw [← Nat.add_assoc, hbyte]
    congr 1
    omega
  · unfold Block.outsideDst at ha
    exact Memory.read_copy_outside hcopy (by omega)

/-- READ_OFFSET where the stream holds an offset within the output. -/
theorem readOffset_completes {offset : Nat} (hlt : offset < 65536)
    (hstream : s.streamHas (le16 offset)) (hoffset : offset ≤ s.work.op) :
    readOffset s = .go (advance 2 { s with work := { s.work with offset := offset } }) := by
  have hlo := Block.streamAt_getElem? (k := 0) hstream (by simp [le16])
  have hhi := Block.streamAt_getElem? (k := 1) hstream (by simp [le16])
  obtain ⟨-, hlo⟩ := Block.srcByte_eq_some.1 hlo
  obtain ⟨hmapped, hhi⟩ := Block.srcByte_eq_some.1 hhi
  have hvalue :
      (BitVec.ofNat 8 offset).toNat + 256 * (BitVec.ofNat 8 (offset / 256)).toNat = offset := by
    simp only [BitVec.toNat_ofNat]
    omega
  have hle := Memory.readLE_two hlo hhi
  rw [hvalue] at hle
  refine readOffset_go.2 ⟨offset, hstream.2, ?_, hoffset, rfl⟩
  rw [Block.srcLE, if_pos (show s.work.ip + Config.offsetBytes ≤ s.src.size from hmapped)]
  exact hle

/-! ## Whole sequences -/

/-- The block behind a literal run of `len` bytes, with the store `mem`. -/
def Block.afterLiterals (s : Block P) (tok : Byte) (len : Nat) (mem : Memory) : Block P :=
  { s with
    mem := mem
    work := { s.work with
      token := tok
      litLen := len
      op := s.work.op + len
      ip := s.work.ip + 1 + litext len + len } }

/-- The block behind the match of a sequence whose literals are written, with the store `mem`. -/
def Block.afterMatch (s : Block P) (offset code : Nat) (mem : Memory) : Block P :=
  { s with
    mem := mem
    work := { s.work with
      offset := offset
      matchLen := code + 4
      op := s.work.op + (code + 4)
      ip := s.work.ip + 2 + litext code } }

/-- The steps up to the literal run, which both kinds of sequence have in common. -/
theorem literalSteps_go {lits : List Byte} (tok : Byte)
    (hstream : s.streamAt (s.work.ip + 1) (extOf lits.length ++ lits))
    (htakes : s.dstTakes lits.length) :
    ∃ mem, (readLitLen lits.length (takeToken tok s)).andThen copyLiterals =
        .go (s.afterLiterals tok lits.length mem) ∧
      (∀ k, k < lits.length → mem.read (s.dst.base + (s.work.op + k)) = lits[k]?) ∧
      ∀ a, s.outsideDst s.work.op (s.work.op + lits.length) a → mem.read a = s.mem.read a := by
  obtain ⟨hext, hlits⟩ := Block.streamAt_append.1 hstream
  rw [extOf_length] at hlits
  obtain ⟨rest, hunread⟩ := Block.unread_of_streamAt (s := takeToken tok s)
    (Block.streamAt_congr hext rfl fun _ _ => rfl)
  obtain ⟨mem, hcopy, hbytes, hframe⟩ := copyLiterals_completes
    (s := setLitLen lits.length (advance (litext lits.length) (takeToken tok s))) rfl
    (Block.streamAt_congr hlits rfl fun _ _ => rfl) htakes
  exact ⟨mem, Flow.andThen_eq_go.2 ⟨_, readLitLen_go hunread, hcopy⟩, hbytes, hframe⟩

/-- The steps of a match behind the literal run. -/
theorem matchSteps_go {offset code : Nat} (hzero : offset ≠ 0) (hlt : offset < 65536)
    (hstream : s.streamAt s.work.ip (le16 offset ++ extOf code)) (hoffset : offset ≤ s.work.op)
    (hoend : s.work.op + (code + 4) ≤ s.work.oend) (hsize : s.work.op + (code + 4) ≤ s.dst.size)
    (hread : ∀ i, i < s.work.op → (s.mem.read (s.dst.base + i)).isSome) :
    ∃ mem, ((readOffset s).andThen (readMatchLen code)).andThen copyMatch =
        .go (s.afterMatch offset code mem) ∧
      (∀ k, k < code + 4 → mem.read (s.dst.base + (s.work.op + k)) =
        mem.read (s.dst.base + (s.work.op + k - offset))) ∧
      ∀ a, s.outsideDst s.work.op (s.work.op + (code + 4)) a → mem.read a = s.mem.read a := by
  obtain ⟨hle, hext⟩ := Block.streamAt_append.1 hstream
  have hgo := readOffset_completes hlt hle hoffset
  obtain ⟨rest, hunread⟩ := Block.unread_of_streamAt
    (s := advance 2 { s with work := { s.work with offset := offset } })
    (Block.streamAt_congr hext rfl fun _ _ => rfl)
  obtain ⟨mem, hcopy, hbytes, hframe⟩ := copyMatch_completes
    (s := setMatchLen code
      (advance (litext code) (advance 2 { s with work := { s.work with offset := offset } })))
    hzero hoffset hoend hsize hread
  exact ⟨mem,
    Flow.andThen_eq_go.2 ⟨_, Flow.andThen_eq_go.2 ⟨_, hgo, readMatchLen_go hunread⟩, hcopy⟩,
    hbytes, hframe⟩

/-- All steps of a non-terminal sequence behind its control byte. -/
theorem seqSteps_go {lits : List Byte} {offset code : Nat} (tok : Byte) (hzero : offset ≠ 0)
    (hlt : offset < 65536)
    (hstream : s.streamAt (s.work.ip + 1)
      ((extOf lits.length ++ lits) ++ (le16 offset ++ extOf code)))
    (htakes : s.dstTakes (lits.length + (code + 4))) (hoffset : offset ≤ s.work.op + lits.length)
    (hread : ∀ i, i < s.work.op → (s.mem.read (s.dst.base + i)).isSome) :
    ∃ mem, seqSteps (readLitLen lits.length) (readMatchLen code) (takeToken tok s) =
        .go ((s.afterLiterals tok lits.length mem).afterMatch offset code mem) ∧
      (∀ k, k < lits.length → mem.read (s.dst.base + (s.work.op + k)) = lits[k]?) ∧
      (∀ k, k < code + 4 → mem.read (s.dst.base + (s.work.op + lits.length + k)) =
        mem.read (s.dst.base + (s.work.op + lits.length + k - offset))) ∧
      ∀ a, s.outsideDst s.work.op (s.work.op + lits.length + (code + 4)) a →
        mem.read a = s.mem.read a := by
  obtain ⟨hoend, hsize, hdisj⟩ := htakes
  obtain ⟨hrun, hmatch⟩ := Block.streamAt_append.1 hstream
  rw [List.length_append, extOf_length, ← Nat.add_assoc] at hmatch
  obtain ⟨mem₁, hlits, hbytes₁, hframe₁⟩ := literalSteps_go tok hrun ⟨by omega, by omega, hdisj⟩
  have hsrc (j : Nat) (hj : j < s.work.ilim) :
      (s.afterLiterals tok lits.length mem₁).srcByte j = s.srcByte j :=
    Block.srcByte_of_outsideDst (t := s.afterLiterals tok lits.length mem₁)
      (hi := s.work.op + lits.length) hdisj (by omega) (by omega) rfl hframe₁ hj
  have hread₁ (i : Nat) (hi : i < s.work.op + lits.length) :
      (mem₁.read (s.dst.base + i)).isSome := by
    obtain hlo | hhi := Nat.lt_or_ge i s.work.op
    · rw [hframe₁ _ (.inl (by omega))]
      exact hread i hlo
    · obtain ⟨k, rfl⟩ := Nat.exists_eq_add_of_le hhi
      rw [hbytes₁ k (by omega), List.getElem?_eq_getElem (by omega), Option.isSome_some]
  have hoend' : s.work.op + lits.length + (code + 4) ≤ s.work.oend := by omega
  have hsize' : s.work.op + lits.length + (code + 4) ≤ s.dst.size := by omega
  obtain ⟨mem, hcopy, hbytes, hframe⟩ := matchSteps_go
    (s := s.afterLiterals tok lits.length mem₁) hzero hlt (Block.streamAt_congr hmatch rfl hsrc)
    hoffset hoend' hsize' hread₁
  refine ⟨mem, ?_, fun k hk => ?_, hbytes, fun a ha => ?_⟩
  · rw [seqSteps, hlits, Flow.go_andThen, hcopy]
    rfl
  · rw [← hbytes₁ k hk]
    exact hframe _ (.inl (Nat.add_lt_add_left (Nat.add_lt_add_left hk _) _))
  · unfold Block.outsideDst at ha
    have hbehind : a < s.dst.base + (s.work.op + lits.length) ∨
        s.dst.base + (s.work.op + lits.length + (code + 4)) ≤ a := by omega
    exact (hframe a hbehind).trans (hframe₁ a (by unfold Block.outsideDst; omega))

/-- A ready non-terminal sequence runs to its end and has its effect (`44_decoder.md` R250 to
R253). -/
theorem exec_seqForm_completes {lits : List Byte} {offset m : Nat} (h : s.seqReady lits offset m)
    (hzero : offset ≠ 0) :
    ∃ t, exec (seqForm lits.length m) ⟨P, s⟩ = .next ⟨P, t⟩ ∧ s.seqEffect t lits offset m := by
  obtain ⟨hm, hlt, hstream, htakes, hoffset, hread⟩ := h
  obtain ⟨code, rfl⟩ := Nat.exists_eq_add_of_le' hm
  rw [seqBytes, show code + 4 - Config.minMatch = code from rfl, Block.streamHas_iff] at hstream
  have hfields : s.streamAt (s.work.ip + 1)
      ((extOf lits.length ++ lits) ++ (le16 offset ++ extOf code)) :=
    Block.streamAt_cons (b := controlByte lits.length code) (by simpa using hstream)
  obtain ⟨mem, hgo, hlits, hbytes, hframe⟩ := seqSteps_go (controlByte lits.length code) hzero hlt
    hfields htakes hoffset fun i hi => by
      obtain ⟨b, hb⟩ := Option.isSome_iff_exists.1 (hread i hi)
      rw [(Block.dstByte_eq_some.1 hb).2, Option.isSome_some]
  have hsize := htakes.2.1
  have hdst {i : Nat} (hi : i < s.work.op + lits.length + (code + 4)) :=
    Block.dstByte_of_lt ((s.afterLiterals (controlByte lits.length code) lits.length mem).afterMatch
      offset code mem) (s := s) rfl (show i < s.dst.size by omega)
  refine ⟨_, (exec_seqForm _ code s).trans (congrArg Flow.outcome hgo), ?_, fun k hk => ?_,
    fun k hk => ?_, hframe⟩
  · have hip : s.work.ip + (1 + litext lits.length + lits.length + 2 + matchext (code + 4)) =
        s.work.ip + 1 + litext lits.length + lits.length + 2 + litext code := by
      rw [← litext_sub_minMatch, show code + 4 - Config.minMatch = code from rfl]
      omega
    rw [Work.afterSequence, hip]
    rfl
  · rw [hdst (by omega)]
    exact hlits k hk
  · rw [hdst (by omega), hdst (by omega)]
    exact hbytes k hk

/-- A ready terminal sequence runs to its end and ends the command (`44_decoder.md` R254, R255). -/
theorem exec_lastForm_completes {lits : List Byte} (x : BitVec 4) (h : s.lastReady lits) :
    ∃ t, exec (lastForm lits.length x) ⟨P, s⟩ = .next ⟨P, t⟩ ∧ s.lastEffect t lits := by
  obtain ⟨hbytes, hlim, htakes⟩ := h
  obtain ⟨tok, hexec⟩ := exec_lastForm lits.length x s
  have hlen : (extOf lits.length ++ lits).length = litext lits.length + lits.length := by simp
  obtain ⟨mem, hgo, hlits, hframe⟩ := literalSteps_go tok
    ⟨by rw [hlen, hbytes], by rw [hlen]; omega⟩ htakes
  obtain ⟨hoend, hsize, -⟩ := htakes
  rw [hgo] at hexec
  refine ⟨_, hexec, ⟨?_, rfl, rfl, ⟨rfl, rfl, rfl, rfl, rfl, rfl, rfl⟩, fun a ha => ?_⟩, rfl,
    fun k hk => ?_⟩
  · have hvalue : (s.afterLiterals tok lits.length mem).finishValue =
        if s.phase = .unknown then s.work.op + lits.length
        else s.work.ip + (1 + litext lits.length + lits.length) := by
      simp only [Block.finishValue, Block.isUnknown, Block.afterLiterals, beq_iff_eq,
        ← Nat.add_assoc]
    exact congrArg (BitVec.ofNat P.xlen) hvalue
  · unfold Block.outsideDst at ha
    refine (Block.read_scratchDst (s.afterLiterals tok lits.length mem) _ _ _ ?_).trans
      (hframe a (ha.imp id ?_))
    · exact ha.imp (fun h => h.trans_le (Nat.add_le_add_left (Nat.le_add_right _ _) _)) id
    · exact fun h => (Nat.add_le_add_left hoend _).trans h
  · rw [Block.dstByte_of_lt (s := s) (s.afterLiterals tok lits.length mem).decodeFinish rfl
      (by omega)]
    exact (Block.read_scratchDst (s.afterLiterals tok lits.length mem) _ _ _
      (.inl (Nat.add_lt_add_left (Nat.add_lt_add_left hk _) _))).trans (hlits k hk)

end Sys2Proof.Machine
end

