-- ==== Sys2Proof/Proofs/RoundTrip.lean ====
section
/-! A decoder command on a conforming stream gives its input back (`44_decoder.md` R256), and the
encoder's stream is one (`43_encoder.md` R210). A running decoder is behind some sequences of the
stream: DST holds what they replay to, and the rest of the stream is at the cursor. -/

namespace Sys2Proof.Machine

variable {P : Config.Params}

/-! ## Runs of the machine -/

theorem Block.runs_refl (s : Block P) : s.runs s := ⟨0, rfl⟩

theorem coreRun_succ {M : Host.Core} {s t : M.State} (h : M.step s = .next t) (k : Nat) :
    M.run (k + 1) s = M.run k t := by
  rw [Host.Core.run, h]

theorem Block.runs_step {s t u : Block P} (hstep : Machine.step ⟨P, s⟩ = .next ⟨P, t⟩)
    (h : t.runs u) : s.runs u := by
  obtain ⟨k, hk⟩ := h
  exact ⟨k + 1, (coreRun_succ (M := Sys2Proof.core) hstep k).trans hk⟩

/-- The step of a running decoder that finds a sequence. -/
theorem step_of_sequence {s : Block P} {i : Instr} (hrun : s.phase ≠ .idle)
    (hip : s.work.ip < s.work.ilim) (hdec : decodeSequence P s.context s.unread = .ok i) :
    step ⟨P, s⟩ = exec i ⟨P, s⟩ := by
  rw [step_mk, Block.step_running hrun, decoderStep, Block.fetch_sequence.2 ⟨hip, hdec⟩]

/-! ## The output of a sequence -/

theorem getElem?_copyBack_of_lt (k offset : Nat) {out : List Byte} {i : Nat} (hi : i < out.length) :
    (copyBack k offset out)[i]? = out[i]? := by
  induction k generalizing out with
  | zero => rfl
  | succ k ih =>
    rw [copyBack, ih (by rw [List.length_append]; omega), List.getElem?_append_left hi]

/-- Each byte that a copy adds is the byte `offset` before it. -/
theorem getElem?_copyBack {k offset : Nat} {out : List Byte} (hzero : 0 < offset)
    (hoffset : offset ≤ out.length) {j : Nat} (hj : j < k) :
    (copyBack k offset out)[out.length + j]? =
      (copyBack k offset out)[out.length + j - offset]? := by
  induction k generalizing out j with
  | zero => exact absurd hj (Nat.not_lt_zero j)
  | succ k ih =>
    rw [copyBack]
    generalize hx : (out[out.length - offset]?).getD 0 = x
    have hlen : (out ++ [x]).length = out.length + 1 := by simp
    cases j with
    | zero =>
      have hlt : out.length - offset < out.length := by omega
      rw [Nat.add_zero, getElem?_copyBack_of_lt _ _ (by omega),
        getElem?_copyBack_of_lt _ _ (by omega), List.getElem?_append_left hlt,
        List.getElem?_concat_length, ← hx, List.getElem?_eq_getElem hlt, Option.getD_some]
    | succ j =>
      have hrest := ih (out := out ++ [x]) (by omega) (Nat.lt_of_succ_lt_succ hj)
      rwa [hlen, Nat.add_assoc, Nat.add_comm 1 j] at hrest

/-- Bytes that stand as the effect of a sequence says are the bytes of its replay. -/
theorem getElem?_apply_of_effect {out : List Byte} {q : SeqItem} {f : Nat → Option Byte}
    (hzero : 0 < q.offset) (hoffset : q.offset ≤ out.length + q.lits.length)
    (hout : ∀ k, k < out.length → f k = out[k]?)
    (hlits : ∀ k, k < q.lits.length → f (out.length + k) = q.lits[k]?)
    (hmatch : ∀ k, k < q.m →
      f (out.length + q.lits.length + k) = f (out.length + q.lits.length + k - q.offset))
    {i : Nat} (hi : i < (q.apply out).length) : f i = (q.apply out)[i]? := by
  have hlen : (out ++ q.lits).length = out.length + q.lits.length := List.length_append
  rw [SeqItem.apply_length] at hi
  unfold SeqItem.apply
  induction i using Nat.strongRecOn with
  | ind i ih =>
    obtain hlt | hge := Nat.lt_or_ge i (out.length + q.lits.length)
    · rw [getElem?_copyBack_of_lt _ _ (by omega)]
      obtain hlo | hhi := Nat.lt_or_ge i out.length
      · rw [List.getElem?_append_left hlo, hout i hlo]
      · obtain ⟨k, rfl⟩ := Nat.exists_eq_add_of_le hhi
        rw [List.getElem?_append_right hhi, Nat.add_sub_cancel_left, hlits k (by omega)]
    · obtain ⟨k, rfl⟩ := Nat.exists_eq_add_of_le hge
      have hcopy := getElem?_copyBack (k := q.m) hzero (hlen ▸ hoffset) (j := k) (by omega)
      rw [hlen] at hcopy
      rw [hmatch k (by omega), hcopy]
      exact ih _ (by omega) (by omega)

/-! ## A decoder on its way -/

theorem Block.srcBytes_eq_of_getElem? {s : Block P} {bs : List Byte} {i : Nat}
    (h : ∀ k, k < bs.length → s.srcByte (i + k) = bs[k]?) : s.srcBytes bs.length i = bs := by
  have hlen : (s.srcBytes bs.length i).length = bs.length :=
    Block.srcBytes_length_eq.2 fun k hk => by rw [h k hk, List.getElem?_eq_getElem hk]; rfl
  refine List.ext_getElem? fun k => ?_
  obtain hk | hk := Nat.lt_or_ge k bs.length
  · rw [Block.srcBytes_getElem? _ _ _ _ (by omega), h k hk]
  · rw [List.getElem?_eq_none (by omega), List.getElem?_eq_none hk]

/-- Blocks with the same registers and windows have the same SRC and DST. -/
theorem Block.src_of_sameSetup {s t : Block P} (h : s.sameSetup t) : t.src = s.src := by
  obtain ⟨hbase, -, -, -, hwin, -⟩ := h
  rw [Block.src, Block.src, Block.window, Block.window, hbase, hwin]

theorem Block.dst_of_sameSetup {s t : Block P} (h : s.sameSetup t) : t.dst = s.dst := by
  obtain ⟨-, -, hbase, -, hwin, -⟩ := h
  rw [Block.dst, Block.dst, Block.window, Block.window, hbase, hwin]

theorem Block.sameSetup_trans {s t u : Block P} (hst : s.sameSetup t) (htu : t.sameSetup u) :
    s.sameSetup u := by
  obtain ⟨h1, h2, h3, h4, h5, h6, h7⟩ := hst
  obtain ⟨k1, k2, k3, k4, k5, k6, k7⟩ := htu
  exact ⟨k1.trans h1, k2.trans h2, k3.trans h3, k4.trans h4, k5.trans h5, k6.trans h6, k7.trans h7⟩

/-- A decoder command that was started in `b` with phase `p` is in `s` behind the output `out`, with
`stream` at its cursor; `size` is the size of the whole stream. -/
structure Block.DecodedTo (b : Block P) (p : Phase) (size : Nat) (out stream : List Byte)
    (s : Block P) : Prop where
  setup : b.sameSetup s
  phase : s.phase = p
  ilim : s.work.ilim = b.srcLen.toNat
  oend : s.work.oend = b.dstLen.toNat
  op : s.work.op = out.length
  ip : s.work.ip + stream.length = size
  ahead : s.streamAt s.work.ip stream
  behind : ∀ k, k < out.length → s.dstByte k = out[k]?
  frame : ∀ a, b.outsideDst 0 b.dstLen.toNat a → s.mem.read a = b.mem.read a

section Decoding

variable {b s : Block P} {p : Phase} {size : Nat} {out : List Byte}

/-- DEC_START is behind no output, with the whole stream at its cursor. -/
theorem Block.startDecoder_decodedTo (p : Phase) {stream : List Byte}
    (hbytes : b.srcBytes stream.length 0 = stream) (hlen : stream.length ≤ b.srcLen.toNat) :
    b.DecodedTo p stream.length [] stream (b.startDecoder p) where
  setup := b.startDecoder_sameSetup p
  phase := rfl
  ilim := rfl
  oend := rfl
  op := rfl
  ip := Nat.zero_add _
  ahead := ⟨(Block.srcBytes_congr (s := b) (t := b.startDecoder p) fun _ _ => rfl).trans hbytes,
    (Nat.zero_add _).trans_le hlen⟩
  behind := nofun
  frame _ _ := rfl

theorem Block.DecodedTo.dstTakes {stream : List Byte} (h : b.DecodedTo p size out stream s)
    (hprem : b.decompressPremises) {k : Nat} (hk : out.length + k ≤ b.dstLen.toNat) :
    s.dstTakes k := by
  obtain ⟨-, hsize, hdisj⟩ := hprem
  have hsrc := Block.src_of_sameSetup h.setup
  have hdst := Block.dst_of_sameSetup h.setup
  unfold Block.dstTakes Block.disjoint
  rw [h.op, h.oend, h.ilim, hsrc, hdst]
  exact ⟨hk, hk.trans hsize, hdisj⟩

/-- The effect of the sequence at the cursor takes the decoder behind it. -/
theorem Block.DecodedTo.of_seqEffect {t : Block P} {q : SeqItem} {rest : List Byte}
    (h : b.DecodedTo p size out (seqBytes q.lits q.offset q.m ++ rest) s)
    (htakes : s.dstTakes (q.lits.length + q.m)) (hzero : 1 ≤ q.offset)
    (hoffset : q.offset ≤ out.length + q.lits.length)
    (heffect : s.seqEffect t q.lits q.offset q.m) : b.DecodedTo p size (q.apply out) rest t := by
  obtain ⟨hsame, hlits, hmatch, hframe⟩ := heffect
  obtain ⟨hoend, hmapped, hdisj⟩ := htakes
  have hdst : t.dst = s.dst := by rw [hsame]; rfl
  have hip : t.work.ip = s.work.ip + (seqBytes q.lits q.offset q.m).length := by
    rw [hsame, seqBytes_length]
    rfl
  have hsize := h.ip
  rw [List.length_append] at hsize
  have hsrc (j : Nat) (hj : j < s.work.ilim) : t.srcByte j = s.srcByte j :=
    Block.srcByte_of_outsideDst (t := t) (hi := s.work.op + q.lits.length + q.m) hdisj (by omega)
      (by omega) (by rw [hsame]; rfl) hframe hj
  have hbelow (k : Nat) (hk : k < out.length) : t.dstByte k = out[k]? :=
    (Block.dstByte_congr hdst (hframe _ (.inl (by rw [h.op]; omega)))).trans (h.behind k hk)
  rw [h.op] at hlits hmatch
  exact
    { setup := Block.sameSetup_trans h.setup
        (by rw [hsame]; exact ⟨rfl, rfl, rfl, rfl, rfl, rfl, rfl⟩)
      phase := by rw [hsame]; exact h.phase
      ilim := by rw [hsame]; exact h.ilim
      oend := by rw [hsame]; exact h.oend
      op := by rw [hsame, SeqItem.apply_length, ← h.op]; rfl
      ip := by rw [hip]; omega
      ahead := by
        rw [hip]
        exact Block.streamAt_congr (Block.streamAt_append.1 h.ahead).2 (by rw [hsame]; rfl) hsrc
      behind := fun k hk => getElem?_apply_of_effect hzero hoffset hbelow hlits hmatch hk
      frame := fun a ha => by
        rw [← h.frame a ha]
        have hend := h.oend
        have hop := h.op
        refine hframe a ?_
        unfold Block.outsideDst at ha ⊢
        rw [Block.dst_of_sameSetup h.setup]
        omega }

/-- A sequence of the stream is decoded in one step. -/
theorem Block.DecodedTo.step_sequence {q : SeqItem} {rest : List Byte}
    (h : b.DecodedTo p size out (seqBytes q.lits q.offset q.m ++ rest) s) (hp : p ≠ .idle)
    (hprem : b.decompressPremises) (hm : 4 ≤ q.m) (hzero : 1 ≤ q.offset)
    (hoffset : q.offset ≤ out.length + q.lits.length) (hnear : q.offset ≤ 65535)
    (hmargin : out.length + q.lits.length + P.decMargin ≤ b.dstLen.toNat)
    (hroom : out.length + q.lits.length + q.m ≤ b.dstLen.toNat) :
    ∃ t, Machine.step ⟨P, s⟩ = .next ⟨P, t⟩ ∧ b.DecodedTo p size (q.apply out) rest t := by
  have htakes := h.dstTakes hprem (k := q.lits.length + q.m) (by omega)
  have hseq := (Block.streamAt_append.1 h.ahead).1
  have hlim := hseq.2
  rw [seqBytes_length] at hlim
  have hsome (i : Nat) (hi : i < s.work.op) : (s.dstByte i).isSome := by
    rw [h.op] at hi
    rw [h.behind i hi, List.getElem?_eq_getElem hi, Option.isSome_some]
  obtain ⟨t, hexec, heffect⟩ := exec_seqForm_completes
    ⟨hm, by omega, Block.streamHas_iff.2 hseq, htakes, h.op ▸ hoffset, hsome⟩ (by omega)
  obtain ⟨ahead, hunread⟩ := Block.unread_of_streamAt hseq
  have hdec : decodeSequence P s.context s.unread = .ok (seqForm q.lits.length q.m) := by
    rw [hunread, (sequencesDecodeEncode P s.context q.lits ahead q.offset q.m hm).1, if_neg]
    have hoend : s.context.oend = b.dstLen.toNat := h.oend
    have hop : s.context.op = out.length := h.op
    have hip : s.context.ip = s.work.ip := rfl
    have hilim : s.context.ilim = s.work.ilim := rfl
    omega
  exact ⟨t, (step_of_sequence (h.phase ▸ hp) (by omega) hdec).trans hexec,
    h.of_seqEffect htakes hzero hoffset heffect⟩

/-- When a run of `len` literals that ends the stream is taken as terminal: inside the margin of a
fixed-size decoder's bound, or at an unknown-size decoder's read limit. -/
def Block.endsStream (b : Block P) (p : Phase) (size len : Nat) : Prop :=
  (p = .fixed ∧ b.dstLen.toNat = len) ∨
    (p = .unknown ∧ len ≤ b.dstLen.toNat ∧ b.srcLen.toNat = size)

theorem Block.endsStream.running {len : Nat} (h : b.endsStream p size len) : p ≠ .idle := by
  obtain ⟨rfl, -⟩ | ⟨rfl, -⟩ := h <;> decide

theorem Block.endsStream.room {len : Nat} (h : b.endsStream p size len) :
    len ≤ b.dstLen.toNat := by
  obtain ⟨-, hfull⟩ | ⟨-, hle, -⟩ := h
  · exact Nat.le_of_eq hfull.symm
  · exact hle

/-- RESULT of a decoder that succeeds: bytes produced or bytes consumed (`44_decoder.md` R247). -/
def producedOrConsumed (p : Phase) (produced consumed : Nat) : Nat :=
  if p = .unknown then produced else consumed

/-- The terminal sequence of the stream ends the command with success. -/
theorem Block.DecodedTo.step_last {last : List Byte} (h : b.DecodedTo p size out (lastBytes last) s)
    (hprem : b.decompressPremises) (hmargin : 1 ≤ P.decMargin)
    (hend : b.endsStream p size (out ++ last).length) :
    ∃ t, Machine.step ⟨P, s⟩ = .next ⟨P, t⟩ ∧
      b.endsWith t (BitVec.ofNat P.xlen (producedOrConsumed p (out ++ last).length size)) 0 0
        b.dstLen.toNat ∧
      ∀ k, k < (out ++ last).length → t.dstByte k = (out ++ last)[k]? := by
  have hlen : (out ++ last).length = out.length + last.length := List.length_append
  rw [hlen] at hend ⊢
  have hroom := hend.room
  have hlim := h.ahead.2
  have hsize := h.ip
  rw [lastBytes_length] at hlim hsize
  have hend' := h.oend
  have hilim := h.ilim
  have hop := h.op
  obtain ⟨hbytes, -⟩ := Block.streamAt_cons h.ahead
  obtain ⟨t, hexec, ⟨hresult, hstatus, hidle, hsetup, hframe⟩, -, hwritten⟩ :=
    exec_lastForm_completes (lits := last) 0
      ⟨by simpa using hbytes, by omega, h.dstTakes hprem hroom⟩
  obtain ⟨ahead, hunread⟩ := Block.unread_of_streamAt h.ahead
  have hdec : decodeSequence P s.context s.unread = .ok (lastForm last.length 0) := by
    rw [hunread, (sequencesDecodeEncode P s.context last ahead 0 4 (Nat.le_refl 4)).2, if_pos]
    obtain ⟨-, hfull⟩ | ⟨hunknown, -, hall⟩ := hend
    · refine .inl ?_
      change s.work.oend < s.work.op + last.length + P.decMargin
      omega
    · refine .inr ⟨by simp [Block.context, Block.isUnknown, h.phase, hunknown], ?_⟩
      change s.work.ip + 1 + litext last.length + last.length = s.work.ilim
      omega
  have hvalue : producedOrConsumed p (out.length + last.length) size =
      if s.phase = .unknown then s.work.op + last.length
      else s.work.ip + (1 + litext last.length + last.length) := by
    rw [producedOrConsumed, h.phase, hop, hsize]
  have hdst := Block.dst_of_sameSetup h.setup
  refine ⟨t, (step_of_sequence (h.phase ▸ hend.running) (by omega) hdec).trans hexec,
    ⟨hvalue ▸ hresult, hstatus, hidle, Block.sameSetup_trans h.setup hsetup, fun a ha => ?_⟩,
    fun k hk => ?_⟩
  · rw [← h.frame a ha]
    refine hframe a ?_
    unfold Block.outsideDst at ha ⊢
    rw [hdst]
    omega
  · obtain hlo | hhi := Nat.lt_or_ge k out.length
    · rw [List.getElem?_append_left hlo, ← h.behind k hlo]
      exact Block.dstByte_congr (Block.dst_of_sameSetup hsetup) (hframe _ (.inl (by omega)))
    · obtain ⟨j, rfl⟩ := Nat.exists_eq_add_of_le hhi
      rw [List.getElem?_append_right hhi, Nat.add_sub_cancel_left, ← hop]
      exact hwritten j (by omega)

/-- The rest of the stream is decoded, one step for each sequence. -/
theorem Block.DecodedTo.runs {E : Config.Params} {n : Nat} {items : List SeqItem}
    {last : List Byte} (h : b.DecodedTo p size out (streamBytes items last) s)
    (hprem : b.decompressPremises) (hmargin : 1 ≤ P.decMargin) (hE : P.decMargin ≤ E.mfLimit)
    (hconf : conformingItems E n out items) (hn : (replay out items ++ last).length = n)
    (hend : b.endsStream p size n) :
    ∃ t, s.runs t ∧
      b.endsWith t (BitVec.ofNat P.xlen (producedOrConsumed p n size)) 0 0 b.dstLen.toNat ∧
      ∀ k, k < n → t.dstByte k = (replay out items ++ last)[k]? := by
  induction items generalizing out s with
  | nil =>
    subst hn
    obtain ⟨t, hstep, hends⟩ := h.step_last hprem hmargin hend
    exact ⟨t, Block.runs_step hstep t.runs_refl, hends⟩
  | cons q items ih =>
    obtain ⟨hm, hzero, hoffset, hnear, hlimit, hroom, hitems⟩ := hconf
    have hroom' := hend.room
    obtain ⟨u, hstep, hnext⟩ :=
      h.step_sequence hend.running hprem hm hzero hoffset hnear (by omega) (by omega)
    obtain ⟨t, hruns, hends⟩ := ih hnext hitems hn
    exact ⟨t, Block.runs_step hstep hruns, hends⟩

end Decoding

/-! ## Whole commands -/

/-- The write of a decoder command's word to `x[CMD]` starts the decoder. -/
theorem launch_step {s : Block P} {w : Word P.xlen} {rest : List (HostAction P.xlen)} {p : Phase}
    (hlaunch : s.launching w rest) (hargs : s.decompressArgs)
    (hdisj : s.disjoint s.srcLen.toNat s.dstLen.toNat)
    (hw : (w.toNat = 2 ∧ p = .fixed) ∨ (w.toNat = 3 ∧ p = .unknown)) :
    step ⟨P, s⟩ = .next ⟨P, Block.startDecoder { s with host := rest } p⟩ := by
  obtain ⟨hidle, hhost⟩ := hlaunch
  obtain ⟨hfixed, hunknown⟩ := decompressCommandsStart P { s with host := rest } hargs hdisj
  rw [step_of_host hidle hhost]
  change startCommand w _ = _
  rw [startCommand, decodeCommand_eq]
  obtain ⟨hval, rfl⟩ | ⟨hval, rfl⟩ := hw
  · rw [hval]
    exact hfixed
  · rw [hval]
    exact hunknown

/-- A decoder command on a conforming stream for `input` succeeds and leaves `input` in DST
(`44_decoder.md` R256). -/
theorem decoder_runs_conforming {E : Config.Params} {s : Block P} {w : Word P.xlen}
    {rest : List (HostAction P.xlen)} {input last stream : List Byte} {items : List SeqItem}
    {p : Phase} (hconf : conforming E input items last) (hmargin : 1 ≤ P.decMargin)
    (hE : P.decMargin ≤ E.mfLimit) (hstream : stream = streamBytes items last)
    (hbytes : s.srcBytes stream.length 0 = stream) (hlen : stream.length ≤ s.srcLen.toNat)
    (hlaunch : s.launching w rest) (hargs : s.decompressArgs) (hprem : s.decompressPremises)
    (hw : (w.toNat = 2 ∧ p = .fixed) ∨ (w.toNat = 3 ∧ p = .unknown))
    (hend : s.endsStream p stream.length input.length) :
    ∃ t, s.runs t ∧
      { s with host := rest }.endsWith t
        (BitVec.ofNat P.xlen (producedOrConsumed p input.length stream.length)) 0 0
        s.dstLen.toNat ∧
      ∀ k, k < input.length → t.dstByte k = input[k]? := by
  obtain ⟨hreplay, hitems, -⟩ := hconf
  have hstart := Block.startDecoder_decodedTo (b := { s with host := rest }) p
    ((Block.srcBytes_congr (s := s) (t := { s with host := rest }) fun _ _ => rfl).trans hbytes)
    hlen
  rw [hstream] at hstart
  obtain ⟨t, hruns, hends, hdst⟩ := hstart.runs hprem hmargin hE hitems
    (congrArg List.length hreplay) (hstream ▸ hend)
  rw [hreplay] at hdst
  rw [← hstream] at hends
  exact ⟨t, Block.runs_step (launch_step hlaunch hargs hprem.2.2 hw) hruns, hends, hdst⟩

/-! ## The round trip -/

/-- A size within the bound of a COMPRESS that runs fits RESULT (`92_eei_decisions.md` D4). -/
theorem Block.toNat_result_of_le_bound {s : Block P} (hx : 5 ≤ P.xlen) (hargs : s.compressArgs)
    {k : Nat} (hk : k ≤ bound s.srcLen.toNat) : (BitVec.ofNat P.xlen k).toNat = k := by
  obtain ⟨-, -, hpos, hmax⟩ := hargs
  rw [BitVec.toInt_eq_toNat_of_lt (BitVec.toInt_pos_iff.1 hpos)] at hmax
  have hhalf : 2 ^ 4 ≤ 2 ^ (P.xlen - 1) := Nat.pow_le_pow_right (by decide) (by omega)
  have hpow : 2 ^ P.xlen = 2 * 2 ^ (P.xlen - 1) := by
    rw [← Nat.pow_succ', Nat.succ_eq_add_one, Nat.sub_add_cancel (by omega)]
  simp only [Config.maxCompressLen, Config.maxLen] at hmax
  unfold bound at hk
  rw [BitVec.toNat_ofNat, Nat.mod_eq_of_lt]
  omega

/-- What a COMPRESS leaves: the listing's stream in DST, and its size in RESULT. -/
theorem Block.compress_leaves_stream {s t : Block P} (hparams : s.compressParams)
    (hargs : s.compressArgs) (hexec : exec .compress ⟨P, s⟩ = .next ⟨P, t⟩) {out : List Byte}
    (hout : out = streamBytes (listingEncode P s.srcFun s.srcLen.toNat).1
      (listingEncode P s.srcFun s.srcLen.toNat).2) :
    t.result.toNat = out.length ∧ ∀ k, k < out.length → t.dstByte k = out[k]? := by
  obtain ⟨hP, hx, hfit⟩ := hparams
  obtain ⟨hbad, -⟩ | ⟨-, -, -, hroom, rfl⟩ := Block.compress_next.1 hexec
  · rw [Block.badCompress_eq_false.2 hargs] at hbad
    cases hbad
  · have hstream := (encoderStepsRefineListing P s.srcFun _ s.work s.tab hP hfit).2
    have hbound := encoderSizeBound P s.srcFun _ s.work s.tab hP hfit
    rw [hout, ← hstream]
    exact ⟨Block.toNat_result_of_le_bound hx hargs hbound, fun k => Block.compressed_dstByte hroom⟩

/-- Settles O42: the bytes that COMPRESS left are the listing's stream, which conforms for the
input, and a decoder command runs on it to its end. -/
theorem roundTrip : Obligations.RoundTrip := by
  intro P s t hparams hargs hprem hexec Q u w rest hmargin hE hlaunch huargs huprem hlen hcopy
  obtain ⟨out, hout⟩ : ∃ out, out = streamBytes (listingEncode P s.srcFun s.srcLen.toNat).1
    (listingEncode P s.srcFun s.srcLen.toNat).2 := ⟨_, rfl⟩
  obtain ⟨hresult, hwritten⟩ := Block.compress_leaves_stream hparams hargs hexec hout
  have hconf := listingEncode_conforming s.srcFun s.srcLen.toNat hparams.1
  rw [hresult] at hlen hcopy
  have hbyte (k : Nat) (hk : k < out.length) : u.srcByte (0 + k) = out[k]? := by
    rw [Nat.zero_add, hcopy k hk, hwritten k hk]
  have hbytes : u.srcBytes out.length 0 = out := Block.srcBytes_eq_of_getElem? hbyte
  have hinput (k : Nat) (hk : k < s.srcLen.toNat) :
      (slice s.srcFun 0 s.srcLen.toNat)[k]? = s.srcByte k := by
    obtain ⟨b, hb⟩ := Option.isSome_iff_exists.1 (hprem.1 k hk)
    rw [slice_getElem? _ _ _ _ hk, Nat.zero_add, Block.srcFun, hb, Option.getD_some]
  have decode (p : Phase) (hw : (w.toNat = 2 ∧ p = .fixed) ∨ (w.toNat = 3 ∧ p = .unknown))
      (hend : u.endsStream p out.length s.srcLen.toNat) :=
    decoder_runs_conforming hconf hmargin hE hout hbytes (Nat.le_of_eq hlen.symm) hlaunch huargs
      huprem hw (by rwa [slice_length])
  simp only [slice_length] at decode
  constructor
  · intro hw hdst
    obtain ⟨v, hruns, hends, hbytes⟩ := decode .fixed (.inl ⟨hw, rfl⟩) (.inl ⟨rfl, hdst⟩)
    refine ⟨v, hruns, ?_, fun k hk => (hbytes k hk).trans (hinput k hk)⟩
    rwa [producedOrConsumed, if_neg (by decide), ← hlen, BitVec.ofNat_toNat,
      BitVec.setWidth_eq] at hends
  · intro hw hdst
    obtain ⟨v, hruns, hends, hbytes⟩ :=
      decode .unknown (.inr ⟨hw, rfl⟩) (.inr ⟨rfl, hdst, hlen⟩)
    exact ⟨v, hruns, hends, fun k hk => (hbytes k hk).trans (hinput k hk)⟩

end Sys2Proof.Machine
end

