-- ==== Sys2Proof/Proofs/SequenceForms.lean ====
section
/-! The statements about single decoder steps that go through (`44_decoder.md` R233, R242, R244, R250
to R255): each form by its name, the pattern a match repeats, and the match with offset 0, whose bytes
become free values. -/

namespace Sys2Proof.Machine

variable {P : Config.Params} {s : Block P}

/-! ## The six forms -/

/-- Settles O28: each form is the `seqForm` of the lengths it encodes. -/
theorem sequenceFormsComplete : Obligations.SequenceFormsComplete := by
  intro P s lits offset m hready hzero
  have hdone := exec_seqForm_completes hready hzero
  unfold seqForm at hdone
  refine ⟨fun hl hm => ?_, fun hl hm => ?_, fun hl hm => ?_, fun hl hm => ?_⟩
  · rwa [if_pos hl, if_pos hm] at hdone
  · rwa [if_neg (Nat.not_lt.2 hl), if_pos hm] at hdone
  · rwa [if_pos hl, if_neg (Nat.not_lt.2 hm)] at hdone
  · rwa [if_neg (Nat.not_lt.2 hl), if_neg (Nat.not_lt.2 hm)] at hdone

/-- Settles O30: each form is the `lastForm` of the length it encodes. -/
theorem terminalFormsComplete : Obligations.TerminalFormsComplete := by
  intro P s lits x hready
  have hdone := exec_lastForm_completes x hready
  unfold lastForm at hdone
  refine ⟨fun hl => ?_, fun hl => ?_⟩
  · rwa [if_pos hl] at hdone
  · rwa [if_neg (Nat.not_lt.2 hl)] at hdone

/-! ## The end of the input -/

/-- Settles O31: the top of the loop ends the command with the bytes produced. -/
theorem unknownSizeEndsAtReadLimit : Obligations.UnknownSizeEndsAtReadLimit := by
  intro P s hphase hlim
  have hunknown : s.isUnknown = true := by rw [Block.isUnknown, hphase]; rfl
  have hstep : step ⟨P, s⟩ = .next ⟨P, s.decodeFinish⟩ := by
    rw [step_mk, Block.step_running (by rw [hphase]; decide)]
    exact decoderStep_next.2 (.inl (Block.fetch_ended.2 (.inl ⟨hunknown, hlim, rfl⟩)))
  have hvalue : s.finishValue = s.work.op := by rw [Block.finishValue, if_pos hunknown]
  exact ⟨_, hstep, ⟨congrArg (BitVec.ofNat P.xlen) hvalue, rfl, rfl,
    ⟨rfl, rfl, rfl, rfl, rfl, rfl, rfl⟩, s.read_scratchDst _ _⟩, rfl, rfl⟩

/-! ## The pattern of a match -/

/-- Where each of `m` values equals the one `offset` before it, they repeat the `offset` values before
them. -/
theorem eq_pattern_of_eq_back {α : Type} {f : Nat → α} {op offset m : Nat} (hzero : 0 < offset)
    (hoffset : offset ≤ op) (hback : ∀ k, k < m → f (op + k) = f (op + k - offset)) {k : Nat}
    (hk : k < m) : f (op + k) = f (op - offset + k % offset) := by
  induction k using Nat.strongRecOn with
  | ind k ih =>
    rw [hback k hk]
    obtain hlt | hge := Nat.lt_or_ge k offset
    · rw [Nat.mod_eq_of_lt hlt]
      congr 1
      omega
    · rw [Nat.add_sub_assoc hge, Nat.mod_eq_sub_mod hge]
      exact ih (k - offset) (by omega) (by omega)

/-- Settles O37: each byte is the one `offset` before it, and the bytes before the cursor stay. -/
theorem matchCopyRepeatsPattern : Obligations.MatchCopyRepeatsPattern := by
  intro P s hzero hoffset hoend hsize hwritten
  obtain ⟨mem, hgo, hback, hframe⟩ := copyMatch_completes hzero hoffset hoend hsize fun i hi => by
    obtain ⟨b, hb⟩ := Option.isSome_iff_exists.1 (hwritten i hi)
    rw [(Block.dstByte_eq_some.1 hb).2, Option.isSome_some]
  refine ⟨_, hgo, rfl, fun k hk => ?_, hframe⟩
  have hmod : k % s.work.offset < s.work.offset := Nat.mod_lt _ (Nat.pos_of_ne_zero hzero)
  have hpattern := eq_pattern_of_eq_back (f := fun i => mem.read (s.dst.base + i))
    (Nat.pos_of_ne_zero hzero) hoffset hback hk
  calc _
    _ = mem.read (s.dst.base + (s.work.op + k)) :=
      Block.dstByte_of_lt (s := s) (advanceOut _ { s with mem := mem }) rfl
        ((Nat.add_lt_add_left hk _).trans_le hsize)
    _ = _ := hpattern
    _ = s.mem.read _ := hframe _ (.inl (by omega))
    _ = _ := (Block.dstByte_of_lt s rfl (by omega)).symm

/-! ## Offset 0 -/

/-- Free values in DST are the next draws, in order. -/
theorem Block.read_freeDst (s : Block P) (i : Nat) {k j : Nat} (hj : j < k) :
    (s.freeDst i k).mem.read (s.dst.base + (i + j)) = some (Config.freeByte (s.freeCount + j)) := by
  rw [Block.freeDst_mem, ← Nat.add_assoc,
    Memory.read_writeBytes _ _ _ _ (by rwa [freeBytes_length]), freeBytes_getElem? _ _ _ hj]

theorem Block.read_freeDst_outside (s : Block P) {i k a : Nat} (ha : s.outsideDst i (i + k) a) :
    (s.freeDst i k).mem.read a = s.mem.read a := by
  unfold Block.outsideDst at ha
  rw [Block.freeDst_mem]
  exact Memory.read_writeBytes_outside _ _ _ _ (by rw [freeBytes_length]; omega)

/-- A match with offset 0 goes through where DST takes it, and its bytes become free values. -/
theorem copyMatch_of_offset_zero (hzero : s.work.offset = 0)
    (hoend : s.work.op + s.work.matchLen ≤ s.work.oend)
    (hsize : s.work.op + s.work.matchLen ≤ s.dst.size) :
    ∃ m, copyMatch s = .go { advanceOut s.work.matchLen s with
          mem := m
          freeCount := s.freeCount + s.work.matchLen } ∧
      (∀ k, k < s.work.matchLen → m.read (s.dst.base + (s.work.op + k)) =
        some (Config.freeByte (s.freeCount + k))) ∧
      ∀ a, s.outsideDst s.work.op (s.work.op + s.work.matchLen) a → m.read a = s.mem.read a :=
  ⟨_, copyMatch_go.2 ⟨hoend, by simp [Block.roomInDst, hsize], .inl ⟨hzero, rfl⟩⟩,
    fun _ hk => s.read_freeDst _ hk, fun _ ha => s.read_freeDst_outside ha⟩

/-- The block behind the offset and the match length of a sequence, which are read and set. -/
def Block.afterFields (s : Block P) (offset code : Nat) : Block P :=
  setMatchLen code
    (advance (litext code) (advance 2 { s with work := { s.work with offset := offset } }))

/-- The two fields behind the literal run, for any offset within the output. -/
theorem matchFields_go {offset code : Nat} (hlt : offset < 65536)
    (hstream : s.streamAt s.work.ip (le16 offset ++ extOf code)) (hoffset : offset ≤ s.work.op) :
    (readOffset s).andThen (readMatchLen code) = .go (s.afterFields offset code) := by
  obtain ⟨hle, hext⟩ := Block.streamAt_append.1 hstream
  obtain ⟨rest, hunread⟩ := Block.unread_of_streamAt
    (s := advance 2 { s with work := { s.work with offset := offset } })
    (Block.streamAt_congr hext rfl fun _ _ => rfl)
  exact Flow.andThen_eq_go.2 ⟨_, readOffset_completes hlt hle hoffset, readMatchLen_go hunread⟩

/-- The block behind a match with offset 0 of a sequence whose literals are written, with the store
`mem`. -/
def Block.afterFreeMatch (s : Block P) (code : Nat) (mem : Memory) : Block P :=
  { s.afterMatch 0 code mem with freeCount := s.freeCount + (code + 4) }

/-- A match with offset 0 goes through where DST takes it, and its bytes become free values. -/
theorem freeMatchSteps_go {code : Nat} (hstream : s.streamAt s.work.ip (le16 0 ++ extOf code))
    (hoend : s.work.op + (code + 4) ≤ s.work.oend) (hsize : s.work.op + (code + 4) ≤ s.dst.size) :
    ∃ mem, ((readOffset s).andThen (readMatchLen code)).andThen copyMatch =
        .go (s.afterFreeMatch code mem) ∧
      (∀ k, k < code + 4 → mem.read (s.dst.base + (s.work.op + k)) =
        some (Config.freeByte (s.freeCount + k))) ∧
      ∀ a, s.outsideDst s.work.op (s.work.op + (code + 4)) a → mem.read a = s.mem.read a := by
  obtain ⟨mem, hcopy, hbytes, hframe⟩ :=
    copyMatch_of_offset_zero (s := s.afterFields 0 code) rfl hoend hsize
  refine ⟨mem, ?_, hbytes, hframe⟩
  rw [matchFields_go (by decide) hstream (Nat.zero_le _), Flow.go_andThen, hcopy]
  rfl

/-- A sequence's steps are those of its literal run, then those of its match. -/
theorem seqSteps_eq_andThen (readLit readMatch : Block P → Flow P) (s : Block P) :
    seqSteps readLit readMatch s = ((readLit s).andThen copyLiterals).andThen fun u =>
      ((readOffset u).andThen readMatch).andThen copyMatch := by
  unfold seqSteps
  cases (readLit s).andThen copyLiterals <;> rfl

/-- All steps of a sequence with offset 0 behind its control byte. -/
theorem freeSeqSteps_go {lits : List Byte} {code : Nat} (tok : Byte)
    (hstream : s.streamAt (s.work.ip + 1)
      ((extOf lits.length ++ lits) ++ (le16 0 ++ extOf code)))
    (htakes : s.dstTakes (lits.length + (code + 4))) :
    ∃ mem, seqSteps (readLitLen lits.length) (readMatchLen code) (takeToken tok s) =
        .go ((s.afterLiterals tok lits.length mem).afterFreeMatch code mem) ∧
      (∀ k, k < lits.length → mem.read (s.dst.base + (s.work.op + k)) = lits[k]?) ∧
      (∀ k, k < code + 4 → mem.read (s.dst.base + (s.work.op + lits.length + k)) =
        some (Config.freeByte (s.freeCount + k))) ∧
      ∀ a, s.outsideDst s.work.op (s.work.op + lits.length + (code + 4)) a →
        mem.read a = s.mem.read a := by
  obtain ⟨hoend, hsize, hdisj⟩ := htakes
  obtain ⟨hrun, hmatch⟩ := Block.streamAt_append.1 hstream
  rw [List.length_append, extOf_length, ← Nat.add_assoc] at hmatch
  obtain ⟨mem₁, hlits, hbytes₁, hframe₁⟩ := literalSteps_go tok hrun ⟨by omega, by omega, hdisj⟩
  have hsrc (j : Nat) (hj : j < s.work.ilim) :
      (s.afterLiterals tok lits.length mem₁).srcByte j = s.srcByte j :=
    Block.srcByte_of_outsideDst (t := s.afterLiterals tok lits.length mem₁)
      (hi := s.work.op + lits.length) hdisj (by omega) (by omega) rfl hframe₁ hj
  have hoend' : s.work.op + lits.length + (code + 4) ≤ s.work.oend := by omega
  have hsize' : s.work.op + lits.length + (code + 4) ≤ s.dst.size := by omega
  obtain ⟨mem, hmatch, hbytes, hframe⟩ := freeMatchSteps_go
    (s := s.afterLiterals tok lits.length mem₁) (Block.streamAt_congr hmatch rfl hsrc) hoend' hsize'
  refine ⟨mem, ?_, fun k hk => ?_, hbytes, fun a ha => ?_⟩
  · rw [seqSteps_eq_andThen, hlits, Flow.go_andThen, hmatch]
    rfl
  · rw [← hbytes₁ k hk]
    exact hframe _ (.inl (Nat.add_lt_add_left (Nat.add_lt_add_left hk _) _))
  · unfold Block.outsideDst at ha
    have hbehind : a < s.dst.base + (s.work.op + lits.length) ∨
        s.dst.base + (s.work.op + lits.length + (code + 4)) ≤ a := by omega
    exact (hframe a hbehind).trans (hframe₁ a (by unfold Block.outsideDst; omega))

/-- Settles O29: the fields are read as for any offset, and the match becomes free values. -/
theorem offsetZeroLeavesFreeBytes : Obligations.OffsetZeroLeavesFreeBytes := by
  intro P s lits m hready
  obtain ⟨hm, -, hstream, htakes, -, -⟩ := hready
  obtain ⟨code, rfl⟩ := Nat.exists_eq_add_of_le' hm
  rw [seqBytes, show code + 4 - Config.minMatch = code from rfl, Block.streamHas_iff] at hstream
  have hfields : s.streamAt (s.work.ip + 1)
      ((extOf lits.length ++ lits) ++ (le16 0 ++ extOf code)) :=
    Block.streamAt_cons (b := controlByte lits.length code) (by simpa using hstream)
  obtain ⟨mem, hgo, hlits, hbytes, hframe⟩ :=
    freeSeqSteps_go (controlByte lits.length code) hfields htakes
  have hsize := htakes.2.1
  have hdst {i : Nat} (hi : i < s.work.op + lits.length + (code + 4)) :=
    Block.dstByte_of_lt ((s.afterLiterals (controlByte lits.length code) lits.length
      mem).afterFreeMatch code mem) (s := s) rfl (show i < s.dst.size by omega)
  refine ⟨_, (exec_seqForm _ code s).trans (congrArg Flow.outcome hgo), ?_, fun k hk => ?_,
    fun k hk => ?_, hframe⟩
  · have hip : s.work.ip + (1 + litext lits.length + lits.length + 2 + matchext (code + 4)) =
        s.work.ip + 1 + litext lits.length + lits.length + 2 + litext code := by
      rw [← litext_sub_minMatch, show code + 4 - Config.minMatch = code from rfl]
      omega
    rw [Work.afterSequence, hip]
    rfl
  · rw [hdst (by omega)]
    exact hlits k hk
  · rw [hdst (by omega)]
    exact hbytes k hk

end Sys2Proof.Machine
end

