-- ==== Sys2Proof/Proofs/DecoderListing.lean ====
section
/-! The decoder listing (`44_decoder.md` R245, R246) by the parts of one pass of its loop: the length
of the literal run, the run, and the match behind it. -/

namespace Sys2Proof.Machine

/-! ## Lengths -/

/-- A short length is its nibble, which takes no byte. -/
theorem listingLength_of_lt {nib : Nat} (h : nib < 15) (bs : List Byte) (ip : Nat) :
    listingLength nib bs ip = some (nib, ip) := if_pos h

/-- A saturated nibble takes the extension behind it. -/
theorem listingLength_of_le {nib : Nat} (h : 15 ≤ nib) (bs : List Byte) (ip : Nat) :
    listingLength nib bs ip = (extSum (bs.drop ip)).map fun (v, k) => (15 + v, ip + k) := by
  rw [listingLength, if_neg (Nat.not_lt.2 h)]
  cases extSum (bs.drop ip) <;> rfl

theorem listingLength_eq_none {nib ip : Nat} {bs : List Byte} :
    listingLength nib bs ip = none ↔ 15 ≤ nib ∧ extSum (bs.drop ip) = none := by
  obtain h | h := Nat.lt_or_ge nib 15
  · simp [listingLength_of_lt h, Nat.not_le.2 h]
  · simp [listingLength_of_le h, h]

theorem listingLength_eq_some {nib ip len ip' : Nat} {bs : List Byte} :
    listingLength nib bs ip = some (len, ip') ↔
      (nib < 15 ∧ len = nib ∧ ip' = ip) ∨
        (15 ≤ nib ∧ ∃ v k, extSum (bs.drop ip) = some (v, k) ∧ len = 15 + v ∧ ip' = ip + k) := by
  obtain h | h := Nat.lt_or_ge nib 15
  · simp [listingLength_of_lt h, Nat.not_le.2 h, h, eq_comm]
  · simp [listingLength_of_le h, Nat.not_lt.2 h, h, eq_comm]

/-- A length is read from bytes that are there. -/
theorem listingLength_bounds {nib ip len ip' : Nat} {bs : List Byte}
    (h : listingLength nib bs ip = some (len, ip')) (hip : ip ≤ bs.length) :
    ip ≤ ip' ∧ ip' ≤ bs.length := by
  obtain ⟨-, -, rfl⟩ | ⟨-, v, k, hext, -, rfl⟩ := listingLength_eq_some.1 h
  · exact ⟨Nat.le_refl _, hip⟩
  · have hk := extSum_count_le hext
    rw [List.length_drop] at hk
    omega

/-! ## One pass of the loop -/

/-- What a pass comes to behind its literal run, at index `ip` with the output `out`; `nib` is the low
nibble of the control byte. -/
def listingMatch (margin : Nat) (unknown : Bool) (bs : List Byte) (oend fuel nib ip : Nat)
    (out : List (Option Byte)) : ListingEnd :=
  match bs[ip]?, bs[ip + 1]? with
  | some lo, some hi =>
    if out.length < lo.toNat + 256 * hi.toNat then ⟨some .backReferenceUnderflow, ip + 2, out⟩
    else
      match listingLength nib bs (ip + 2) with
      | none => ⟨some .sourceExhausted, bs.length, out⟩
      | some (code, ip) =>
        if oend < out.length + (code + 4) then ⟨some .outputOverflow, ip, out⟩
        else listingLoop margin unknown bs oend fuel ip
          (listingCopy (code + 4) (lo.toNat + 256 * hi.toNat) out)
  | _, _ => ⟨some .sourceExhausted, ip, out⟩

/-- What a pass comes to with a literal run of `len` bytes at index `ip`. -/
def listingRun (margin : Nat) (unknown : Bool) (bs : List Byte) (oend fuel nib len ip : Nat)
    (out : List (Option Byte)) : ListingEnd :=
  if oend < out.length + len then ⟨some .outputOverflow, ip, out⟩
  else if bs.length < ip + len then ⟨some .sourceExhausted, ip, out⟩
  else if oend < out.length + len + margin ∨ (unknown = true ∧ ip + len = bs.length) then
    ⟨none, if unknown then out.length + len else ip + len,
      out ++ ((bs.drop ip).take len).map some⟩
  else listingMatch margin unknown bs oend fuel nib (ip + len)
    (out ++ ((bs.drop ip).take len).map some)

section Pass

variable {margin oend fuel ip : Nat} {unknown : Bool} {bs : List Byte} {out : List (Option Byte)}

theorem listingLoop_of_le (h : bs.length ≤ ip) :
    listingLoop margin unknown bs oend (fuel + 1) ip out =
      if unknown then ⟨none, out.length, out⟩ else ⟨some .sourceExhausted, ip, out⟩ := by
  rw [listingLoop]
  cases unknown <;> simp [h]

/-- The literal length is cut off by the end of the stream. -/
theorem listingLoop_of_length_none {t : Byte} (ht : bs[ip]? = some t)
    (hlen : listingLength (t.toNat / 16) bs (ip + 1) = none) :
    listingLoop margin unknown bs oend (fuel + 1) ip out =
      ⟨some .sourceExhausted, bs.length, out⟩ := by
  have hip : ¬ bs.length ≤ ip := Nat.not_le.2 (List.getElem?_eq_some_iff.1 ht).1
  rw [listingLoop]
  simp [hip, ht, hlen]

theorem length_append_take_drop {len : Nat} (h : ip + len ≤ bs.length) :
    (out ++ ((bs.drop ip).take len).map some).length = out.length + len := by
  rw [List.length_append, List.length_map, List.length_take, List.length_drop]
  omega

theorem listingLoop_of_length_some {t : Byte} {len ip' : Nat} (ht : bs[ip]? = some t)
    (hlen : listingLength (t.toNat / 16) bs (ip + 1) = some (len, ip')) :
    listingLoop margin unknown bs oend (fuel + 1) ip out =
      listingRun margin unknown bs oend fuel (t.toNat % 16) len ip' out := by
  have hip : ¬ bs.length ≤ ip := Nat.not_le.2 (List.getElem?_eq_some_iff.1 ht).1
  rw [listingLoop, listingRun]
  simp only [hip, ht, hlen, decide_false, Bool.and_false, Bool.false_eq_true, if_false]
  by_cases hroom : oend < out.length + len
  · simp [hroom, show oend < out.length + len + margin by omega]
  by_cases hahead : bs.length < ip' + len
  · simp [hroom, hahead]
  simp only [hroom, hahead, decide_false, Bool.and_false, Bool.false_eq_true, if_false]
  by_cases hmargin : oend < out.length + len + margin
  · simp [hmargin]
  by_cases hend : unknown = true ∧ ip' + len = bs.length
  · simp [hmargin, hend]
  · have hend' : (unknown && (ip' + len == bs.length)) = false := by simpa using hend
    rw [if_neg hmargin, hend', if_neg Bool.false_ne_true, if_neg (not_or.2 ⟨hmargin, hend⟩),
      ← length_append_take_drop (Nat.not_lt.1 hahead)]
    rfl

/-! ## The match of a pass -/

theorem listingMatch_of_short {nib : Nat} (h : bs.length < ip + 2) :
    listingMatch margin unknown bs oend fuel nib ip out = ⟨some .sourceExhausted, ip, out⟩ := by
  have hhi : bs[ip + 1]? = none := List.getElem?_eq_none (by omega)
  rw [listingMatch, hhi]
  cases bs[ip]? <;> rfl

variable {nib code offset ip' : Nat} {lo hi : Byte}

theorem listingMatch_of_underflow (hlo : bs[ip]? = some lo) (hhi : bs[ip + 1]? = some hi)
    (hoffset : out.length < lo.toNat + 256 * hi.toNat) :
    listingMatch margin unknown bs oend fuel nib ip out =
      ⟨some .backReferenceUnderflow, ip + 2, out⟩ := by
  simp only [listingMatch, hlo, hhi, if_pos hoffset]

theorem listingMatch_of_length_none (hlo : bs[ip]? = some lo) (hhi : bs[ip + 1]? = some hi)
    (hoffset : ¬ out.length < lo.toNat + 256 * hi.toNat)
    (hlen : listingLength nib bs (ip + 2) = none) :
    listingMatch margin unknown bs oend fuel nib ip out =
      ⟨some .sourceExhausted, bs.length, out⟩ := by
  simp only [listingMatch, hlo, hhi, if_neg hoffset, hlen]

theorem listingMatch_of_length_some (hlo : bs[ip]? = some lo) (hhi : bs[ip + 1]? = some hi)
    (hoffset : ¬ out.length < lo.toNat + 256 * hi.toNat)
    (hlen : listingLength nib bs (ip + 2) = some (code, ip')) :
    listingMatch margin unknown bs oend fuel nib ip out =
      if oend < out.length + (code + 4) then ⟨some .outputOverflow, ip', out⟩
      else listingLoop margin unknown bs oend fuel ip'
        (listingCopy (code + 4) (lo.toNat + 256 * hi.toNat) out) := by
  simp only [listingMatch, hlo, hhi, if_neg hoffset, hlen]

end Pass

/-! ## The copy of a match -/

theorem listingCopy_length (k offset : Nat) (out : List (Option Byte)) :
    (listingCopy k offset out).length = out.length + k := by
  induction k generalizing out with
  | zero => rfl
  | succ k ih =>
    rw [listingCopy, ih, List.length_append, List.length_singleton, Nat.add_assoc, Nat.add_comm 1]

theorem getElem?_listingCopy_of_lt (k offset : Nat) {out : List (Option Byte)} {i : Nat}
    (hi : i < out.length) : (listingCopy k offset out)[i]? = out[i]? := by
  induction k generalizing out with
  | zero => rfl
  | succ k ih =>
    rw [listingCopy, ih (by rw [List.length_append]; omega), List.getElem?_append_left hi]

/-- Each byte that a copy adds is the byte `offset` before it, or is left open with offset 0. -/
theorem getElem?_listingCopy {k offset : Nat} {out : List (Option Byte)}
    (hoffset : offset ≤ out.length) {j : Nat} (hj : j < k) :
    (listingCopy k offset out)[out.length + j]? =
      if offset = 0 then some none else (listingCopy k offset out)[out.length + j - offset]? := by
  induction k generalizing out j with
  | zero => exact absurd hj (Nat.not_lt_zero j)
  | succ k ih =>
    rw [listingCopy]
    generalize hx : (if offset = 0 then none else (out[out.length - offset]?).getD none) = x
    have hlen : (out ++ [x]).length = out.length + 1 := by simp
    cases j with
    | zero =>
      rw [Nat.add_zero, getElem?_listingCopy_of_lt _ _ (by omega), List.getElem?_concat_length]
      split
      next hzero => rw [← hx, if_pos hzero]
      next hzero =>
        have hlt : out.length - offset < out.length := by omega
        rw [getElem?_listingCopy_of_lt _ _ (by omega), List.getElem?_append_left hlt, ← hx,
          if_neg hzero, List.getElem?_eq_getElem hlt, Option.getD_some]
    | succ j =>
      have hrest := ih (out := out ++ [x]) (by omega) (Nat.lt_of_succ_lt_succ hj)
      rwa [hlen, Nat.add_assoc, Nat.add_comm 1 j] at hrest

end Sys2Proof.Machine
end

