-- ==== Sys2Proof/Proofs/DecoderRefinement.lean ====
section
/-! A running decoder follows its listing (`44_decoder.md` R245, R246): where the loop of the listing
stands at index `ip` with the output `out`, the block mirrors it, and the step of the block does what
the pass of the loop does. Each part of a pass has one lemma. -/

namespace Sys2Proof.Machine

variable {P : Config.Params}

/-! ## The control byte -/

theorem tokenLL_toNat (t : Byte) : (tokenLL t).toNat = t.toNat / 16 := by
  have ht : t.toNat / 16 < 16 := Nat.div_lt_of_lt_mul t.isLt
  rw [tokenLL, BitVec.extractLsb'_toNat, Nat.shiftRight_eq_div_pow]
  exact Nat.mod_eq_of_lt ht

theorem shortNibble_tokenLL (t : Byte) : shortNibble (tokenLL t) = decide (t.toNat / 16 < 15) := by
  have ht : t.toNat / 16 < 16 := Nat.div_lt_of_lt_mul t.isLt
  have hsaturated : tokenLL t = 15 ↔ t.toNat / 16 = 15 := by
    rw [← BitVec.toNat_inj, tokenLL_toNat]
    rfl
  rw [shortNibble, Bool.eq_iff_iff, bne_iff_ne, decide_eq_true_iff, Ne, hsaturated]
  omega

/-- A control byte is the one of its two nibbles. -/
theorem controlByte_nibbles (t : Byte) : controlByte (t.toNat / 16) (t.toNat % 16) = t := by
  have ht := t.isLt
  refine BitVec.eq_of_toNat_eq ?_
  rw [controlByte, nibble, nibble, BitVec.toNat_ofNat]
  simp only [Config.nibbleMax]
  omega

/-- A literal length that is cut off is read as SEQ (log 6). -/
theorem terminalAt_of_length_none {c : Context} {t : Byte} {bs : List Byte} {ip : Nat}
    (h : listingLength (t.toNat / 16) bs ip = none) : terminalAt P c t (bs.drop ip) = false := by
  obtain ⟨hnib, hext⟩ := listingLength_eq_none.1 h
  rw [terminalAt, shortNibble_tokenLL, decide_eq_false (Nat.not_lt.2 hnib), hext]
  rfl

/-- The look-ahead of the machine finds the length that the listing reads. -/
theorem terminalAt_of_length_some {c : Context} {t : Byte} {bs : List Byte} {ip len ip' : Nat}
    (h : listingLength (t.toNat / 16) bs ip = some (len, ip')) :
    terminalAt P c t (bs.drop ip) = takenAsTerminal P c len (ip' - ip) := by
  rw [terminalAt, shortNibble_tokenLL, tokenLL_toNat]
  obtain ⟨hnib, rfl, rfl⟩ | ⟨hnib, v, k, hext, rfl, rfl⟩ := listingLength_eq_some.1 h
  · rw [decide_eq_true hnib, if_pos rfl, Nat.sub_self]
  · rw [decide_eq_false (Nat.not_lt.2 hnib), if_neg Bool.false_ne_true, hext, Nat.add_sub_cancel_left]
    rfl

theorem exec_sequenceForm_false (t : Byte) (s : Block P) :
    exec (sequenceForm false t) ⟨P, s⟩ =
      (seqSteps (readLitLen (t.toNat / 16)) (readMatchLen (t.toNat % 16))
        (takeToken t s)).outcome := by
  have hform := sequenceForm_false_controlByte (t.toNat / 16) (t.toNat % 16)
  have hexec := exec_seqForm (t.toNat / 16) (t.toNat % 16) s
  rw [controlByte_nibbles] at hform hexec
  rw [hform]
  exact hexec

theorem exec_sequenceForm_true (t : Byte) (s : Block P) :
    ∃ tok, exec (sequenceForm true t) ⟨P, s⟩ =
      ((readLitLen (t.toNat / 16) (takeToken tok s)).andThen copyLiterals).terminal := by
  have hform := sequenceForm_true_controlByte (t.toNat / 16) (t.toNat % 16)
  rw [controlByte_nibbles] at hform
  rw [hform]
  exact exec_lastForm _ _ s

/-! ## Blocks that mirror the listing -/

/-- The byte of DST at index `k` is there, and it is what the listing has at that index, if the listing
determines it. -/
def Block.holdsAt (s : Block P) (k : Nat) (x : Option (Option Byte)) : Prop :=
  ∃ v, s.dstByte k = some v ∧ (x = some none ∨ x = some (some v))

/-- DST holds the output of a listing. -/
def Block.holds (s : Block P) (out : List (Option Byte)) : Prop :=
  ∀ k, k < out.length → s.holdsAt k out[k]?

/-- A decoder right after DEC_START on the stream `bs`, under the launch premises. -/
structure Block.Launched (b : Block P) (bs : List Byte) : Prop where
  op : b.work.op = 0
  ip : b.work.ip = 0
  ilim : b.work.ilim = bs.length
  stream : b.srcBytes bs.length 0 = bs
  mapped : b.work.oend ≤ b.dst.size
  apart : b.disjoint b.work.ilim b.work.oend
  running : b.phase ≠ .idle

/-- The decoder that was launched in `b` is in `s` where the listing stands at index `ip` with the
output `out`. -/
structure Block.Mirrors (b : Block P) (ip : Nat) (out : List (Option Byte)) (s : Block P) : Prop where
  frame : b.Frame s
  ip : s.work.ip = ip
  op : s.work.op = out.length
  holds : s.holds out

section Mirror

variable {b s : Block P} {bs : List Byte} {ip : Nat} {out : List (Option Byte)}

theorem Block.Launched.mirrors (h : b.Launched bs) : b.Mirrors 0 [] b where
  frame := .refl b
  ip := h.ip
  op := h.op
  holds _ hk := absurd hk (Nat.not_lt_zero _)

/-- A change of working registers that leaves the output cursor and the bounds alone. -/
theorem Block.Mirrors.of_work (h : b.Mirrors ip out s) (w : Work) (hilim : w.ilim = s.work.ilim)
    (hoend : w.oend = s.work.oend) (hop : w.op = s.work.op) :
    b.Mirrors w.ip out { s with work := w } where
  frame := h.frame.trans (.of_work s w hilim hoend (Nat.le_of_eq hop.symm))
  ip := rfl
  op := hop.trans h.op
  holds := h.holds

theorem Block.Mirrors.token_taken (h : b.Mirrors ip out s) (t : Byte) :
    b.Mirrors (ip + 1) out (takeToken t s) :=
  h.ip ▸ h.of_work { s.work with token := t, ip := s.work.ip + 1 } rfl rfl rfl

theorem Block.Mirrors.advanced (h : b.Mirrors ip out s) (k : Nat) :
    b.Mirrors (ip + k) out (advance k s) :=
  h.ip ▸ h.of_work { s.work with ip := s.work.ip + k } rfl rfl rfl

theorem Block.Mirrors.with_litLen (h : b.Mirrors ip out s) (v : Nat) :
    b.Mirrors ip out (setLitLen v s) :=
  h.ip ▸ h.of_work { s.work with litLen := v } rfl rfl rfl

theorem Block.Mirrors.with_matchLen (h : b.Mirrors ip out s) (v : Nat) :
    b.Mirrors ip out (setMatchLen v s) :=
  h.ip ▸ h.of_work { s.work with matchLen := v + Config.minMatch } rfl rfl rfl

theorem Block.Mirrors.with_offset (h : b.Mirrors ip out s) (v : Nat) :
    b.Mirrors ip out { s with work := { s.work with offset := v } } :=
  h.ip ▸ h.of_work { s.work with offset := v } rfl rfl rfl

/-! ## The stream -/

variable (hb : b.Launched bs)
include hb

theorem Block.Mirrors.ilim (h : b.Mirrors ip out s) : s.work.ilim = bs.length :=
  h.frame.ilim.trans hb.ilim

theorem Block.Mirrors.running (h : b.Mirrors ip out s) : s.phase ≠ .idle := by
  rw [h.frame.phase]
  exact hb.running

/-- The stream is apart from what the decoder writes. -/
theorem Block.Mirrors.srcByte (h : b.Mirrors ip out s) {j : Nat} (hj : j < bs.length) :
    s.srcByte j = bs[j]? := by
  have hread := Block.srcBytes_getElem? b bs.length 0 j (by rwa [hb.stream])
  rw [hb.stream, Nat.zero_add] at hread
  rw [hread]
  refine Block.srcByte_of_outsideDst (hi := min b.work.oend b.dst.size) hb.apart
    (Nat.min_le_left _ _) (Nat.min_le_right _ _) (Block.src_of_sameSetup h.frame.setup) h.frame.read ?_
  rwa [hb.ilim]

theorem Block.Mirrors.srcBytes (h : b.Mirrors ip out s) {k : Nat} (hk : ip + k ≤ bs.length) :
    s.srcBytes k ip = (bs.drop ip).take k := by
  have hlen : ((bs.drop ip).take k).length = k := by
    rw [List.length_take, List.length_drop]
    omega
  have hbytes := Block.srcBytes_eq_of_getElem? (s := s) (bs := (bs.drop ip).take k) (i := ip)
    fun j hj => by
      rw [hlen] at hj
      rw [h.srcByte hb (by omega), List.getElem?_take_of_lt hj, List.getElem?_drop]
  rwa [hlen] at hbytes

theorem Block.Mirrors.unread (h : b.Mirrors ip out s) : s.unread = bs.drop ip := by
  rw [Block.unread, h.ilim hb, h.ip]
  obtain hip | hip := Nat.le_total ip bs.length
  · rw [h.srcBytes hb (by omega), List.take_of_length_le (by rw [List.length_drop])]
  · rw [Nat.sub_eq_zero_of_le hip, List.drop_eq_nil_of_le hip]
    rfl

/-! ## Lengths -/

/-- DEC_EXT finds what the listing finds behind a saturated nibble. -/
theorem Block.Mirrors.decExt_raised (h : b.Mirrors ip out s) (hip : ip ≤ bs.length)
    (hext : extSum (bs.drop ip) = none) (set : Nat → Block P → Block P) :
    ∃ u, decExt set s = .raised .sourceExhausted u ∧ b.Mirrors bs.length out u := by
  have hunread := h.unread hb
  refine ⟨_, Machine.decExt_raised.2 ⟨by rwa [hunread], ?_, rfl, rfl⟩, ?_⟩
  · rw [hunread, h.ilim hb, h.ip, List.length_drop]
  · have hend := h.advanced s.unread.length
    have hlen : ip + s.unread.length = bs.length := by
      rw [hunread, List.length_drop, Nat.add_sub_of_le hip]
    rwa [hlen] at hend

theorem Block.Mirrors.readLitLen_raised {nib : Nat} (h : b.Mirrors ip out s) (hip : ip ≤ bs.length)
    (hlen : listingLength nib bs ip = none) :
    ∃ u, readLitLen nib s = .raised .sourceExhausted u ∧ b.Mirrors bs.length out u := by
  obtain ⟨hnib, hext⟩ := listingLength_eq_none.1 hlen
  rw [readLitLen, if_neg (Nat.not_lt.2 hnib)]
  exact (h.with_litLen Config.nibbleMax).decExt_raised hb hip hext _

theorem Block.Mirrors.readLitLen_go {nib len ip' : Nat} (h : b.Mirrors ip out s)
    (hlen : listingLength nib bs ip = some (len, ip')) :
    ∃ u, readLitLen nib s = .go u ∧ u.work.litLen = len ∧ b.Mirrors ip' out u := by
  obtain ⟨hnib, rfl, rfl⟩ | ⟨hnib, v, k, hext, rfl, rfl⟩ := listingLength_eq_some.1 hlen
  · have hmod : len % 16 = len := Nat.mod_eq_of_lt (by omega)
    refine ⟨setLitLen len s, ?_, rfl, h.with_litLen _⟩
    rw [readLitLen, if_pos hnib, litShort, BitVec.toNat_ofNat, hmod]
  · have hset := h.with_litLen Config.nibbleMax
    refine ⟨_, ?_, rfl, (hset.advanced k).with_litLen (15 + v)⟩
    rw [readLitLen, if_neg (Nat.not_lt.2 hnib)]
    exact decExt_go.2 ⟨v, k, by rwa [hset.unread hb], rfl⟩

theorem Block.Mirrors.readMatchLen_raised {nib : Nat} (h : b.Mirrors ip out s)
    (hip : ip ≤ bs.length) (hlen : listingLength nib bs ip = none) :
    ∃ u, readMatchLen nib s = .raised .sourceExhausted u ∧ b.Mirrors bs.length out u := by
  obtain ⟨hnib, hext⟩ := listingLength_eq_none.1 hlen
  rw [readMatchLen, if_neg (Nat.not_lt.2 hnib)]
  exact h.decExt_raised hb hip hext _

theorem Block.Mirrors.readMatchLen_go {nib code ip' : Nat} (h : b.Mirrors ip out s)
    (hlen : listingLength nib bs ip = some (code, ip')) :
    ∃ u, readMatchLen nib s = .go u ∧ u.work.matchLen = code + 4 ∧
      u.work.offset = s.work.offset ∧ b.Mirrors ip' out u := by
  obtain ⟨hnib, rfl, rfl⟩ | ⟨hnib, v, k, hext, rfl, rfl⟩ := listingLength_eq_some.1 hlen
  · have hmod : code % 16 = code := Nat.mod_eq_of_lt (by omega)
    refine ⟨setMatchLen code s, ?_, rfl, rfl, h.with_matchLen _⟩
    rw [readMatchLen, if_pos hnib, matchShort, BitVec.toNat_ofNat, hmod]
  · refine ⟨setMatchLen (15 + v) (advance k s), ?_, rfl, rfl, (h.advanced k).with_matchLen (15 + v)⟩
    rw [readMatchLen, if_neg (Nat.not_lt.2 hnib)]
    exact decExt_go.2 ⟨v, k, by rwa [h.unread hb], rfl⟩

/-! ## The literal run -/

theorem Block.Mirrors.dstTakes (h : b.Mirrors ip out s) {k : Nat}
    (hk : out.length + k ≤ b.work.oend) : s.dstTakes k := by
  have hmapped := hb.mapped
  unfold Block.dstTakes Block.disjoint
  rw [h.op, h.frame.oend, h.frame.ilim, h.frame.dst, Block.src_of_sameSetup h.frame.setup]
  exact ⟨hk, hk.trans hmapped, hb.apart⟩

omit hb in
/-- Steps that change DST from the cursor on only keep the output before it. -/
theorem Block.Mirrors.holdsAt_of_lt {t : Block P} {hi k : Nat} (h : b.Mirrors ip out s)
    (hdst : t.dst = s.dst)
    (hframe : ∀ a, s.outsideDst s.work.op hi a → t.mem.read a = s.mem.read a)
    (hk : k < out.length) : t.holdsAt k out[k]? := by
  obtain ⟨v, hv, hx⟩ := h.holds k hk
  have hsame := Block.dstByte_congr hdst (hframe (s.dst.base + k) (.inl (by rw [h.op]; omega)))
  exact ⟨v, hsame.trans hv, hx⟩

theorem Block.Mirrors.copyLiterals_go {len : Nat} (h : b.Mirrors ip out s)
    (hlen : s.work.litLen = len) (hroom : out.length + len ≤ b.work.oend)
    (hahead : ip + len ≤ bs.length) :
    ∃ t, copyLiterals s = .go t ∧
      b.Mirrors (ip + len) (out ++ ((bs.drop ip).take len).map some) t := by
  obtain ⟨lits, hlits⟩ : ∃ lits, lits = (bs.drop ip).take len := ⟨_, rfl⟩
  have hlen' : lits.length = len := by
    rw [hlits, List.length_take, List.length_drop]
    omega
  have hstream : s.streamHas lits := by
    unfold Block.streamHas
    rw [hlen', h.ip, h.ilim hb]
    exact ⟨(h.srcBytes hb hahead).trans hlits.symm, hahead⟩
  have htakes := h.dstTakes hb hroom
  rw [← hlits]
  subst hlen'
  obtain ⟨mem, hgo, hbytes, hframe⟩ := copyLiterals_completes hlen hstream htakes
  have hdst {i : Nat} (hi : i < s.dst.size) := Block.dstByte_of_lt { s with
    mem := mem
    work := { s.work with op := s.work.op + lits.length, ip := s.work.ip + lits.length } }
    (s := s) rfl hi
  refine ⟨_, hgo, h.frame.trans (copyLiterals_keepsFrame.go hgo).1, by rw [h.ip],
    by simp [h.op], fun k hk => ?_⟩
  obtain hlo | hhi := Nat.lt_or_ge k out.length
  · rw [List.getElem?_append_left hlo]
    exact h.holdsAt_of_lt rfl hframe hlo
  · obtain ⟨j, rfl⟩ := Nat.exists_eq_add_of_le hhi
    have hj : j < lits.length := by simpa using hk
    have hsize := htakes.2.1
    rw [h.op] at hbytes hsize
    have hread := hbytes j hj
    rw [List.getElem?_eq_getElem hj] at hread
    rw [List.getElem?_append_right hhi, Nat.add_sub_cancel_left, List.getElem?_map,
      List.getElem?_eq_getElem hj]
    exact ⟨lits[j], (hdst (by omega)).trans hread, .inr rfl⟩

/-! ## The match -/

omit hb in
/-- The bytes of the match are there, and those the listing determines are its bytes. -/
theorem Block.holds_listingCopy {t : Block P} {m offset : Nat} (hoffset : offset ≤ out.length)
    (hbelow : ∀ k, k < out.length → t.holdsAt k out[k]?)
    (hmatch : ∀ k, k < m → if offset = 0 then (t.dstByte (out.length + k)).isSome
      else t.dstByte (out.length + k) = t.dstByte (out.length + k - offset)) :
    t.holds (listingCopy m offset out) := by
  intro k hk
  rw [listingCopy_length] at hk
  induction k using Nat.strongRecOn with
  | ind k ih =>
    obtain hlo | hhi := Nat.lt_or_ge k out.length
    · rw [getElem?_listingCopy_of_lt _ _ hlo]
      exact hbelow k hlo
    · obtain ⟨j, rfl⟩ := Nat.exists_eq_add_of_le hhi
      have hj : j < m := by omega
      have hbyte := hmatch j hj
      rw [getElem?_listingCopy hoffset hj]
      split at hbyte
      next hzero =>
        obtain ⟨v, hv⟩ := Option.isSome_iff_exists.1 hbyte
        exact ⟨v, hv, .inl (if_pos hzero)⟩
      next hzero =>
        obtain ⟨v, hv, hx⟩ := ih (out.length + j - offset) (by omega) (by omega)
        rw [if_neg hzero]
        exact ⟨v, hbyte.trans hv, hx⟩

theorem Block.Mirrors.copyMatch_go {m offset : Nat} (h : b.Mirrors ip out s)
    (hm : s.work.matchLen = m) (ho : s.work.offset = offset) (hoffset : offset ≤ out.length)
    (hroom : out.length + m ≤ b.work.oend) :
    ∃ t, copyMatch s = .go t ∧ b.Mirrors ip (listingCopy m offset out) t := by
  subst hm ho
  obtain ⟨hoend, hsize, -⟩ := h.dstTakes hb hroom
  have hmapped {k : Nat} (hk : k < s.work.matchLen) : out.length + k < s.dst.size := by
    rw [h.op] at hsize
    omega
  have hop : s.work.op + s.work.matchLen = (listingCopy s.work.matchLen s.work.offset out).length :=
    by rw [listingCopy_length, h.op]
  by_cases hzero : s.work.offset = 0
  · obtain ⟨mem, hgo, hbytes, hframe⟩ := copyMatch_of_offset_zero hzero hoend hsize
    have hdst {i : Nat} (hi : i < s.dst.size) := Block.dstByte_of_lt { advanceOut s.work.matchLen s with
      mem := mem
      freeCount := s.freeCount + s.work.matchLen } (s := s) rfl hi
    refine ⟨_, hgo, h.frame.trans (copyMatch_keepsFrame.go hgo).1, h.ip, hop,
      Block.holds_listingCopy hoffset (fun k hk => h.holdsAt_of_lt rfl hframe hk) fun k hk => ?_⟩
    rw [if_pos hzero, hdst (hmapped hk), ← h.op]
    exact Option.isSome_iff_exists.2 ⟨_, hbytes k hk⟩
  · obtain ⟨mem, hgo, hbytes, hframe⟩ := copyMatch_completes hzero (h.op ▸ hoffset) hoend hsize
      fun k hk => by
        obtain ⟨v, hv, -⟩ := h.holds k (h.op ▸ hk)
        rw [(Block.dstByte_eq_some.1 hv).2, Option.isSome_some]
    have hdst {i : Nat} (hi : i < s.dst.size) :=
      Block.dstByte_of_lt (advanceOut s.work.matchLen { s with mem := mem }) (s := s) rfl hi
    refine ⟨_, hgo, h.frame.trans (copyMatch_keepsFrame.go hgo).1, h.ip, hop,
      Block.holds_listingCopy hoffset (fun k hk => h.holdsAt_of_lt rfl hframe hk) fun k hk => ?_⟩
    rw [if_neg hzero, hdst (hmapped hk), hdst ((Nat.sub_le _ _).trans_lt (hmapped hk)), ← h.op]
    exact hbytes k hk

/-! ## The offset -/

theorem Block.Mirrors.srcLE_offset {lo hi : Byte} (h : b.Mirrors ip out s) (hlo : bs[ip]? = some lo)
    (hhi : bs[ip + 1]? = some hi) :
    s.srcLE Config.offsetBytes s.work.ip = some (lo.toNat + 256 * hi.toNat) := by
  have hlt := (List.getElem?_eq_some_iff.1 hhi).1
  obtain ⟨-, hread₀⟩ := Block.srcByte_eq_some.1 ((h.srcByte hb (by omega)).trans hlo)
  obtain ⟨hmapped, hread₁⟩ := Block.srcByte_eq_some.1 ((h.srcByte hb hlt).trans hhi)
  rw [h.ip, Block.srcLE, if_pos (show ip + Config.offsetBytes ≤ s.src.size from hmapped)]
  exact Memory.readLE_two hread₀ hread₁

theorem Block.Mirrors.readOffset_exhausted (h : b.Mirrors ip out s) (hshort : bs.length < ip + 2) :
    readOffset s = .raised .sourceExhausted s := by
  refine readOffset_raised.2 (.inl ⟨?_, rfl, rfl⟩)
  rw [h.ilim hb, h.ip]
  exact hshort

theorem Block.Mirrors.readOffset_underflow {lo hi : Byte} (h : b.Mirrors ip out s)
    (hlo : bs[ip]? = some lo) (hhi : bs[ip + 1]? = some hi)
    (hoffset : out.length < lo.toNat + 256 * hi.toNat) :
    ∃ u, readOffset s = .raised .backReferenceUnderflow u ∧ b.Mirrors (ip + 2) out u := by
  have hlt := (List.getElem?_eq_some_iff.1 hhi).1
  refine ⟨_, readOffset_raised.2 (.inr ⟨_, ?_, h.srcLE_offset hb hlo hhi, h.op ▸ hoffset, rfl, rfl⟩),
    (h.with_offset _).advanced 2⟩
  rw [h.ilim hb, h.ip]
  exact hlt

theorem Block.Mirrors.readOffset_go {lo hi : Byte} (h : b.Mirrors ip out s)
    (hlo : bs[ip]? = some lo) (hhi : bs[ip + 1]? = some hi)
    (hoffset : ¬ out.length < lo.toNat + 256 * hi.toNat) :
    ∃ u, readOffset s = .go u ∧ u.work.offset = lo.toNat + 256 * hi.toNat ∧
      b.Mirrors (ip + 2) out u := by
  have hlt := (List.getElem?_eq_some_iff.1 hhi).1
  refine ⟨_, Machine.readOffset_go.2 ⟨_, ?_, h.srcLE_offset hb hlo hhi,
    h.op ▸ Nat.le_of_not_lt hoffset, rfl⟩, rfl, (h.with_offset _).advanced 2⟩
  rw [h.ilim hb, h.ip]
  exact hlt

/-! ## What a pass comes to -/

omit hb

/-- The decoder command that was launched in `b` ends in `t` as the listing does. -/
def Block.EndsAs (b : Block P) (l : ListingEnd) (t : Block P) : Prop :=
  ∃ ip u, b.Mirrors ip l.out u ∧ t = u.decodeEnd l.result l.status

/-- After the step of a pass that started at index `start`, the command has ended as the listing `l`
does, or `l` is what the loop comes to from where `t` stands. -/
def Block.Follows (b : Block P) (bs : List Byte) (fuel start : Nat) (l : ListingEnd) (t : Block P) :
    Prop :=
  b.EndsAs l t ∨ ∃ ip out, start < ip ∧ ip ≤ bs.length ∧ b.Mirrors ip out t ∧
    l = listingLoop P.decMargin b.isUnknown bs b.work.oend fuel ip out

theorem Block.Mirrors.endsAs_raise (h : b.Mirrors ip out s) (c : Cause) :
    b.EndsAs ⟨some c, ip, out⟩ (s.decodeRaise c) :=
  ⟨ip, s, h, by rw [Block.decodeRaise_eq, h.ip]; rfl⟩

theorem Block.Mirrors.isUnknown (h : b.Mirrors ip out s) : s.isUnknown = b.isUnknown := by
  rw [Block.isUnknown, Block.isUnknown, h.frame.phase]

theorem Block.Mirrors.endsAs_finish (h : b.Mirrors ip out s) :
    b.EndsAs ⟨none, if b.isUnknown then out.length else ip, out⟩ s.decodeFinish := by
  refine ⟨ip, s, h, ?_⟩
  rw [Block.decodeFinish_eq, Block.finishValue, h.isUnknown, h.op, h.ip]
  rfl

variable {fuel start : Nat}

theorem Block.Mirrors.outcome_raised {f : Flow P} {c : Cause} (h : b.Mirrors ip out s)
    (hf : f = .raised c s) :
    ∃ t, f.outcome = .next ⟨P, t⟩ ∧ b.Follows bs fuel start ⟨some c, ip, out⟩ t :=
  ⟨_, Flow.outcome_eq_next.2 (.inr ⟨c, s, hf, rfl⟩), .inl (h.endsAs_raise c)⟩

theorem Block.Mirrors.terminal_raised {f : Flow P} {c : Cause} (h : b.Mirrors ip out s)
    (hf : f = .raised c s) :
    ∃ t, f.terminal = .next ⟨P, t⟩ ∧ b.Follows bs fuel start ⟨some c, ip, out⟩ t :=
  ⟨_, Flow.terminal_eq_next.2 (.inr ⟨c, s, hf, rfl⟩), .inl (h.endsAs_raise c)⟩

include hb

/-- The steps behind the literal run do what the listing does there. -/
theorem Block.Mirrors.matchSteps_follows (h : b.Mirrors ip out s) (hstart : start < ip) (nib : Nat) :
    ∃ t, (((readOffset s).andThen (readMatchLen nib)).andThen copyMatch).outcome = .next ⟨P, t⟩ ∧
      b.Follows bs fuel start
        (listingMatch P.decMargin b.isUnknown bs b.work.oend fuel nib ip out) t := by
  by_cases hshort : bs.length < ip + 2
  · rw [listingMatch_of_short hshort, h.readOffset_exhausted hb hshort]
    exact h.outcome_raised rfl
  have hlo : bs[ip]? = some bs[ip] := List.getElem?_eq_getElem (by omega)
  have hhi : bs[ip + 1]? = some bs[ip + 1] := List.getElem?_eq_getElem (by omega)
  by_cases hoffset : out.length < bs[ip].toNat + 256 * bs[ip + 1].toNat
  · obtain ⟨u, hraised, hu⟩ := h.readOffset_underflow hb hlo hhi hoffset
    rw [listingMatch_of_underflow hlo hhi hoffset, hraised]
    exact hu.outcome_raised rfl
  obtain ⟨u, hgo, huoffset, hu⟩ := h.readOffset_go hb hlo hhi hoffset
  rw [hgo, Flow.go_andThen]
  cases hlen : listingLength nib bs (ip + 2) with
  | none =>
    obtain ⟨v, hraised, hv⟩ := hu.readMatchLen_raised hb (by omega) hlen
    rw [listingMatch_of_length_none hlo hhi hoffset hlen, hraised]
    exact hv.outcome_raised rfl
  | some r =>
    obtain ⟨code, ip'⟩ := r
    obtain ⟨hle, hbound⟩ := listingLength_bounds hlen (by omega)
    obtain ⟨v, hgo, hvlen, hvoffset, hv⟩ := hu.readMatchLen_go hb hlen
    rw [listingMatch_of_length_some hlo hhi hoffset hlen, hgo, Flow.go_andThen]
    split
    next hroom =>
      refine hv.outcome_raised (copyMatch_raised.2 ⟨?_, rfl, rfl⟩)
      rwa [hv.frame.oend, hv.op, hvlen]
    next hroom =>
      obtain ⟨t, hgo, ht⟩ := hv.copyMatch_go hb hvlen (hvoffset.trans huoffset)
        (Nat.le_of_not_lt hoffset) (Nat.le_of_not_lt hroom)
      rw [hgo]
      exact ⟨t, rfl, .inr ⟨ip', _, by omega, hbound, ht, rfl⟩⟩

/-- The literal run goes through, or its steps raise what the listing raises there. -/
theorem Block.Mirrors.literalSteps {nib len ip' : Nat} (h : b.Mirrors ip out s)
    (hlen : listingLength nib bs ip = some (len, ip')) :
    (∃ c u, (readLitLen nib s).andThen copyLiterals = .raised c u ∧ b.Mirrors ip' out u ∧
      ∀ nib', listingRun P.decMargin b.isUnknown bs b.work.oend fuel nib' len ip' out =
        ⟨some c, ip', out⟩) ∨
    ∃ u, (readLitLen nib s).andThen copyLiterals = .go u ∧
      b.Mirrors (ip' + len) (out ++ ((bs.drop ip').take len).map some) u ∧
      out.length + len ≤ b.work.oend ∧ ip' + len ≤ bs.length := by
  obtain ⟨u, hgo, hulen, hu⟩ := h.readLitLen_go hb hlen
  rw [hgo, Flow.go_andThen]
  by_cases hroom : b.work.oend < out.length + len
  · refine .inl ⟨_, u, copyLiterals_raised.2 ⟨rfl, .inl ⟨?_, rfl⟩⟩, hu, fun _ => if_pos hroom⟩
    rwa [hu.frame.oend, hu.op, hulen]
  by_cases hahead : bs.length < ip' + len
  · refine .inl ⟨_, u, copyLiterals_raised.2 ⟨rfl, .inr ⟨?_, ?_, rfl⟩⟩, hu, fun _ => ?_⟩
    · rw [hu.frame.oend, hu.op, hulen]
      exact Nat.le_of_not_lt hroom
    · rwa [hu.ilim hb, hu.ip, hulen]
    · rw [listingRun, if_neg hroom, if_pos hahead]
  · obtain ⟨t, hgo, ht⟩ :=
      hu.copyLiterals_go hb hulen (Nat.le_of_not_lt hroom) (Nat.le_of_not_lt hahead)
    exact .inr ⟨t, hgo, ht, Nat.le_of_not_lt hroom, Nat.le_of_not_lt hahead⟩

/-- When the listing takes a run of `len` literals at index `ip` as terminal (`44_decoder.md` R236,
R239). -/
abbrev Block.runEnds (b : Block P) (bs : List Byte) (len ip : Nat) (out : List (Option Byte)) : Prop :=
  b.work.oend < out.length + len + P.decMargin ∨ (b.isUnknown = true ∧ ip + len = bs.length)

theorem Block.Mirrors.seqSteps_follows {nib len ip' : Nat} (h : b.Mirrors ip out s)
    (hlen : listingLength nib bs ip = some (len, ip')) (hstart : start < ip')
    (hends : ¬ b.runEnds bs len ip' out) (nib' : Nat) :
    ∃ t, (seqSteps (readLitLen nib) (readMatchLen nib') s).outcome = .next ⟨P, t⟩ ∧
      b.Follows bs fuel start
        (listingRun P.decMargin b.isUnknown bs b.work.oend fuel nib' len ip' out) t := by
  rw [seqSteps_eq_andThen]
  obtain ⟨c, u, hraised, hu, hrun⟩ | ⟨u, hgo, hu, hroom, hahead⟩ := h.literalSteps hb hlen
  · rw [hrun nib', hraised]
    exact hu.outcome_raised rfl
  · rw [hgo, Flow.go_andThen, listingRun, if_neg (Nat.not_lt.2 hroom), if_neg (Nat.not_lt.2 hahead),
      if_neg hends]
    exact hu.matchSteps_follows hb (by omega) nib'

theorem Block.Mirrors.lastSteps_follows {nib len ip' : Nat} (h : b.Mirrors ip out s)
    (hlen : listingLength nib bs ip = some (len, ip')) (hends : b.runEnds bs len ip' out)
    (nib' : Nat) :
    ∃ t, ((readLitLen nib s).andThen copyLiterals).terminal = .next ⟨P, t⟩ ∧
      b.Follows bs fuel start
        (listingRun P.decMargin b.isUnknown bs b.work.oend fuel nib' len ip' out) t := by
  obtain ⟨c, u, hraised, hu, hrun⟩ | ⟨u, hgo, hu, hroom, hahead⟩ := h.literalSteps hb hlen
  · rw [hrun nib', hraised]
    exact hu.terminal_raised rfl
  · rw [hgo, listingRun, if_neg (Nat.not_lt.2 hroom), if_neg (Nat.not_lt.2 hahead), if_pos hends]
    refine ⟨_, rfl, .inl ?_⟩
    have hfinish := hu.endsAs_finish
    rwa [length_append_take_drop hahead] at hfinish

/-! ## A step for each pass -/

/-- At the end of the stream the command ends: with success when it is unknown-size. -/
theorem Block.Mirrors.step_follows_of_le (h : b.Mirrors ip out s) (hend : bs.length ≤ ip) :
    ∃ t, Machine.step ⟨P, s⟩ = .next ⟨P, t⟩ ∧ b.Follows bs fuel start
      (listingLoop P.decMargin b.isUnknown bs b.work.oend (fuel + 1) ip out) t := by
  have hlim : s.work.ilim ≤ s.work.ip := by rwa [h.ilim hb, h.ip]
  rw [listingLoop_of_le hend, step_mk, Block.step_running (h.running hb)]
  cases hu : b.isUnknown with
  | false =>
    have hfetch := Block.fetch_ended.2 (.inr ⟨h.isUnknown.trans hu, hlim, rfl⟩)
    exact ⟨_, decoderStep_next.2 (.inl hfetch), .inl (h.endsAs_raise _)⟩
  | true =>
    have hfetch := Block.fetch_ended.2 (.inl ⟨h.isUnknown.trans hu, hlim, rfl⟩)
    have hfinish := h.endsAs_finish
    rw [hu] at hfinish
    exact ⟨_, decoderStep_next.2 (.inl hfetch), .inl hfinish⟩

/-- At a control byte the step runs the form that the listing's conditions select. -/
theorem Block.Mirrors.step_follows (h : b.Mirrors ip out s) :
    ∃ t, Machine.step ⟨P, s⟩ = .next ⟨P, t⟩ ∧ b.Follows bs fuel ip
      (listingLoop P.decMargin b.isUnknown bs b.work.oend (fuel + 1) ip out) t := by
  by_cases hend : bs.length ≤ ip
  · exact h.step_follows_of_le hb hend
  · have hmore : ip < bs.length := Nat.lt_of_not_le hend
    have ht : bs[ip]? = some bs[ip] := List.getElem?_eq_getElem hmore
    have htoken := h.token_taken
    have hdec : decodeSequence P s.context s.unread =
        .ok (sequenceForm (terminalAt P s.context bs[ip] (bs.drop (ip + 1))) bs[ip]) := by
      rw [h.unread hb, List.drop_eq_getElem_cons hmore]
      rfl
    rw [step_of_sequence (h.running hb) (by rwa [h.ip, h.ilim hb]) hdec]
    cases hlen : listingLength (bs[ip].toNat / 16) bs (ip + 1) with
    | none =>
      obtain ⟨u, hraised, hu⟩ := (htoken bs[ip]).readLitLen_raised hb hmore hlen
      rw [listingLoop_of_length_none ht hlen, terminalAt_of_length_none hlen,
        exec_sequenceForm_false, seqSteps_eq_andThen, hraised]
      exact hu.outcome_raised rfl
    | some r =>
      obtain ⟨len, ip'⟩ := r
      have hle := (listingLength_bounds hlen hmore).1
      have hterminal : terminalAt P s.context bs[ip] (bs.drop (ip + 1)) = true ↔
          b.runEnds bs len ip' out := by
        have hext : ip + 1 + (ip' - (ip + 1)) = ip' := by omega
        rw [terminalAt_of_length_some hlen, takenAsTerminal_eq_true]
        simp only [Block.context, h.ip, h.op, h.ilim hb, h.frame.oend, h.isUnknown, hext]
      rw [listingLoop_of_length_some ht hlen]
      by_cases hends : b.runEnds bs len ip' out
      · obtain ⟨tok, hexec⟩ := exec_sequenceForm_true bs[ip] s
        rw [hterminal.2 hends, hexec]
        exact (htoken tok).lastSteps_follows hb hlen hends _
      · rw [Bool.eq_false_iff.2 (mt hterminal.1 hends), exec_sequenceForm_false]
        exact (htoken bs[ip]).seqSteps_follows hb hlen (by omega) hends _

/-- The decoder runs to its end as the loop does; every pass moves on in the stream, so the loop's fuel
lasts. -/
theorem Block.Mirrors.runs_endsAs (h : b.Mirrors ip out s) (hip : ip ≤ bs.length)
    (hfuel : bs.length < ip + fuel) :
    ∃ t, s.runs t ∧
      b.EndsAs (listingLoop P.decMargin b.isUnknown bs b.work.oend fuel ip out) t := by
  induction fuel generalizing ip out s with
  | zero => omega
  | succ fuel ih =>
    obtain ⟨t, hstep, hends | ⟨ip', out', hlt, hip', ht, hloop⟩⟩ :=
      h.step_follows hb (fuel := fuel)
    · exact ⟨t, Block.runs_step hstep t.runs_refl, hends⟩
    · obtain ⟨u, hruns, hends⟩ := ih ht hip' (by omega)
      exact ⟨u, Block.runs_step hstep hruns, hloop ▸ hends⟩

omit hb

/-- The end of a listing as the end of the command. -/
theorem Block.EndsAs.endsWith {l : ListingEnd} {t : Block P} (h : b.EndsAs l t) (hop : b.work.op = 0) :
    b.endsWith t l.result l.status 0 b.work.oend ∧ t.tab = b.tab ∧
      ∀ (k : Nat) (v : Byte), l.out[k]? = some (some v) → t.dstByte k = some v := by
  obtain ⟨ip, u, hu, rfl⟩ := h
  have hsetup : u.sameSetup (u.decodeEnd l.result l.status) := ⟨rfl, rfl, rfl, rfl, rfl, rfl, rfl⟩
  refine ⟨⟨rfl, rfl, rfl, Block.sameSetup_trans hu.frame.setup hsetup, fun a ha => ?_⟩,
    hu.frame.tab, fun k v hv => ?_⟩
  · have hout : b.outsideDst b.work.op (min b.work.oend b.dst.size) a := by
      unfold Block.outsideDst at ha ⊢
      omega
    exact (u.read_decodeEnd _ _ a (hu.frame.outside hout)).trans (hu.frame.read a hout)
  · have hk : k < l.out.length := (List.getElem?_eq_some_iff.1 hv).1
    obtain ⟨v', hbyte, hx⟩ := hu.holds k hk
    obtain rfl : v' = v := by simpa [hv, eq_comm] using hx
    have hread := u.read_decodeEnd l.result l.status (u.dst.base + k) (.inl (by rw [hu.op]; omega))
    exact (Block.dstByte_congr (Block.dst_of_sameSetup hsetup) hread).trans hbyte

end Mirror

/-! ## Whole commands -/

theorem Block.startDecoder_launched {s : Block P} {p : Phase} (hprem : s.decompressPremises)
    (hp : p ≠ .idle) : (s.startDecoder p).Launched (s.srcBytes s.srcLen.toNat 0) := by
  obtain ⟨hreadable, hmapped, hdisj⟩ := hprem
  have hlen : (s.srcBytes s.srcLen.toNat 0).length = s.srcLen.toNat :=
    Block.srcBytes_length_eq.2 fun j hj => by rw [Nat.zero_add]; exact hreadable j hj
  refine ⟨rfl, rfl, hlen.symm, ?_, hmapped, hdisj, hp⟩
  rw [hlen]
  exact Block.srcBytes_congr fun _ _ => rfl

/-- A decoder that was started runs to the end of the listing. -/
theorem Block.startDecoder_runs {s : Block P} {p : Phase} (hprem : s.decompressPremises)
    (hp : p ≠ .idle) :
    ∃ t, (s.startDecoder p).runs t ∧ (s.startDecoder p).EndsAs
      (listing P (s.startDecoder p).isUnknown (s.srcBytes s.srcLen.toNat 0) s.dstLen.toNat) t := by
  have hb := Block.startDecoder_launched hprem hp
  exact hb.mirrors.runs_endsAs hb (Nat.zero_le _) (by omega)

/-- Settles O39: the command starts the decoder, which runs to the end of the listing. -/
theorem decoderRefinesListing : Obligations.DecoderRefinesListing := by
  rintro P s unknown w rest hw hlaunch hargs hprem l rfl
  obtain ⟨p, hp, hunknown⟩ : ∃ p : Phase,
      ((w.toNat = 2 ∧ p = .fixed) ∨ (w.toNat = 3 ∧ p = .unknown)) ∧ (p == .unknown) = unknown := by
    cases unknown with
    | false => exact ⟨.fixed, .inl ⟨hw, rfl⟩, rfl⟩
    | true => exact ⟨.unknown, .inr ⟨hw, rfl⟩, rfl⟩
  have hrunning : p ≠ .idle := by
    rintro rfl
    simp at hp
  have hbytes : Block.srcBytes { s with host := rest } s.srcLen.toNat 0 =
      s.srcBytes s.srcLen.toNat 0 := Block.srcBytes_congr fun _ _ => rfl
  obtain ⟨t, hruns, hends⟩ := Block.startDecoder_runs (s := { s with host := rest }) hprem hrunning
  rw [hbytes, Block.isUnknown, Block.startDecoder_phase, hunknown] at hends
  obtain ⟨-, -, hdisj⟩ := hprem
  exact ⟨t, Block.runs_step (launch_step hlaunch hargs hdisj hp) hruns, hends.endsWith rfl⟩

end Sys2Proof.Machine
end

