-- ==== Sys2Proof/Proofs/ConformingDecode.lean ====
section
/-! Decoder commands on conforming streams (`44_decoder.md` R256, R258). On such a
stream cut short the listing of DECODE_FIXED reads what it would read on the whole one, as long as the
bytes are there, and none of its other checks fails first; so it runs out of input. -/

namespace Sys2Proof

/-! ## What is read at the front of a byte string -/

/-- A length extension that is found is found whatever bytes follow. -/
theorem extSum_append {bs : List Byte} {r : Nat × Nat} (h : extSum bs = some r) (ext : List Byte) :
    extSum (bs ++ ext) = some r := by
  obtain ⟨k, v, rest, hv, rfl, hsum, hcount⟩ := extRun_of_extSum (v := r.1) (c := r.2) h
  rw [List.append_assoc, extSum_extRun hv, ← hsum, ← hcount]

theorem controlByte_toNat (len code : Nat) :
    (controlByte len code).toNat = nibble len * 16 + nibble code := by
  have hlen : nibble len ≤ 15 := Nat.min_le_right _ _
  have hcode : nibble code ≤ 15 := Nat.min_le_right _ _
  rw [controlByte, BitVec.toNat_ofNat]
  omega

theorem controlByte_div (len code : Nat) : (controlByte len code).toNat / 16 = nibble len := by
  have hcode : nibble code ≤ 15 := Nat.min_le_right _ _
  rw [controlByte_toNat]
  omega

theorem controlByte_mod (len code : Nat) : (controlByte len code).toNat % 16 = nibble code := by
  have hcode : nibble code ≤ 15 := Nat.min_le_right _ _
  rw [controlByte_toNat]
  omega

namespace Machine

theorem listingLength_append {nib ip : Nat} {bs : List Byte} {r : Nat × Nat}
    (h : listingLength nib bs ip = some r) (ext : List Byte) :
    listingLength nib (bs ++ ext) ip = some r := by
  obtain ⟨hnib, hlen, hip⟩ | ⟨hnib, v, k, hext, hlen, hip⟩ :=
    listingLength_eq_some (len := r.1) (ip' := r.2).1 h
  · exact listingLength_eq_some.2 (.inl ⟨hnib, hlen, hip⟩)
  · refine listingLength_eq_some.2 (.inr ⟨hnib, v, k, ?_, hlen, hip⟩)
    rw [List.drop_append]
    exact extSum_append hext _

/-- The listing reads back a length from its nibble and its extension. -/
theorem listingLength_extOf {v ip : Nat} {bs rest : List Byte} (h : bs.drop ip = extOf v ++ rest) :
    listingLength (nibble v) bs ip = some (v, ip + litext v) := by
  obtain hv | hv := Nat.lt_or_ge v Config.nibbleMax
  · rw [nibble_of_lt hv, listingLength_of_lt hv, litext, if_pos hv, Nat.add_zero]
  · have hsum : 15 + (v - Config.nibbleMax) = v := Nat.add_sub_of_le hv
    rw [nibble_of_le hv, listingLength_of_le (show 15 ≤ Config.nibbleMax from Nat.le_refl _), h,
      extSum_extOf hv, Option.map_some]
    exact congrArg (fun len => some (len, ip + litext v)) hsum

/-! ## The listing on a cut stream -/

/-- The listing on `size` bytes ends with SourceExhausted; the value it names is at most `size`, and 0
only where there is nothing to read. -/
def ListingEnd.RunsOut (l : ListingEnd) (size : Nat) : Prop :=
  l.cause = some .sourceExhausted ∧ l.value ≤ size ∧ (0 < size → 0 < l.value)

theorem ListingEnd.RunsOut.result {x size : Nat} {l : ListingEnd} (h : l.RunsOut size) :
    (l.result : Word x) = neg32 l.value := by
  rw [ListingEnd.result, h.1]

theorem ListingEnd.RunsOut.status {x size : Nat} {l : ListingEnd} (h : l.RunsOut size) :
    (l.status : Word x) = 4 := by
  rw [ListingEnd.status, h.1]
  rfl

section Cut

variable {margin oend fuel ip : Nat} {bs ext rest : List Byte} {out : List (Option Byte)}

/-- A length that the whole stream has at index `ip` is read from the cut one, or cut off there. -/
theorem listingLength_cut {v : Nat} (h : (bs ++ ext).drop ip = extOf v ++ rest) (hip : ip ≤ bs.length) :
    listingLength (nibble v) bs ip = none ∨
      (listingLength (nibble v) bs ip = some (v, ip + litext v) ∧ ip + litext v ≤ bs.length) := by
  cases hlen : listingLength (nibble v) bs ip with
  | none => exact .inl rfl
  | some r =>
    obtain rfl : r = (v, ip + litext v) :=
      Option.some.inj ((listingLength_append hlen ext).symm.trans (listingLength_extOf h))
    exact .inr ⟨rfl, (listingLength_bounds hlen hip).2⟩

/-- A byte that the whole stream has behind index `ip` is in the cut one, if that is long enough. -/
theorem getElem?_cut {i : Nat} {tail : List Byte} (h : (bs ++ ext).drop ip = tail)
    (hi : ip + i < bs.length) : bs[ip + i]? = tail[i]? := by
  rw [← h, List.getElem?_drop, List.getElem?_append_left hi]

theorem drop_add_of_drop {α : Type} {l as tail : List α} {i : Nat} (h : l.drop i = as ++ tail) :
    l.drop (i + as.length) = tail := by
  rw [← List.drop_drop, h, List.drop_left]

/-- A literal run is cut off, or it is read whole and the listing goes on behind it. -/
theorem listingLoop_cut_literals {lits : List Byte} {code : Nat}
    (h : (bs ++ ext).drop ip = controlByte lits.length code :: (extOf lits.length ++ (lits ++ rest)))
    (hip : ip ≤ bs.length) (hroom : out.length + lits.length ≤ oend) :
    (listingLoop margin false bs oend (fuel + 1) ip out).RunsOut bs.length ∨
      (ip + 1 + litext lits.length + lits.length ≤ bs.length ∧
        (out.length + lits.length + margin ≤ oend →
          ∃ out', out'.length = out.length + lits.length ∧
            listingLoop margin false bs oend (fuel + 1) ip out =
              listingMatch margin false bs oend fuel (nibble code)
                (ip + 1 + litext lits.length + lits.length) out')) := by
  by_cases hend : bs.length ≤ ip
  · rw [listingLoop_of_le hend]
    exact .inl ⟨rfl, hip, fun hpos => hpos.trans_le hend⟩
  have ht : bs[ip]? = some (controlByte lits.length code) :=
    (getElem?_cut (i := 0) h (Nat.lt_of_not_le hend)).trans rfl
  have hext : (bs ++ ext).drop (ip + 1) = extOf lits.length ++ (lits ++ rest) :=
    drop_add_of_drop (as := [_]) h
  obtain hnone | ⟨hsome, hbound⟩ := listingLength_cut hext (Nat.lt_of_not_le hend)
  · rw [listingLoop_of_length_none ht (by rwa [controlByte_div])]
    exact .inl ⟨rfl, Nat.le_refl _, id⟩
  · rw [listingLoop_of_length_some ht (by rwa [controlByte_div]), controlByte_mod, listingRun,
      if_neg (Nat.not_lt.2 hroom)]
    by_cases hahead : bs.length < ip + 1 + litext lits.length + lits.length
    · rw [if_pos hahead]
      exact .inl ⟨rfl, hbound, fun _ => by show 0 < ip + 1 + litext lits.length; omega⟩
    · refine .inr ⟨Nat.le_of_not_lt hahead, fun hmargin => ⟨_, length_append_take_drop
        (Nat.le_of_not_lt hahead), ?_⟩⟩
      rw [if_neg hahead, if_neg (by simpa using hmargin)]

/-- The fields of a match are cut off, or they are read whole and the loop goes on behind them. -/
theorem listingMatch_cut {offset code : Nat}
    (h : (bs ++ ext).drop ip = le16 offset ++ (extOf code ++ rest)) (hlt : offset < 65536)
    (hpos : 0 < ip) (hip : ip ≤ bs.length) (hoffset : offset ≤ out.length)
    (hroom : out.length + (code + 4) ≤ oend) :
    (listingMatch margin false bs oend fuel (nibble code) ip out).RunsOut bs.length ∨
      (ip + 2 + litext code ≤ bs.length ∧
        listingMatch margin false bs oend fuel (nibble code) ip out =
          listingLoop margin false bs oend fuel (ip + 2 + litext code)
            (listingCopy (code + 4) offset out)) := by
  by_cases hshort : bs.length < ip + 2
  · rw [listingMatch_of_short hshort]
    exact .inl ⟨rfl, hip, fun _ => hpos⟩
  have hlo : bs[ip]? = some (BitVec.ofNat 8 offset) :=
    (getElem?_cut (i := 0) h (by omega)).trans rfl
  have hhi : bs[ip + 1]? = some (BitVec.ofNat 8 (offset / 256)) :=
    (getElem?_cut (i := 1) h (by omega)).trans rfl
  have hvalue :
      (BitVec.ofNat 8 offset).toNat + 256 * (BitVec.ofNat 8 (offset / 256)).toNat = offset := by
    simp only [BitVec.toNat_ofNat]
    omega
  have hnear : ¬ out.length <
      (BitVec.ofNat 8 offset).toNat + 256 * (BitVec.ofNat 8 (offset / 256)).toNat := by omega
  obtain hnone | ⟨hsome, hbound⟩ :=
    listingLength_cut (drop_add_of_drop h) (show ip + 2 ≤ bs.length by omega)
  · rw [listingMatch_of_length_none hlo hhi hnear hnone]
    exact .inl ⟨rfl, Nat.le_refl _, id⟩
  · rw [listingMatch_of_length_some hlo hhi hnear hsome, if_neg (Nat.not_lt.2 hroom), hvalue]
    exact .inr ⟨hbound, rfl⟩

/-- DECODE_FIXED on a conforming stream cut short runs out of input, from each sequence on. -/
theorem listingLoop_cut {E : Config.Params} {n : Nat} {items : List SeqItem} {last before : List Byte}
    (hcut : ext ≠ []) (h : (bs ++ ext).drop ip = streamBytes items last) (hip : ip ≤ bs.length)
    (hfuel : bs.length < ip + fuel) (hlen : out.length = before.length)
    (hconf : conformingItems E n before items) (hn : (replay before items ++ last).length = n)
    (hE : margin ≤ E.mfLimit) :
    (listingLoop margin false bs n fuel ip out).RunsOut bs.length := by
  induction items generalizing ip fuel out before with
  | nil =>
    obtain ⟨fuel, rfl⟩ := Nat.exists_eq_succ_of_ne_zero (show fuel ≠ 0 by omega)
    have hsize : (bs ++ ext).length - ip = (lastBytes last).length := by
      rw [← List.length_drop, h]
      rfl
    have hpos := List.length_pos_of_ne_nil hcut
    rw [List.length_append, lastBytes_length] at hsize
    obtain hout | ⟨hbound, -⟩ := listingLoop_cut_literals (margin := margin) (fuel := fuel)
      (out := out) (rest := []) (lits := last) (code := 0) (oend := n)
      (by rw [h, List.append_nil]; rfl) hip
      (by rw [hlen, ← hn, replay, List.length_append])
    · exact hout
    · omega
  | cons q items ih =>
    obtain ⟨fuel, rfl⟩ := Nat.exists_eq_succ_of_ne_zero (show fuel ≠ 0 by omega)
    obtain ⟨hm, hzero, hoffset, hnear, hlimit, hroom, hitems⟩ := hconf
    obtain ⟨code, hcode⟩ := Nat.exists_eq_add_of_le' hm
    have hseq : (bs ++ ext).drop ip = controlByte q.lits.length code ::
        (extOf q.lits.length ++ (q.lits ++ (le16 q.offset ++ (extOf code ++
          streamBytes items last)))) := by
      rw [h, streamBytes, seqBytes, hcode, show code + 4 - Config.minMatch = code from rfl]
      simp only [List.cons_append, List.append_assoc]
    obtain hout | ⟨hbound, hmatch⟩ := listingLoop_cut_literals (margin := margin) (fuel := fuel)
      (out := out) (oend := n) hseq hip (by omega)
    · exact hout
    obtain ⟨out', hlen', hloop⟩ := hmatch (by omega)
    have hfields := drop_add_of_drop (as := controlByte q.lits.length code ::
      (extOf q.lits.length ++ q.lits)) (by simpa only [List.cons_append, List.append_assoc] using hseq)
    have hrun : ip + (controlByte q.lits.length code :: (extOf q.lits.length ++ q.lits)).length =
        ip + 1 + litext q.lits.length + q.lits.length := by
      rw [List.length_cons, List.length_append, extOf_length]
      omega
    rw [hrun] at hfields
    rw [hloop]
    obtain hout | ⟨hbound', hnext⟩ := listingMatch_cut (margin := margin) (fuel := fuel)
      (out := out') (oend := n) hfields (by omega) (by omega) hbound (by omega) (by omega)
    · exact hout
    rw [hnext]
    have hrest := drop_add_of_drop (drop_add_of_drop hfields)
    rw [extOf_length] at hrest
    exact ih hrest hbound' (by omega)
      (by rw [listingCopy_length, SeqItem.apply_length, hlen', hlen, hcode]) hitems hn

end Cut

/-! ## Whole commands -/

theorem neg32_toInt_neg {x c : Nat} (hpos : 0 < c) (hle : c ≤ Config.maxLen x) :
    (neg32 c : Word x).toInt < 0 := by
  unfold Config.maxLen at hle
  cases x with
  | zero => simp at hle; omega
  | succ x =>
    have hpow : 2 ^ (x + 1) = 2 * 2 ^ x := Nat.pow_succ'
    rw [Nat.add_sub_cancel] at hle
    have hvalue : (neg32 c : Word (x + 1)).toNat = 2 ^ (x + 1) - c := by
      rw [neg32, BitVec.toNat_ofNat, Nat.mod_eq_of_lt (show c < 2 ^ (x + 1) by omega),
        Nat.mod_eq_of_lt (by omega)]
    rw [BitVec.toInt_eq_toNat_cond, hvalue, if_neg (by omega)]
    omega

/-- Settles O40: either variant is a decoder command on the stream that ends where the stream does. -/
theorem conformingStreamDecodes : Obligations.ConformingStreamDecodes := by
  intro E P s w rest input items last stream hconf hmargin hE hstream hbytes hlaunch hargs hprem
  refine ⟨fun hw hdst hlen => ?_, fun hw hsrc hdst => ?_⟩
  · exact decoder_runs_conforming hconf hmargin hE hstream hbytes hlen hlaunch hargs hprem
      (.inl ⟨hw, rfl⟩) (.inl ⟨rfl, hdst⟩)
  · exact decoder_runs_conforming hconf hmargin hE hstream hbytes (Nat.le_of_eq hsrc.symm) hlaunch
      hargs hprem (.inr ⟨hw, rfl⟩) (.inr ⟨rfl, hdst, hsrc⟩)

/-- Settles O41: the command comes to the end of the listing (`decoderRefinesListing`), which runs out
of input. -/
theorem truncatedStreamFails : Obligations.TruncatedStreamFails := by
  intro E P s w rest input items last stream hconf hE hw hstream hlaunch hargs hprem hshort hbytes hdst
  obtain ⟨hreplay, hitems, -⟩ := hconf
  obtain ⟨l, hl⟩ : ∃ l, l = listing P false (s.srcBytes s.srcLen.toNat 0) s.dstLen.toNat := ⟨_, rfl⟩
  obtain ⟨t, hruns, hends, -⟩ := decoderRefinesListing P s false w rest hw hlaunch hargs hprem l hl
  have hlen : (stream.take s.srcLen.toNat).length = s.srcLen.toNat :=
    List.length_take_of_le (Nat.le_of_lt hshort)
  have hout : l.RunsOut (stream.take s.srcLen.toNat).length := by
    rw [hl, hbytes, hdst]
    exact listingLoop_cut (ext := stream.drop s.srcLen.toNat) (before := []) (by simpa using hshort)
      (by rw [List.take_append_drop, List.drop_zero, hstream]) (Nat.zero_le _) (by omega) rfl hitems
      (congrArg List.length hreplay) hE
  rw [hlen] at hout
  rw [hout.result, hout.status] at hends
  obtain ⟨-, hle, hpos⟩ := hout
  obtain ⟨-, -, hsigned, -⟩ := hargs
  have hmax : s.srcLen.toNat ≤ Config.maxLen P.xlen := toNat_le_maxLen (signed_eq_toInt _ ▸ hsigned)
  have hresult : t.result = neg32 l.value := hends.1
  refine ⟨t, l.value, hruns, hends, hle, fun hempty => ?_, fun hsome => ?_⟩
  · have hzero : l.value = 0 := Nat.le_zero.1 (hle.trans_eq hempty)
    rw [hresult, hzero, neg32_zero]
  · rw [hresult]
    exact neg32_toInt_neg (hpos hsome) (hle.trans hmax)

end Machine

end Sys2Proof
end

