-- ==== Sys2Proof/Proofs/CommandLaunch.lean ====
section
/-! The commands as a write to `x[CMD]` runs them (`45_commands.md`): the dispatch of a decoded instruction
(R280), when a command ends with InvalidArgument (R281), the variant a COMPRESS selects (R282), and the
whole effect of a COMPRESS under its premises (R283, R286). -/

namespace Sys2Proof.Machine

variable {P : Config.Params} {s : Block P}

/-! ## Variant selection -/

/-- The encoder `e'` works on an input of the same length and in the same variant as `e`. -/
structure Enc.SameCommand (e e' : Enc) : Prop where
  n : e'.w.n = e.w.n
  variant : e'.w.variant = e.w.variant

theorem Enc.SameCommand.refl (e : Enc) : e.SameCommand e := ⟨rfl, rfl⟩

theorem Enc.SameCommand.trans {e e' e'' : Enc} (h : e.SameCommand e') (h' : e'.SameCommand e'') :
    e.SameCommand e'' :=
  ⟨h'.n.trans h.n, h'.variant.trans h.variant⟩

theorem probe_sameCommand (src : Nat → Byte) (p : Nat) (e : Enc) :
    e.SameCommand (probe P src p e).1 := ⟨rfl, rfl⟩

theorem searchLoop_sameCommand (src : Nat → Byte) (fuel : Nat) (e : Enc) :
    e.SameCommand (searchLoop P src fuel e).2 := by
  induction fuel generalizing e with
  | zero => exact .refl e
  | succ fuel ih =>
    have hnext : e.SameCommand (e.nextAttempt P) := ⟨rfl, rfl⟩
    have hprobe := hnext.trans (probe_sameCommand (P := P) src e.w.fwd _)
    rw [searchLoop_succ]
    split
    · exact hnext
    · split
      · exact hprobe
      · exact hprobe.trans (ih _)

theorem encAfterMatch_sameCommand (src : Nat → Byte) (e : Enc) :
    e.SameCommand (encAfterMatch P src e).2 := by
  rw [encAfterMatch_eq]
  split
  · exact .refl e
  · split <;> exact { probe_sameCommand src e.w.ip e with }

/-- No step of the encoder writes the length or the variant; SEARCH and AFTER_MATCH, which branch on a
probe, by their own lemmas. -/
theorem encStep_sameCommand (src : Nat → Byte) (l : EncLabel) (e : Enc) :
    e.SameCommand (encStep P src l e).2 := by
  cases l with
  | search =>
    exact { searchLoop_sameCommand (P := P) src (e.w.n + 1)
      { e with w := { e.w with attempts := P.attemptInit, fwd := e.w.ip } } with }
  | afterMatch => exact encAfterMatch_sameCommand src e
  | seed | catchUp | emitLiterals | emitMatch | extend | emitMatchlen | lastLiterals | done =>
    exact ⟨rfl, rfl⟩

theorem encRun_sameCommand (src : Nat → Byte) (k : Nat) (r : EncLabel × Enc) :
    r.2.SameCommand (encRun P src k r).2 := by
  induction k generalizing r with
  | zero => exact .refl r.2
  | succ k ih =>
    rw [encRun]
    split
    · exact .refl r.2
    · exact (encStep_sameCommand src r.1 r.2).trans (ih _)

theorem encStart_n (P : Config.Params) (n : Nat) (e : Enc) : (encStart P n e).2.w.n = n := by
  unfold encStart
  split <;> rfl

/-- An encoding ends with the length of its input in `n`. -/
theorem encode_n (src : Nat → Byte) (n : Nat) (w : Work) (t : Tab) :
    (encode P src n w t).2.w.n = n :=
  (encRun_sameCommand src _ _).n.trans (encStart_n P n _)

/-- An encoding ends in the variant of its length. -/
theorem encode_variant (src : Nat → Byte) (n : Nat) (w : Work) (t : Tab) :
    (encode P src n w t).2.w.variant = variantOf n :=
  (encRun_sameCommand src _ _).variant.trans (encStart_variant P n _)

/-- With good arguments a COMPRESS that gives a next state leaves what its encoder came to. -/
theorem Block.compress_eq_compressed {t : Block P} (hargs : s.compressArgs)
    (h : exec .compress ⟨P, s⟩ = .next ⟨P, t⟩) :
    t = s.compressed (encode P s.srcFun s.srcLen.toNat s.work s.tab).2 := by
  have hgood := Block.badCompress_eq_false.2 hargs
  obtain ⟨hbad, -⟩ | ⟨-, -, -, -, ht⟩ := Block.compress_next.1 h
  · simp [hgood] at hbad
  · exact ht

/-- Settles O23: no step writes the variant (`encStep_sameCommand`), so an encoding ends with the one
that `variantOf` selected, and COMPRESS leaves the encoder's registers. -/
theorem variantByLength : Obligations.VariantByLength := by
  refine ⟨fun P src l e => (encStep_sameCommand src l e).variant, fun P => encode_variant,
    fun P s t hargs hexec => ?_⟩
  rw [Block.compress_eq_compressed hargs hexec]
  exact encode_variant s.srcFun s.srcLen.toNat s.work s.tab

/-! ## COMPRESS under its premises -/

theorem streamBytes_length_pos (items : List SeqItem) (last : List Byte) :
    1 ≤ (streamBytes items last).length := by
  induction items with
  | nil =>
    rw [streamBytes, lastBytes_length]
    omega
  | cons q items ih =>
    rw [streamBytes, List.length_append]
    omega

/-- Settles O17: the encoder comes to the listing's stream (`encoderStepsRefineListing`), whose size is
within the bound, so it fits DST, and nothing that the command may read lies among the bytes that change. -/
theorem compressCompletes : Obligations.CompressCompletes := by
  rintro P s ⟨hP, -, hfit⟩ hargs hprem
  obtain ⟨e, he⟩ : ∃ e, e = (encode P s.srcFun s.srcLen.toNat s.work s.tab).2 := ⟨_, rfl⟩
  have hn : e.w.n = s.srcLen.toNat := he ▸ encode_n _ _ _ _
  have hbound : e.out.length ≤ bound s.srcLen.toNat :=
    he ▸ encoderSizeBound P _ _ s.work s.tab hP hfit
  have hstream := (encoderStepsRefineListing P s.srcFun _ s.work s.tab hP hfit).2
  have hexec := Block.compress_completes hargs hprem
  rw [← he] at hstream hexec
  obtain ⟨-, hroom, hdisj⟩ := hprem
  have hfits : e.out.length ≤ s.dst.size := hbound.trans hroom
  refine ⟨s.compressed e, hexec hfits, ?_⟩
  rintro out rfl
  have hpos := streamBytes_length_pos (listingEncode P s.srcFun s.srcLen.toNat).1
    (listingEncode P s.srcFun s.srcLen.toNat).2
  rw [← hstream] at hpos ⊢
  have hends : s.endsWith (s.compressed e) (BitVec.ofNat P.xlen e.out.length) 0 0
      (bound s.srcLen.toNat) := hn ▸ Block.compressed_endsWith (hn ▸ hbound)
  obtain ⟨-, -, -, -, hframe⟩ := id hends
  exact ⟨hpos, hbound, hends, fun k => Block.compressed_dstByte hfits,
    fun _ => Block.srcByte_of_outsideDst (t := s.compressed e) hdisj le_rfl hroom rfl hframe⟩

/-! ## Dispatch -/

/-- A pending write to `x[CMD]` is what the next step carries out. -/
theorem step_of_launching {w : Word P.xlen} {rest : List (HostAction P.xlen)}
    (h : s.launching w rest) : step ⟨P, s⟩ = startCommand w { s with host := rest } :=
  step_of_host h.1 h.2

/-- START runs the command that the word decodes to (`45_commands.md` R280). -/
theorem startCommand_of_decode {w : Word P.xlen} {i : Instr} (h : decodeCommand w = .ok i) :
    startCommand w s = exec i ⟨P, s⟩ := by
  rw [startCommand, h]

/-- Settles O10: a running decoder fetches the sequence at its cursor, and an idle block's host action is
the command's START. -/
theorem stepRunsDecodedInstruction : Obligations.StepRunsDecodedInstruction :=
  ⟨fun _ _ _ hrun hip hdec => step_of_sequence hrun hip hdec,
    fun _ _ _ _ _ hlaunch hdec => (step_of_launching hlaunch).trans (startCommand_of_decode hdec)⟩

/-! ## CHECK_ARGS -/

/-- Registers that hold a handle have at least one bit. -/
theorem width_ne_zero_of_ne_zero {x : Nat} {v : Word x} (h : v ≠ 0) : x ≠ 0 := by
  rintro rfl
  exact h (Subsingleton.elim v 0)

/-- InvalidArgument is told from OK in a register of any width but 0. -/
theorem causeCode_invalidArgument_ne_ok {x : Nat} (hx : x ≠ 0) :
    (causeCode .invalidArgument : Word x) ≠ causeOk := by
  intro h
  have hmod : 3 % 2 ^ x = 0 := by simpa [causeCode, causeOk] using congrArg BitVec.toNat h
  have hdvd : 2 ∣ 3 := (dvd_pow_self 2 hx).trans (Nat.dvd_of_mod_eq_zero hmod)
  omega

/-- COMPRESS ends with InvalidArgument exactly when CHECK_ARGS fails: one that runs leaves STATUS OK. -/
theorem exec_compress_invalid_iff :
    exec .compress ⟨P, s⟩ = .next ⟨P, s.raise .invalidArgument 0⟩ ↔ ¬ s.compressArgs := by
  refine ⟨fun h hargs => ?_, fun hargs => ?_⟩
  · obtain ⟨hhandle, -⟩ := id hargs
    have hstatus := congrArg Block.status (Block.compress_eq_compressed hargs h)
    exact causeCode_invalidArgument_ne_ok (width_ne_zero_of_ne_zero hhandle) hstatus
  · rw [← Block.badCompress_eq_false, Bool.not_eq_false] at hargs
    exact Block.compress_next.2 (.inl ⟨hargs, rfl⟩)

/-- A decoder command ends with InvalidArgument exactly when CHECK_ARGS fails: one that starts leaves the
block running. -/
theorem startDecompress_invalid_iff {p : Phase} (hp : p ≠ .idle) :
    s.startDecompress p = .next ⟨P, s.raise .invalidArgument 0⟩ ↔ ¬ s.decompressArgs := by
  rw [← Block.badDecompress_eq_false, Bool.not_eq_false, Block.startDecompress_next]
  refine ⟨fun h => ?_, fun hbad => .inl ⟨hbad, rfl⟩⟩
  obtain ⟨hbad, -⟩ | ⟨-, -, hstart⟩ := h
  · exact hbad
  · exact absurd (congrArg Block.phase hstart).symm hp

theorem Block.not_compressArgs_iff :
    ¬ s.compressArgs ↔ (s.srcBase = 0 ∨ s.dstBase = 0) ∨ s.srcLen.toInt < 0 ∨
      Config.maxCompressLen P.xlen < s.srcLen.toInt := by
  simp only [Block.compressArgs, not_and_or, not_not, not_le, or_assoc]

theorem Block.not_decompressArgs_iff :
    ¬ s.decompressArgs ↔
      (s.srcBase = 0 ∨ s.dstBase = 0) ∨ s.srcLen.toInt < 0 ∨ s.dstLen.toInt < 0 := by
  simp only [Block.decompressArgs, not_and_or, not_not, not_le, or_assoc]

/-- A word that is not reserved is a command word, which its OP tells (`30_encoding.md` R91, R92). -/
theorem command_of_not_reserved {x : Nat} {w : Word x}
    (h : ¬ (w.extractLsb' 2 (x - 2) ≠ 0 ∨ w.extractLsb' 0 2 = 0)) :
    (decodeCommand w = .ok .compress ∧ w.extractLsb' 0 2 = 1) ∨
      (decodeCommand w = .ok .decompressFixed ∧ w.extractLsb' 0 2 = 2) ∨
      (decodeCommand w = .ok .decompressUnknown ∧ w.extractLsb' 0 2 = 3) := by
  obtain ⟨hrsv, hzero⟩ := not_or.1 h
  have hop (k : Nat) (hk : k < 4) : w.extractLsb' 0 2 = BitVec.ofNat 2 k ↔ w.toNat % 4 = k :=
    commandOp_eq_iff w hk
  have hlt : w.toNat < 4 := (commandRsv_eq_zero_iff w).1 (not_not.1 hrsv)
  have hne : ¬ w.toNat % 4 = 0 := mt (hop 0 (by decide)).2 hzero
  rw [decodeCommand_eq]
  obtain hw | hw | hw : w.toNat = 1 ∨ w.toNat = 2 ∨ w.toNat = 3 := by omega
  · exact .inl ⟨by simp [hw], (hop 1 (by decide)).2 (by omega)⟩
  · exact .inr (.inl ⟨by simp [hw], (hop 2 (by decide)).2 (by omega)⟩)
  · exact .inr (.inr ⟨by simp [hw], (hop 3 (by decide)).2 (by omega)⟩)

/-- Settles O9: a reserved word ends at once (`reservedCommandWords`); any other is one of the three
commands, and the conditions left are what fails of that command's CHECK_ARGS. -/
theorem checkArgs : Obligations.CheckArgs := by
  intro P s w rest hlaunch
  by_cases hreserved : w.extractLsb' 2 (P.xlen - 2) ≠ 0 ∨ w.extractLsb' 0 2 = 0
  · exact iff_of_true (reservedCommandWords P s w rest hlaunch hreserved.symm) (.inl hreserved)
  have hend : { s with host := rest, result := 0, status := 3 } =
      Block.raise { s with host := rest } .invalidArgument 0 := by
    simp [Block.raise, causeCode, hlaunch.1]
  rw [or_iff_right hreserved, step_of_launching hlaunch, hend]
  obtain ⟨hdec, hop⟩ | ⟨hdec, hop⟩ | ⟨hdec, hop⟩ := command_of_not_reserved hreserved <;>
    rw [startCommand_of_decode hdec, hop]
  · exact exec_compress_invalid_iff.trans (Block.not_compressArgs_iff.trans (by simp))
  · exact (startDecompress_invalid_iff (p := .fixed) nofun).trans
      (Block.not_decompressArgs_iff.trans (by simp))
  · exact (startDecompress_invalid_iff (p := .unknown) nofun).trans
      (Block.not_decompressArgs_iff.trans (by simp))

end Sys2Proof.Machine
end

