-- ==== Sys2Proof/Proofs/CommandEnds.lean ====
section
/-! The two ends of a command (`60_exceptions.md` R309, R310) and the sign of what a running decoder
leaves in RESULT (R311): an error's count is a cursor within its bounds, which no negation takes out of
range. -/

namespace Sys2Proof.Machine

variable {P : Config.Params}

/-! ## What the ends write -/

/-- R310 writes the negation reduced modulo `2^XLEN`; the register reduces it. -/
theorem neg32_eq_ofNat_mod {x : Nat} (c : Nat) :
    (neg32 c : Word x) = BitVec.ofNat x ((2 ^ x - c % 2 ^ x) % 2 ^ x) := by
  refine BitVec.eq_of_toNat_eq ?_
  rw [neg32, BitVec.toNat_ofNat, BitVec.toNat_ofNat, Nat.mod_mod]

/-- Settles O5: the records are the definitions of the two ends, with RESULT as `neg32_eq_ofNat_mod`
writes it. -/
theorem commandEndsWriteResultAndStatus : Obligations.CommandEndsWriteResultAndStatus := by
  intro P s v c negated
  have hraise (k : Cause) : s.raise k c =
      { s with result := negated, status := causeCode k, phase := .idle } := by
    rw [Block.raise, neg32_eq_ofNat_mod]
  have hinvalid : s.raise .invalidArgument 0 =
      { s with result := 0, status := 3, phase := .idle } := by
    rw [Block.raise, neg32_zero]
    rfl
  exact ⟨rfl, hraise .outputOverflow, hraise .backReferenceUnderflow, hinvalid,
    hraise .sourceExhausted⟩

/-- Settles O11: the step of an idle block takes the oldest host action, and there is none. -/
theorem idleBlockHoldsState : Obligations.IdleBlockHoldsState := by
  intro P s hidle hhost
  rw [step_mk, Block.step_idle hidle]
  exact idleStep_next.2 (.inl ⟨hhost, rfl⟩)

/-! ## Where the stream cursor can be -/

/-- The step keeps the frame and does not take the stream cursor back. Where it raises, the cursors are
within their bounds as well, and the cause is a decoder's. -/
structure KeepsCursor (f : Block P → Flow P) : Prop extends KeepsFrame f where
  go_ip : ∀ {s t}, f s = .go t → s.work.ip ≤ t.work.ip
  raised_at : ∀ {s t c}, f s = .raised c t → s.cursorsIn →
    t.cursorsIn ∧ s.work.ip ≤ t.work.ip ∧ c ≠ .invalidArgument

theorem KeepsCursor.andThen {f k : Block P → Flow P} (hf : KeepsCursor f) (hk : KeepsCursor k) :
    KeepsCursor fun s => (f s).andThen k where
  toKeepsFrame := hf.toKeepsFrame.andThen hk.toKeepsFrame
  go_ip h := by
    obtain ⟨u, hfu, hku⟩ := Flow.andThen_eq_go.1 h
    exact (hf.go_ip hfu).trans (hk.go_ip hku)
  raised_at h hs := by
    obtain hfr | ⟨u, hfu, hku⟩ := Flow.andThen_eq_raised.1 h
    · exact hf.raised_at hfr hs
    · obtain ⟨hin, hip, hc⟩ := hk.raised_at hku ((hf.go hfu).2 hs)
      exact ⟨hin, (hf.go_ip hfu).trans hip, hc⟩

/-- DEC_EXT raises at the read limit at the latest. -/
theorem decExt_keepsCursor {set : Nat → Block P → Block P} (hframe : KeepsFrame (decExt set))
    (hset : ∀ v s, (set v s).work.ip = s.work.ip) : KeepsCursor (decExt set) where
  toKeepsFrame := hframe
  go_ip h := by
    obtain ⟨v, k, -, rfl⟩ := decExt_go.1 h
    rw [hset]
    exact Nat.le_add_right _ _
  raised_at {s t c} h hs := by
    obtain ⟨-, hlen, rfl, rfl⟩ := decExt_raised.1 h
    have hip : s.work.ip + s.unread.length ≤ s.work.ilim := by
      rw [hlen, Nat.add_sub_of_le hs.1]
    exact ⟨⟨hip, hs.2⟩, Nat.le_add_right _ _, nofun⟩

theorem litShort_keepsCursor (ll : BitVec 4) : KeepsCursor (P := P) (litShort ll) where
  toKeepsFrame := litShort_keepsFrame ll
  go_ip := by
    rintro s _ ⟨⟩
    exact le_rfl
  raised_at := nofun

theorem matchShort_keepsCursor (ml : BitVec 4) : KeepsCursor (P := P) (matchShort ml) where
  toKeepsFrame := matchShort_keepsFrame ml
  go_ip := by
    rintro s _ ⟨⟩
    exact le_rfl
  raised_at := nofun

/-- The extension is read with `L` set to the saturated nibble, which no cursor depends on. -/
theorem litExtended_keepsCursor : KeepsCursor (P := P) litExtended :=
  have hext : KeepsCursor (P := P) (decExt setLitLen) :=
    decExt_keepsCursor (decExt_keepsFrame fun v s => ⟨setLitLen_frame v s, id⟩) fun _ _ => rfl
  { toKeepsFrame := litExtended_keepsFrame
    go_ip := fun {s _} h => hext.go_ip (s := setLitLen Config.nibbleMax s) h
    raised_at := fun {s _ _} h hs => hext.raised_at (s := setLitLen Config.nibbleMax s) h hs }

theorem matchExtended_keepsCursor : KeepsCursor (P := P) matchExtended :=
  decExt_keepsCursor matchExtended_keepsFrame fun _ _ => rfl

theorem readLitLen_keepsCursor (len : Nat) : KeepsCursor (P := P) (readLitLen len) := by
  unfold readLitLen
  split
  · exact litShort_keepsCursor _
  · exact litExtended_keepsCursor

theorem readMatchLen_keepsCursor (code : Nat) : KeepsCursor (P := P) (readMatchLen code) := by
  unfold readMatchLen
  split
  · exact matchShort_keepsCursor _
  · exact matchExtended_keepsCursor

theorem readOffset_keepsCursor : KeepsCursor (P := P) readOffset where
  toKeepsFrame := readOffset_keepsFrame
  go_ip h := by
    obtain ⟨v, -, -, -, rfl⟩ := readOffset_go.1 h
    exact Nat.le_add_right _ _
  raised_at {s t c} h hs := by
    obtain ⟨-, rfl, rfl⟩ | ⟨v, hlim, -, -, rfl, rfl⟩ := readOffset_raised.1 h
    · exact ⟨hs, le_rfl, nofun⟩
    · exact ⟨⟨hlim, hs.2⟩, Nat.le_add_right _ _, nofun⟩

theorem copyLiterals_keepsCursor : KeepsCursor (P := P) copyLiterals where
  toKeepsFrame := copyLiterals_keepsFrame
  go_ip h := by
    obtain ⟨m, -, -, -, -, -, rfl⟩ := copyLiterals_go.1 h
    exact Nat.le_add_right _ _
  raised_at {s t c} h hs := by
    obtain ⟨rfl, ⟨-, rfl⟩ | ⟨-, -, rfl⟩⟩ := copyLiterals_raised.1 h
    · exact ⟨hs, le_rfl, nofun⟩
    · exact ⟨hs, le_rfl, nofun⟩

theorem copyMatch_keepsCursor : KeepsCursor (P := P) copyMatch where
  toKeepsFrame := copyMatch_keepsFrame
  go_ip h := by
    obtain ⟨-, -, ⟨-, rfl⟩ | ⟨-, m, -, rfl⟩⟩ := copyMatch_go.1 h
    · exact le_rfl
    · exact le_rfl
  raised_at {s t c} h hs := by
    obtain ⟨-, rfl, rfl⟩ := copyMatch_raised.1 h
    exact ⟨hs, le_rfl, nofun⟩

theorem literalSteps_keepsCursor (len : Nat) :
    KeepsCursor (P := P) fun s => (readLitLen len s).andThen copyLiterals :=
  (readLitLen_keepsCursor len).andThen copyLiterals_keepsCursor

theorem seqSteps_keepsCursor (len code : Nat) :
    KeepsCursor (P := P) (seqSteps (readLitLen len) (readMatchLen code)) :=
  (((literalSteps_keepsCursor len).andThen readOffset_keepsCursor).andThen
    (readMatchLen_keepsCursor code)).andThen copyMatch_keepsCursor

/-! ## Where a decoder command ends -/

/-- The command that runs in `s` ends in `t`, with its cursors within their bounds: with success or with
one of the decoder's causes, behind a control byte at least where that is not SourceExhausted. -/
def Block.EndsInBounds (s t : Block P) : Prop :=
  ∃ u, s.Frame u ∧ u.cursorsIn ∧
    (t = u.decodeFinish ∨ ∃ c, t = u.decodeRaise c ∧
      (c = .sourceExhausted ∨ (c ≠ .invalidArgument ∧ 0 < u.work.ip)))

/-- The steps behind a control byte, where they raise. -/
theorem KeepsCursor.raised_endsInBounds {f : Block P → Flow P} (hf : KeepsCursor f) {b : Byte}
    {s u : Block P} {c : Cause} (hip : s.work.ip < s.work.ilim) (hs : s.cursorsIn)
    (h : f (takeToken b s) = .raised c u) : s.EndsInBounds (u.decodeRaise c) := by
  obtain ⟨hin, hle, hc⟩ := hf.raised_at h ⟨hip, hs.2⟩
  exact ⟨u, (takeToken_frame b s).trans (hf.raised h), hin,
    .inr ⟨c, rfl, .inr ⟨hc, (Nat.succ_pos _).trans_le hle⟩⟩⟩

/-- A sequence that stops the decoder raises, or is terminal. -/
theorem exec_sequenceForm_endsInBounds {terminal : Bool} {b : Byte} {s t : Block P}
    (hrun : s.phase ≠ .idle) (hip : s.work.ip < s.work.ilim) (hs : s.cursorsIn)
    (h : exec (sequenceForm terminal b) ⟨P, s⟩ = .next ⟨P, t⟩) (hend : t.phase = .idle) :
    s.EndsInBounds t := by
  cases terminal with
  | false =>
    have hsteps := seqSteps_keepsCursor (P := P) (b.toNat / 16) (b.toNat % 16)
    rw [exec_sequenceForm_false] at h
    obtain hgo | ⟨c, u, hraised, rfl⟩ := Flow.outcome_eq_next.1 h
    · have hframe := (takeToken_frame b s).trans (hsteps.go hgo).1
      exact absurd (hframe.phase.symm.trans hend) hrun
    · exact hsteps.raised_endsInBounds hip hs hraised
  | true =>
    have hsteps := literalSteps_keepsCursor (P := P) (b.toNat / 16)
    obtain ⟨tok, hexec⟩ := exec_sequenceForm_true b s
    rw [hexec] at h
    obtain ⟨u, hgo, rfl⟩ | ⟨c, u, hraised, rfl⟩ := Flow.terminal_eq_next.1 h
    · obtain ⟨hframe, hin⟩ := hsteps.go hgo
      exact ⟨u, (takeToken_frame tok s).trans hframe, hin ⟨hip, hs.2⟩, .inl rfl⟩
    · exact hsteps.raised_endsInBounds hip hs hraised

/-- A running decoder that stops ends at the top of its loop, or in a sequence. -/
theorem step_endsInBounds {s t : Block P} (hrun : s.phase ≠ .idle) (hs : s.cursorsIn)
    (h : step ⟨P, s⟩ = .next ⟨P, t⟩) (hend : t.phase = .idle) : s.EndsInBounds t := by
  rw [step_mk, Block.step_running hrun] at h
  obtain hended | ⟨i, hseq, hexec⟩ := decoderStep_next.1 h
  · obtain ⟨-, -, rfl⟩ | ⟨-, -, rfl⟩ := Block.fetch_ended.1 hended
    · exact ⟨s, .refl s, hs, .inl rfl⟩
    · exact ⟨s, .refl s, hs, .inr ⟨_, rfl, .inl rfl⟩⟩
  · obtain ⟨hip, hdec⟩ := Block.fetch_sequence.1 hseq
    obtain ⟨b, rest, -, rfl⟩ := decodeSequence_ok.1 hdec
    exact exec_sequenceForm_endsInBounds hrun hip hs hexec hend

/-! ## The sign of RESULT -/

theorem ofNat_toInt_nonneg {x v : Nat} (h : v ≤ Config.maxLen x) :
    0 ≤ (BitVec.ofNat x v).toInt := by
  have hv : (BitVec.ofNat x v).toNat ≤ v := by
    rw [BitVec.toNat_ofNat]
    exact Nat.mod_le _ _
  unfold Config.maxLen at h
  rw [BitVec.toInt_eq_toNat_of_lt]
  · exact Int.natCast_nonneg _
  · cases x with
    | zero => omega
    | succ x =>
      have hpow : 2 ^ (x + 1) = 2 * 2 ^ x := Nat.pow_succ'
      have hpos : 0 < 2 ^ x := Nat.two_pow_pos x
      rw [Nat.add_sub_cancel] at h
      omega

theorem neg32_toInt_nonpos {x c : Nat} (h : c ≤ Config.maxLen x) : (neg32 c : Word x).toInt ≤ 0 := by
  obtain rfl | hpos := Nat.eq_zero_or_pos c
  · rw [neg32_zero]
    exact BitVec.toInt_zero.le
  · exact (neg32_toInt_neg hpos h).le

/-- Settles O6: the command ends with its cursors within bounds of at most MAX_LEN, behind a control byte
when the output overflows or an offset underflows. -/
theorem signOfResultAtDecoderEnd : Obligations.SignOfResultAtDecoderEnd := by
  rintro P s t hrun ⟨-, -, hilim, hoend, hip, hop⟩ h hend
  obtain ⟨u, hframe, ⟨huip, huop⟩, hu⟩ := step_endsInBounds hrun ⟨hip, hop⟩ h hend
  have hiple : u.work.ip ≤ Config.maxLen P.xlen := huip.trans (hframe.ilim.trans_le hilim)
  have hople : u.work.op ≤ Config.maxLen P.xlen := huop.trans (hframe.oend.trans_le hoend)
  obtain rfl | ⟨c, rfl, hc⟩ := hu
  · have hvalue : u.finishValue ≤ Config.maxLen P.xlen := by
      unfold Block.finishValue
      split
      · exact hople
      · exact hiple
    exact .inl ⟨rfl, ofNat_toInt_nonneg hvalue⟩
  · cases c with
    | sourceExhausted => exact .inr (.inr ⟨rfl, neg32_toInt_nonpos hiple⟩)
    | outputOverflow =>
      have hpos : 0 < u.work.ip := by simpa using hc
      exact .inr (.inl ⟨.inl rfl, neg32_toInt_neg hpos hiple⟩)
    | backReferenceUnderflow =>
      have hpos : 0 < u.work.ip := by simpa using hc
      exact .inr (.inl ⟨.inr rfl, neg32_toInt_neg hpos hiple⟩)
    | invalidArgument => simp at hc

end Sys2Proof.Machine
end

