-- ==== Sys2Proof/Proofs/DecoderErrors.lean ====
section
/-! The errors of a running decoder (`60_exceptions.md` R301, R302, R304) by the check that finds them, in
the order of R306: the checks up to the literal run, which either kind of sequence makes, and the checks
behind the literals, which stand in DST by then (R307). -/

namespace Sys2Proof.Machine

variable {P : Config.Params} {s : Block P}

/-! ## How an error ends the command -/

/-- Where steps that keep the frame raise, the command ends with the cursor they have come to. -/
theorem Block.Frame.endsWith_decodeRaise {u : Block P} (h : s.Frame u) (c : Cause) :
    s.endsWith (u.decodeRaise c) (neg32 u.work.ip) (causeCode c) s.work.op s.work.oend ∧
      (u.decodeRaise c).tab = s.tab := by
  refine ⟨⟨rfl, rfl, rfl, Block.sameSetup_trans h.setup ⟨rfl, rfl, rfl, rfl, rfl, rfl, rfl⟩,
    fun a ha => ?_⟩, h.tab⟩
  have hout : s.outsideDst s.work.op (min s.work.oend s.dst.size) a := by
    unfold Block.outsideDst at ha ⊢
    omega
  rw [Block.decodeRaise_eq, u.read_decodeEnd _ _ a (h.outside hout), h.read a hout]

/-! ## The sequence at the cursor -/

/-- A control byte and its literal extension at the cursor decide the form (`30_encoding.md` R102,
R103). -/
theorem step_of_controlByte {len code : Nat} (hrun : s.phase ≠ .idle)
    (hstream : s.streamHas (controlByte len code :: extOf len)) :
    step ⟨P, s⟩ = exec
      (if s.work.oend < s.work.op + len + P.decMargin ∨
          (s.isUnknown = true ∧ s.work.ip + 1 + litext len + len = s.work.ilim)
        then lastForm len (BitVec.ofNat 4 (nibble code))
        else seqForm len (code + 4)) ⟨P, s⟩ := by
  obtain ⟨rest, hunread⟩ := Block.unread_of_streamAt (Block.streamHas_iff.1 hstream)
  have hip : s.work.ip < s.work.ilim := by
    have hlim := hstream.2
    rw [List.length_cons] at hlim
    omega
  refine step_of_sequence hrun hip ?_
  rw [hunread, List.cons_append]
  exact decodeSequence_controlByte P s.context len code rest

/-! ## Errors up to the literal run -/

/-- The steps up to the literal run, where one of its two checks fails. -/
theorem literalSteps_raised {len : Nat} {c : Cause} (tok : Byte)
    (hstream : s.streamAt (s.work.ip + 1) (extOf len))
    (hcheck : (s.work.oend < s.work.op + len ∧ c = .outputOverflow) ∨
      (s.work.op + len ≤ s.work.oend ∧ s.work.ilim < s.work.ip + 1 + litext len + len ∧
        c = .sourceExhausted)) :
    (readLitLen len (takeToken tok s)).andThen copyLiterals =
      .raised c (setLitLen len (advance (litext len) (takeToken tok s))) := by
  obtain ⟨rest, hunread⟩ := Block.unread_of_streamAt (s := takeToken tok s)
    (Block.streamAt_congr hstream rfl fun _ _ => rfl)
  exact Flow.andThen_eq_raised.2 (.inr ⟨_, readLitLen_go hunread, copyLiterals_raised.2 ⟨rfl, hcheck⟩⟩)

/-- A literal run that fails one of its checks ends the command, whichever kind of sequence it is in. -/
theorem step_of_literals_raised {len code : Nat} {c : Cause} (hrun : s.phase ≠ .idle)
    (hstream : s.streamHas (controlByte len code :: extOf len))
    (hcheck : (s.work.oend < s.work.op + len ∧ c = .outputOverflow) ∨
      (s.work.op + len ≤ s.work.oend ∧ s.work.ilim < s.work.ip + 1 + litext len + len ∧
        c = .sourceExhausted)) :
    ∃ t, step ⟨P, s⟩ = .next ⟨P, t⟩ ∧
      s.endsWith t (neg32 (s.work.ip + 1 + litext len)) (causeCode c) s.work.op s.work.oend ∧
      t.tab = s.tab := by
  have hext := Block.streamAt_cons (Block.streamHas_iff.1 hstream)
  have hframe (tok : Byte) : s.Frame (setLitLen len (advance (litext len) (takeToken tok s))) :=
    (takeToken_frame tok s).trans ((advance_frame _ _).trans (setLitLen_frame _ _))
  rw [step_of_controlByte hrun hstream]
  split
  · obtain ⟨tok, hexec⟩ := exec_lastForm len (BitVec.ofNat 4 (nibble code)) s
    rw [hexec, literalSteps_raised tok hext hcheck]
    exact ⟨_, rfl, (hframe tok).endsWith_decodeRaise c⟩
  · rw [exec_seqForm, seqSteps_eq_andThen, literalSteps_raised _ hext hcheck]
    exact ⟨_, rfl, (hframe _).endsWith_decodeRaise c⟩

/-- Settles O32: the check of the copy is its first, and the step comes to it behind the extension. -/
theorem literalRunOverflow : Obligations.LiteralRunOverflow :=
  ⟨fun _ _ hover => copyLiterals_raised.2 ⟨rfl, .inl ⟨hover, rfl⟩⟩,
    fun _ _ _ _ hrun hstream hover => step_of_literals_raised hrun hstream (.inl ⟨hover, rfl⟩)⟩

/-! ## Extensions that the read limit cuts off -/

/-- Bytes of the stream that end at the read limit are all that is unread. -/
theorem Block.unread_of_streamAt_end {bs : List Byte} (h : s.streamAt s.work.ip bs)
    (hend : s.work.ilim = s.work.ip + bs.length) : s.unread = bs := by
  rw [Block.unread, hend, Nat.add_sub_cancel_left, h.1]

/-- DEC_EXT on bytes of 255 up to the read limit (`42_length_codec.md` R175). -/
theorem decExt_cut {j : Nat} (set : Nat → Block P → Block P)
    (hstream : s.streamAt s.work.ip (List.replicate j 255)) (hend : s.work.ilim = s.work.ip + j) :
    decExt set s = .raised .sourceExhausted (advance j s) := by
  have hunread := Block.unread_of_streamAt_end hstream (by rw [hend, List.length_replicate])
  have hj : s.work.ilim - s.work.ip = j := by rw [hend, Nat.add_sub_cancel_left]
  have hraised := (extensionDecoded P set s).2
  rw [hj] at hraised
  exact hraised hunread

theorem readLitLen_cut {j : Nat} (hstream : s.streamAt s.work.ip (List.replicate j 255))
    (hend : s.work.ilim = s.work.ip + j) :
    readLitLen 15 s = .raised .sourceExhausted (advance j (setLitLen 15 s)) :=
  decExt_cut (s := setLitLen 15 s) setLitLen (Block.streamAt_congr hstream rfl fun _ _ => rfl) hend

theorem readMatchLen_cut {j : Nat} (hstream : s.streamAt s.work.ip (List.replicate j 255))
    (hend : s.work.ilim = s.work.ip + j) :
    readMatchLen 15 s = .raised .sourceExhausted (advance j s) :=
  decExt_cut setMatchLen hstream hend

/-- With its literal extension cut off the look-ahead finds no length, and the sequence is read as SEQ
(log 6). -/
theorem step_of_literalExtension_cut {code j : Nat} (hrun : s.phase ≠ .idle)
    (hstream : s.streamHas (controlByte 15 code :: List.replicate j 255))
    (hend : s.work.ilim = s.work.ip + 1 + j) :
    step ⟨P, s⟩ = (seqSteps (readLitLen 15) (readMatchLen code)
      (takeToken (controlByte 15 code) s)).outcome := by
  have hunread := Block.unread_of_streamAt_end (Block.streamHas_iff.1 hstream) (by
    rw [hend, List.length_cons, List.length_replicate]
    omega)
  have hterminal : terminalAt P s.context (controlByte 15 code) (List.replicate j 255) = false := by
    rw [terminalAt, controlByte_eq_token, tokenLL_token, shortNibble_nibble,
      extSum_replicate_continue]
    rfl
  have hdec : decodeSequence P s.context s.unread = .ok (seqForm 15 (code + 4)) := by
    rw [hunread, decodeSequence, hterminal, sequenceForm_false_controlByte]
    rfl
  rw [step_of_sequence hrun (by omega) hdec, exec_seqForm]

/-- Settles O35, by R306's checks 1, 2 and 4: at the top of the loop, in DEC_EXT, and at the literal run. -/
theorem sourceExhaustedBeforeLiterals : Obligations.SourceExhaustedBeforeLiterals := by
  intro P s
  refine ⟨fun hphase hlim => ?_, fun code j hrun hstream hlim => ?_,
    fun len code hrun hstream hroom hlim => ?_⟩
  · have hfixed : s.isUnknown = false := by
      rw [Block.isUnknown, hphase]
      rfl
    have hfetch := Block.fetch_ended.2 (.inr ⟨hfixed, hlim, rfl⟩)
    rw [step_mk, Block.step_running (by rw [hphase]; decide)]
    exact ⟨_, decoderStep_next.2 (.inl hfetch), (Block.Frame.refl s).endsWith_decodeRaise _⟩
  · have hext := Block.streamAt_cons (Block.streamHas_iff.1 hstream)
    have hcut := readLitLen_cut (s := takeToken (controlByte 15 code) s) (j := j)
      (Block.streamAt_congr hext rfl fun _ _ => rfl) hlim
    have hframe := (takeToken_frame _ s).trans ((readLitLen_keepsCursor 15).raised hcut)
    rw [step_of_literalExtension_cut hrun hstream hlim, seqSteps_eq_andThen, hcut, hlim]
    exact ⟨_, rfl, hframe.endsWith_decodeRaise _⟩
  · exact step_of_literals_raised hrun hstream (.inr ⟨hroom, hlim, rfl⟩)

/-! ## Behind the literal run -/

/-- The block `u` stands behind the literal run of the sequence at the cursor of `s`: the run is in DST,
and the stream is what it was. -/
structure Block.BehindLiterals (s : Block P) (lits : List Byte) (u : Block P) : Prop where
  frame : s.Frame u
  ip : u.work.ip = s.work.ip + 1 + litext lits.length + lits.length
  op : u.work.op = s.work.op + lits.length
  written : s.literalsWritten u lits
  stream : ∀ j, j < s.work.ilim → u.srcByte j = s.srcByte j

/-- The literal run of a sequence goes through where the stream holds it and DST takes it. -/
theorem literalSteps_behind {lits : List Byte} (tok : Byte)
    (hstream : s.streamAt (s.work.ip + 1) (extOf lits.length ++ lits))
    (htakes : s.dstTakes lits.length) :
    ∃ u, (readLitLen lits.length (takeToken tok s)).andThen copyLiterals = .go u ∧
      s.BehindLiterals lits u := by
  obtain ⟨mem, hgo, hbytes, hmem⟩ := literalSteps_go tok hstream htakes
  obtain ⟨hoend, hsize, hdisj⟩ := htakes
  have hframe := ((literalSteps_keepsCursor lits.length).go hgo).1
  refine ⟨_, hgo, (takeToken_frame tok s).trans hframe, rfl, rfl, fun k hk => ?_, fun j hj => ?_⟩
  · rw [Block.dstByte_of_lt (s := s) (s.afterLiterals tok lits.length mem) rfl (by omega)]
    exact hbytes k hk
  · exact Block.srcByte_of_outsideDst (t := s.afterLiterals tok lits.length mem) hdisj hoend hsize rfl
      hmem hj

/-- An error behind the literals leaves them in DST. -/
theorem Block.BehindLiterals.literalsWritten_decodeRaise {lits : List Byte} {u v : Block P}
    (h : s.BehindLiterals lits u) (hv : u.Frame v) (c : Cause) :
    s.literalsWritten (v.decodeRaise c) lits := by
  intro k hk
  have hdst : (v.decodeRaise c).dst = u.dst := hv.dst
  have hbefore : u.dst.base + (s.work.op + k) < u.dst.base + u.work.op := by
    rw [h.op]
    omega
  have hread := v.read_decodeEnd (neg32 v.work.ip) (causeCode c) (u.dst.base + (s.work.op + k))
    (hv.outside (.inl hbefore))
  have hmem : (v.decodeRaise c).mem.read (u.dst.base + (s.work.op + k)) =
      u.mem.read (u.dst.base + (s.work.op + k)) := hread.trans (hv.read _ (.inl hbefore))
  rw [Block.dstByte_congr hdst hmem, h.written k hk]

/-- The steps of a sequence with a match, behind its literals. -/
def matchSteps (code : Nat) (u : Block P) : Flow P :=
  ((readOffset u).andThen (readMatchLen code)).andThen copyMatch

theorem seqSteps_eq_andThen_matchSteps (len code : Nat) (s : Block P) :
    seqSteps (readLitLen len) (readMatchLen code) s =
      ((readLitLen len s).andThen copyLiterals).andThen (matchSteps code) :=
  seqSteps_eq_andThen _ _ s

theorem matchSteps_keepsFrame (code : Nat) : KeepsFrame (P := P) (matchSteps code) :=
  (readOffset_keepsFrame.andThen (readMatchLen_keepsCursor code).toKeepsFrame).andThen
    copyMatch_keepsFrame

/-- A sequence with these literals at the cursor, and `bs` behind them. -/
theorem Block.streamHas_literals {lits bs : List Byte} {code : Nat}
    (h : s.streamHas (controlByte lits.length code :: extOf lits.length ++ lits ++ bs)) :
    s.streamHas (controlByte lits.length code :: extOf lits.length) ∧
      s.streamAt (s.work.ip + 1) (extOf lits.length ++ lits) ∧
      s.streamAt (s.work.ip + 1 + litext lits.length + lits.length) bs := by
  obtain ⟨hrun, hbehind⟩ := Block.streamAt_append.1 (Block.streamHas_iff.1 h)
  refine ⟨(Block.streamAt_append.1 hrun).1, Block.streamAt_cons hrun, ?_⟩
  have hlen : s.work.ip + (controlByte lits.length code :: extOf lits.length ++ lits).length =
      s.work.ip + 1 + litext lits.length + lits.length := by
    rw [List.length_append, List.length_cons, extOf_length]
    omega
  rwa [hlen] at hbehind

theorem Block.BehindLiterals.streamAt {lits bs : List Byte} {u : Block P}
    (h : s.BehindLiterals lits u)
    (hs : s.streamAt (s.work.ip + 1 + litext lits.length + lits.length) bs) :
    u.streamAt u.work.ip bs := by
  rw [h.ip]
  exact Block.streamAt_congr hs h.frame.ilim h.stream

/-- Outside the margin the sequence is read as SEQ where, in an unknown-size command, the run does not end
at the read limit (`44_decoder.md` R236, R239). Where its steps behind the literals raise, the command
ends there. -/
theorem step_of_matchSteps_raised {lits bs : List Byte} {code ip' : Nat} {c : Cause}
    (hrun : s.phase ≠ .idle)
    (hstream : s.streamHas (controlByte lits.length code :: extOf lits.length ++ lits ++ bs))
    (htakes : s.dstTakes lits.length)
    (hmargin : s.work.op + lits.length + P.decMargin ≤ s.work.oend)
    (hmore : s.phase = .fixed ∨ s.work.ip + 1 + litext lits.length + lits.length < s.work.ilim)
    (hraised : ∀ u, s.BehindLiterals lits u → u.streamAt u.work.ip bs →
      ∃ v, matchSteps code u = .raised c v ∧ v.work.ip = ip') :
    ∃ t, step ⟨P, s⟩ = .next ⟨P, t⟩ ∧
      s.endsWith t (neg32 ip') (causeCode c) s.work.op s.work.oend ∧ t.tab = s.tab ∧
      s.literalsWritten t lits := by
  obtain ⟨hcontrol, hfields, hbehind⟩ := Block.streamHas_literals hstream
  have hseq : ¬ (s.work.oend < s.work.op + lits.length + P.decMargin ∨
      (s.isUnknown = true ∧ s.work.ip + 1 + litext lits.length + lits.length = s.work.ilim)) := by
    rintro (hmargin' | ⟨hunknown, hlim⟩)
    · exact Nat.not_lt.2 hmargin hmargin'
    · rw [Block.isUnknown, beq_iff_eq] at hunknown
      rw [hunknown] at hmore
      exact hmore.elim nofun fun hlt => Nat.ne_of_lt hlt hlim
  obtain ⟨u, hgo, hu⟩ := literalSteps_behind (controlByte lits.length code) hfields htakes
  obtain ⟨v, hv, rfl⟩ := hraised u hu (hu.streamAt hbehind)
  have hframe := (matchSteps_keepsFrame code).raised hv
  obtain ⟨hends, htab⟩ := (hu.frame.trans hframe).endsWith_decodeRaise c
  rw [step_of_controlByte hrun hcontrol, if_neg hseq, exec_seqForm, seqSteps_eq_andThen_matchSteps,
    hgo, Flow.go_andThen, hv]
  exact ⟨_, rfl, hends, htab, hu.literalsWritten_decodeRaise hframe c⟩

/-- With an offset in the stream the literal run does not end at the read limit. -/
theorem step_of_matchSteps_raised_of_offset {lits rest : List Byte} {offset code ip' : Nat} {c : Cause}
    (hrun : s.phase ≠ .idle)
    (hstream : s.streamHas
      (controlByte lits.length code :: extOf lits.length ++ lits ++ (le16 offset ++ rest)))
    (htakes : s.dstTakes lits.length)
    (hmargin : s.work.op + lits.length + P.decMargin ≤ s.work.oend)
    (hraised : ∀ u, s.BehindLiterals lits u → u.streamAt u.work.ip (le16 offset ++ rest) →
      ∃ v, matchSteps code u = .raised c v ∧ v.work.ip = ip') :
    ∃ t, step ⟨P, s⟩ = .next ⟨P, t⟩ ∧
      s.endsWith t (neg32 ip') (causeCode c) s.work.op s.work.oend ∧ t.tab = s.tab ∧
      s.literalsWritten t lits := by
  obtain ⟨-, -, hbehind⟩ := Block.streamHas_literals hstream
  have hlim := (Block.streamAt_append.1 hbehind).1.2
  exact step_of_matchSteps_raised hrun hstream htakes hmargin
    (.inr ((Nat.lt_add_of_pos_right (Nat.succ_pos _)).trans_le hlim)) hraised

/-! ## The checks behind the literals -/

/-- The block behind an offset that has been read. -/
def Block.afterOffset (s : Block P) (offset : Nat) : Block P :=
  advance 2 { s with work := { s.work with offset := offset } }

/-- The two bytes of an offset, whatever it is compared with. -/
theorem srcLE_of_streamAt {offset : Nat} (hlt : offset < 65536)
    (hstream : s.streamAt s.work.ip (le16 offset)) :
    s.srcLE Config.offsetBytes s.work.ip = some offset := by
  obtain ⟨v, -, hread, -, heq⟩ := readOffset_go.1 (readOffset_completes
    (s := { s with work := { s.work with op := offset } }) hlt hstream le_rfl)
  have hv : offset = v := congrArg (fun t : Block P => t.work.offset) heq
  exact hv ▸ hread

/-- R306's check 5. -/
theorem matchSteps_of_short {code : Nat} (h : s.work.ilim < s.work.ip + 2) :
    matchSteps code s = .raised .sourceExhausted s := by
  rw [matchSteps, readOffset_raised.2 (.inl ⟨h, rfl, rfl⟩), Flow.raised_andThen, Flow.raised_andThen]

/-- R306's check 6. -/
theorem matchSteps_of_underflow {offset code : Nat} (hlt : offset < 65536)
    (hstream : s.streamAt s.work.ip (le16 offset)) (hoffset : s.work.op < offset) :
    matchSteps code s = .raised .backReferenceUnderflow (s.afterOffset offset) := by
  have hread := srcLE_of_streamAt hlt hstream
  rw [matchSteps, readOffset_raised.2 (.inr ⟨offset, hstream.2, hread, hoffset, rfl, rfl⟩),
    Flow.raised_andThen, Flow.raised_andThen]
  rfl

/-- R306's check 7. -/
theorem matchSteps_of_extension_cut {offset j : Nat} (hlt : offset < 65536)
    (hstream : s.streamAt s.work.ip (le16 offset ++ List.replicate j 255))
    (hoffset : offset ≤ s.work.op) (hend : s.work.ilim = s.work.ip + 2 + j) :
    matchSteps 15 s = .raised .sourceExhausted (advance j (s.afterOffset offset)) := by
  obtain ⟨hbytes, hext⟩ := Block.streamAt_append.1 hstream
  have hcut := readMatchLen_cut (s := s.afterOffset offset)
    (Block.streamAt_congr hext rfl fun _ _ => rfl) hend
  have hgo : readOffset s = .go (s.afterOffset offset) := readOffset_completes hlt hbytes hoffset
  rw [matchSteps, hgo, Flow.go_andThen, hcut, Flow.raised_andThen]

/-- R306's check 8. -/
theorem matchSteps_of_overflow {offset code : Nat} (hlt : offset < 65536)
    (hstream : s.streamAt s.work.ip (le16 offset ++ extOf code)) (hoffset : offset ≤ s.work.op)
    (hover : s.work.oend < s.work.op + (code + 4)) :
    matchSteps code s = .raised .outputOverflow (s.afterFields offset code) := by
  rw [matchSteps, matchFields_go hlt hstream hoffset]
  exact copyMatch_raised.2 ⟨hover, rfl, rfl⟩

/-! ## Errors behind the literal run -/

/-- Settles O36, by R306's checks 5 and 7. -/
theorem sourceExhaustedAfterLiterals : Obligations.SourceExhaustedAfterLiterals := by
  intro P s lits hrun htakes hmargin
  refine ⟨fun code hstream hlim => ?_, fun offset j hoffset hlt hstream hlim => ?_⟩
  · rw [← List.append_nil (_ ++ lits)] at hstream
    refine step_of_matchSteps_raised hrun hstream htakes hmargin ?_
      fun u hu _ => ⟨u, matchSteps_of_short ?_, hu.ip⟩
    · exact hlim.symm.imp And.left fun h => by omega
    · rw [hu.ip, hu.frame.ilim]
      omega
  · rw [List.append_assoc] at hstream
    refine step_of_matchSteps_raised_of_offset hrun hstream htakes hmargin fun u hu hbytes =>
      ⟨_, matchSteps_of_extension_cut hlt hbytes (hu.op ▸ hoffset) ?_, ?_⟩
    · rw [hu.ip, hu.frame.ilim, hlim]
    · rw [hlim, ← hu.ip]
      rfl

/-- Settles O34, by R306's check 6, which comes before anything behind the offset is read. -/
theorem backReferenceUnderflow : Obligations.BackReferenceUnderflow := by
  intro P s lits offset code hrun hlt hstream htakes hmargin hoffset
  rw [← List.append_nil (le16 offset)] at hstream
  refine step_of_matchSteps_raised_of_offset hrun hstream htakes hmargin fun u hu hbytes =>
    ⟨_, matchSteps_of_underflow hlt (Block.streamAt_append.1 hbytes).1 (hu.op ▸ hoffset), ?_⟩
  rw [← hu.ip]
  rfl

/-- Settles O33, by R306's check 8, the first that the copy of the match makes. -/
theorem matchOverflow : Obligations.MatchOverflow := by
  refine ⟨fun P s hover => copyMatch_raised.2 ⟨hover, rfl, rfl⟩,
    fun P s lits offset m hrun hm hlt hstream htakes hmargin hoffset hover => ?_⟩
  obtain ⟨code, rfl⟩ := Nat.exists_eq_add_of_le' hm
  rw [seqBytes, List.append_assoc] at hstream
  refine step_of_matchSteps_raised_of_offset hrun hstream htakes hmargin fun u hu hbytes =>
    ⟨_, matchSteps_of_overflow hlt hbytes (hu.op ▸ hoffset) ?_, ?_⟩
  · rw [hu.op, hu.frame.oend]
    exact hover
  · rw [← hu.ip, ← litext_sub_minMatch]
    rfl

end Sys2Proof.Machine
end

