-- ==== Sys2Proof/Proofs/DecoderProgress.lean ====
section
/-! A decoder that was launched under its premises moves on (`70_reset_and_hazards.md` R351). The
listing has no faults, and a block that is `decoding` mirrors a pass of it: the pass at the block's
stream cursor, with an output of which nothing but the length counts. -/

namespace Sys2Proof.Machine

variable {P : Config.Params} {s t : Block P}

/-! ## A running decoder as a pass of the listing -/

/-- The block with its cursors taken back to where DEC_START sets them. -/
def Block.rewound (s : Block P) : Block P := { s with work := { s.work with ip := 0, op := 0 } }

/-- The stream that the running command was given (`44_decoder.md` R232). -/
def Block.stream (s : Block P) : List Byte := s.srcBytes s.srcLen.toNat 0

theorem Block.srcBytes_length_of_srcReadable {n : Nat} (h : s.srcReadable n) :
    (s.srcBytes n 0).length = n :=
  Block.srcBytes_length_eq.2 fun j hj => by
    rw [Nat.zero_add]
    exact h j hj

theorem Block.stream_length (h : s.decoding) : s.stream.length = s.work.ilim := by
  obtain ⟨-, ⟨hilim, -⟩, ⟨hreadable, -⟩, -⟩ := h
  rw [hilim]
  exact Block.srcBytes_length_of_srcReadable hreadable

theorem Block.rewound_launched (h : s.decoding) : s.rewound.Launched s.stream := by
  have hlen := Block.stream_length h
  obtain ⟨hrun, ⟨hilim, hoend, -⟩, ⟨-, hmapped, hdisj⟩, -⟩ := h
  refine ⟨rfl, rfl, hlen.symm, ?_, hoend.trans_le hmapped, ?_, hrun⟩
  · rw [hlen, hilim]
    exact Block.srcBytes_congr fun _ _ => rfl
  · rw [← hilim, ← hoend] at hdisj
    exact hdisj

/-- The output so far is there; which bytes it holds is left open. -/
theorem Block.rewound_mirrors (h : s.decoding) :
    s.rewound.Mirrors s.work.ip (List.replicate s.work.op none) s where
  frame := .of_work s.rewound s.work rfl rfl (Nat.zero_le _)
  ip := rfl
  op := List.length_replicate.symm
  holds k hk := by
    obtain ⟨-, -, -, hwritten⟩ := h
    rw [List.length_replicate] at hk
    obtain ⟨v, hv⟩ := Option.isSome_iff_exists.1 (hwritten k hk)
    exact ⟨v, hv, .inl (by rw [List.getElem?_replicate, if_pos hk])⟩

/-! ## The step keeps what the next one needs -/

/-- The launch premises hold of every later pass: the windows are the same, and nothing is written into
the stream. -/
theorem Block.Mirrors.decompressPremises {ip : Nat} {out : List (Option Byte)} (h : s.decoding)
    (ht : s.rewound.Mirrors ip out t) : t.decompressPremises := by
  have hlen := Block.stream_length h
  have hb := Block.rewound_launched h
  obtain ⟨-, ⟨hilim, -⟩, ⟨-, hmapped, hdisj⟩, -⟩ := h
  obtain ⟨-, hsrcLen, -, hdstLen, -⟩ := ht.frame.setup
  have hsrc : t.src = s.src := Block.src_of_sameSetup ht.frame.setup
  have hdst : t.dst = s.dst := ht.frame.dst
  refine ⟨fun j hj => ?_, ?_, ?_⟩
  · rw [hsrcLen] at hj
    have hj' : j < s.stream.length := hlen ▸ hilim ▸ hj
    rw [ht.srcByte hb hj', List.getElem?_eq_getElem hj', Option.isSome_some]
  · rw [hdstLen, hdst]
    exact hmapped
  · unfold Block.disjoint
    rw [hsrcLen, hdstLen, hsrc, hdst]
    exact hdisj

/-- A step that does not end the command keeps the cursors within their bounds. -/
theorem step_cursorsOk (hrun : s.phase ≠ .idle) (hcur : s.cursorsOk)
    (h : step ⟨P, s⟩ = .next ⟨P, t⟩) (ht : t.phase ≠ .idle) : t.cursorsOk := by
  obtain ⟨u, hframe, ⟨rfl, hin⟩ | ⟨r, st, -, rfl⟩⟩ := step_decodesTo hrun h
  · have hs : s.cursorsIn := by
      obtain ⟨-, -, -, -, hip, hop⟩ := hcur
      exact ⟨hip, hop⟩
    exact hframe.cursorsOk hcur (hin hs)
  · exact absurd rfl ht

/-- A later pass that the step comes to is `decoding` again. -/
theorem Block.Mirrors.decoding {ip : Nat} {out : List (Option Byte)} (h : s.decoding)
    (ht : s.rewound.Mirrors ip out t) (hstep : Machine.step ⟨P, s⟩ = .next ⟨P, t⟩) : t.decoding := by
  have ⟨hrun, hcur, _⟩ := h
  have hrun' := ht.running (Block.rewound_launched h)
  refine ⟨hrun', step_cursorsOk hrun hcur hstep hrun', ht.decompressPremises h, fun i hi => ?_⟩
  obtain ⟨v, hv, -⟩ := ht.holds i (ht.op ▸ hi)
  rw [hv, Option.isSome_some]

/-! ## The obligation -/

theorem Block.startDecoder_decoding {p : Phase} (hargs : s.decompressArgs)
    (hprem : s.decompressPremises) (hp : p ≠ .idle) : (s.startDecoder p).decoding :=
  ⟨hp, Block.startDecoder_cursorsOk hargs p, hprem, fun _ hi => absurd hi (Nat.not_lt_zero _)⟩

/-- The step does what the pass of the listing does: it ends, or the next pass starts further on in the
stream. -/
theorem decoding_step (h : s.decoding) :
    ∃ t : Block P, step ⟨P, s⟩ = .next ⟨P, t⟩ ∧
      (t.phase = .idle ∨ (t.phase = s.phase ∧ t.decoding ∧ s.work.ip < t.work.ip)) := by
  obtain ⟨t, hstep, hends | ⟨ip, out, hlt, -, ht, -⟩⟩ :=
    (Block.rewound_mirrors h).step_follows (Block.rewound_launched h) (fuel := 0)
  · obtain ⟨-, u, -, rfl⟩ := hends
    exact ⟨_, hstep, .inl rfl⟩
  · exact ⟨t, hstep, .inr ⟨ht.frame.phase, ht.decoding h hstep, ht.ip.symm ▸ hlt⟩⟩

/-- Settles O38: DEC_START establishes `decoding`, and a step from it ends the command or moves on. -/
theorem decoderProgress : Obligations.DecoderProgress :=
  ⟨fun _ _ _ hargs hprem hp => Block.startDecoder_decoding hargs hprem hp,
    fun _ _ h => decoding_step h⟩

end Sys2Proof.Machine
end

