-- ==== Sys2Proof/Proofs/BrokenPremises.lean ====
section
/-! Where a launch premise is broken the machine stops with the fault that names it
(`70_reset_and_hazards.md` R340 to R342; U2 to U5): overlapping buffers at the launch, and the reads of SRC
and the writes of DST that pass their mapped bytes. -/

namespace Sys2Proof.Machine

variable {P : Config.Params} {s : Block P}

/-! ## Bytes outside SRC's extent -/

theorem Block.srcFault_of_lt {i : Nat} (h : s.src.size < i) : s.srcFault i = .srcOutsideExtent :=
  if_neg (Nat.not_le.2 h)

/-- Nothing is read ahead from behind SRC's mapped bytes. -/
theorem Block.srcBytes_of_size_le {i : Nat} (k : Nat) (h : s.src.size ≤ i) : s.srcBytes k i = [] := by
  cases k with
  | zero => rfl
  | succ k => rw [Block.srcBytes, Block.srcByte, if_neg (Nat.not_lt.2 h)]

/-- Reading ahead stops where SRC's mapped bytes end. -/
theorem Block.srcBytes_of_size_le_add {i k n : Nat} (hlen : (s.srcBytes k i).length = k) (hk : k ≤ n)
    (hsize : s.src.size ≤ i + k) : s.srcBytes n i = s.srcBytes k i := by
  obtain ⟨l, rfl⟩ := Nat.exists_eq_add_of_le hk
  rw [Block.srcBytes_add hlen, Block.srcBytes_of_size_le l hsize, List.append_nil]

/-- Bytes of the stream that end where SRC's mapped bytes do are all that is read ahead. -/
theorem Block.unread_of_streamAt_size {bs : List Byte} (h : s.streamAt s.work.ip bs)
    (hsize : s.src.size ≤ s.work.ip + bs.length) : s.unread = bs := by
  obtain ⟨hbytes, hlim⟩ := h
  rw [Block.unread, Block.srcBytes_of_size_le_add (by rw [hbytes]) (by omega) hsize, hbytes]

/-- What the stream holds is mapped. -/
theorem Block.streamAt_le_size {i : Nat} {bs : List Byte} (h : s.streamAt i bs) (hbs : 0 < bs.length) :
    i + bs.length ≤ s.src.size := by
  have hlast := Block.streamAt_getElem? h (k := bs.length - 1) (by omega)
  rw [List.getElem?_eq_getElem (by omega)] at hlast
  obtain ⟨hmapped, -⟩ := Block.srcByte_eq_some.1 hlast
  omega

/-! ## Faults at the launch -/

/-- A COMPRESS with good arguments faults by the first test that fails (log 25). -/
theorem Block.compress_fault {f : Fault} :
    s.compress = .fault f ↔ s.badCompress = false ∧
      ((s.overlap s.srcLen.toNat (bound s.srcLen.toNat) = true ∧ f = .buffersOverlap) ∨
        (s.overlap s.srcLen.toNat (bound s.srcLen.toNat) = false ∧
          (((s.srcBytes s.srcLen.toNat 0).length < s.srcLen.toNat ∧
              f = s.srcFault ((s.srcBytes s.srcLen.toNat 0).length + 1)) ∨
            (s.srcLen.toNat ≤ (s.srcBytes s.srcLen.toNat 0).length ∧
              s.dst.size < (encode P s.srcFun s.srcLen.toNat s.work s.tab).2.out.length ∧
              f = .dstOutsideExtent)))) := by
  unfold Block.compress
  cases s.badCompress
  · cases s.overlap s.srcLen.toNat (bound s.srcLen.toNat)
    · by_cases hread : (s.srcBytes s.srcLen.toNat 0).length < s.srcLen.toNat
      · simp [hread, Nat.not_le.2 hread, eq_comm]
      · by_cases hroom : s.dst.size < (encode P s.srcFun s.srcLen.toNat s.work s.tab).2.out.length
        · simp [hread, hroom, Nat.not_lt.1 hread, eq_comm]
        · simp [hread, hroom]
    · simp [eq_comm]
  · simp

theorem Block.overlap_eq_true {n m : Nat} : s.overlap n m = true ↔ ¬ s.disjoint n m := by
  rw [← Block.overlap_eq_false, Bool.not_eq_false]

/-- Settles O25: each clause is a test of `Block.compress_fault`, with those before it passed. -/
theorem compressFaultsOnBrokenPremise : Obligations.CompressFaultsOnBrokenPremise := by
  intro P s hargs
  have hgood := Block.badCompress_eq_false.2 hargs
  refine ⟨fun hmeet => ?_, fun hdisj hread hsize => ?_, fun hdisj hread hroom => ?_⟩
  · exact Block.compress_fault.2 ⟨hgood, .inl ⟨Block.overlap_eq_true.2 hmeet, rfl⟩⟩
  · have hmapped := Block.srcBytes_length_of_srcReadable hread
    have hcut : (s.srcBytes s.srcLen.toNat 0).length = s.src.size := by
      rw [Block.srcBytes_of_size_le_add hmapped hsize.le (Nat.zero_add _).ge, hmapped]
    refine Block.compress_fault.2 ⟨hgood, .inr ⟨Block.overlap_eq_false.2 hdisj, .inl ⟨?_, ?_⟩⟩⟩
    · rwa [hcut]
    · rw [hcut, Block.srcFault_of_lt (Nat.lt_succ_self _)]
  · have hall := Block.srcBytes_length_of_srcReadable hread
    exact Block.compress_fault.2
      ⟨hgood, .inr ⟨Block.overlap_eq_false.2 hdisj, .inr ⟨hall.ge, hroom, rfl⟩⟩⟩

/-- A decoder command with good arguments faults at its launch on overlapping buffers. -/
theorem Block.startDecompress_of_overlap (hargs : s.decompressArgs)
    (hmeet : ¬ s.disjoint s.srcLen.toNat s.dstLen.toNat) (p : Phase) :
    s.startDecompress p = .fault .buffersOverlap := by
  rw [Block.startDecompress, Block.badDecompress_eq_false.2 hargs, Block.overlap_eq_true.2 hmeet]
  rfl

/-! ## Faults of a running decoder up to the literal run -/

/-- With no byte to read ahead the control byte cannot be read. -/
theorem step_of_unread_nil (hrun : s.phase ≠ .idle) (hip : s.work.ip < s.work.ilim)
    (hunread : s.unread = []) : step ⟨P, s⟩ = .fault (s.srcFault (s.work.ip + 1)) := by
  have hfetch : s.fetch = .fault (s.srcFault (s.work.ip + 1)) := by
    rw [Block.fetch, decide_eq_false (Nat.not_le.2 hip), Bool.and_false, if_neg Bool.false_ne_true,
      if_neg (Nat.not_lt.2 hip), hunread]
    rfl
  rw [step_mk, Block.step_running hrun, decoderStep, hfetch]

/-- DEC_EXT on bytes of 255 up to the end of SRC's mapped bytes, below the read limit. -/
theorem decExt_outside {j : Nat} (set : Nat → Block P → Block P)
    (hstream : s.streamAt s.work.ip (List.replicate j 255)) (hlim : s.work.ip + j < s.work.ilim)
    (hsize : s.src.size ≤ s.work.ip + j) : decExt set s = .fault .srcOutsideExtent := by
  have hunread := Block.unread_of_streamAt_size hstream (by rwa [List.length_replicate])
  refine decExt_fault.2 ⟨?_, ?_, ?_⟩
  · rw [hunread, extSum_replicate_continue]
  · rw [hunread, List.length_replicate]
    omega
  · rw [hunread, List.length_replicate, Block.srcFault_of_lt (Nat.lt_succ_of_le hsize)]

/-- A sequence whose literal extension does not come to its end is read as SEQ (log 6). -/
theorem decodeSequence_of_open_extension (c : Context) (code j : Nat) :
    decodeSequence P c (controlByte 15 code :: List.replicate j 255) =
      .ok (seqForm 15 (code + 4)) := by
  have hterminal : terminalAt P c (controlByte 15 code) (List.replicate j 255) = false := by
    rw [terminalAt, controlByte_eq_token, tokenLL_token, shortNibble_nibble,
      extSum_replicate_continue]
    rfl
  rw [decodeSequence, hterminal, sequenceForm_false_controlByte]
  rfl

/-- A literal extension of which nothing but bytes of 255 is mapped: DEC_EXT faults. -/
theorem step_of_literalExtension_outside {code j : Nat} (hrun : s.phase ≠ .idle)
    (hstream : s.streamHas (controlByte 15 code :: List.replicate j 255))
    (hlim : s.work.ip + 1 + j < s.work.ilim) (hsize : s.src.size ≤ s.work.ip + 1 + j) :
    step ⟨P, s⟩ = .fault .srcOutsideExtent := by
  have hunread := Block.unread_of_streamAt_size (Block.streamHas_iff.1 hstream) (by
    rw [List.length_cons, List.length_replicate]
    omega)
  have hdec : decodeSequence P s.context s.unread = .ok (seqForm 15 (code + 4)) := by
    rw [hunread, decodeSequence_of_open_extension]
  have hext := Block.streamAt_cons (Block.streamHas_iff.1 hstream)
  have hlit : readLitLen 15 (takeToken (controlByte 15 code) s) = .fault .srcOutsideExtent :=
    decExt_outside (s := setLitLen 15 (takeToken (controlByte 15 code) s)) setLitLen
      (Block.streamAt_congr hext rfl fun _ _ => rfl) hlim hsize
  rw [step_of_sequence hrun (by omega) hdec, exec_seqForm, seqSteps_eq_andThen, hlit]
  rfl

/-- A literal run whose copy faults stops the machine, whichever kind of sequence it is in. -/
theorem step_of_literals_fault {len code : Nat} {f : Fault} (hrun : s.phase ≠ .idle)
    (hstream : s.streamHas (controlByte len code :: extOf len))
    (hfault : ∀ tok, copyLiterals (setLitLen len (advance (litext len) (takeToken tok s))) = .fault f) :
    step ⟨P, s⟩ = .fault f := by
  have hext := Block.streamAt_cons (Block.streamHas_iff.1 hstream)
  have hsteps (tok : Byte) :
      (readLitLen len (takeToken tok s)).andThen copyLiterals = .fault f := by
    obtain ⟨rest, hunread⟩ := Block.unread_of_streamAt (s := takeToken tok s)
      (Block.streamAt_congr hext rfl fun _ _ => rfl)
    exact Flow.andThen_eq_fault.2 (.inr ⟨_, readLitLen_go hunread, hfault tok⟩)
  rw [step_of_controlByte hrun hstream]
  split
  · obtain ⟨tok, hexec⟩ := exec_lastForm len (BitVec.ofNat 4 (nibble code)) s
    rw [hexec, hsteps]
    rfl
  · rw [exec_seqForm, seqSteps_eq_andThen, hsteps]
    rfl

theorem Block.roomInSrc_eq_false {k : Nat} :
    s.roomInSrc k = false ↔ k ≠ 0 ∧ s.src.size < s.work.ip + k := by
  simp [Block.roomInSrc]

theorem Block.roomInDst_eq_false {k : Nat} :
    s.roomInDst k = false ↔ k ≠ 0 ∧ s.dst.size < s.work.op + k := by
  simp [Block.roomInDst]

/-- SRC's extent is tested before DST's (log 25). -/
theorem step_of_literals_outside_src {len code : Nat} (hrun : s.phase ≠ .idle)
    (hstream : s.streamHas (controlByte len code :: extOf len)) (hpos : 0 < len)
    (hoend : s.work.op + len ≤ s.work.oend) (hlim : s.work.ip + 1 + litext len + len ≤ s.work.ilim)
    (hsize : s.src.size < s.work.ip + 1 + litext len + len) :
    step ⟨P, s⟩ = .fault .srcOutsideExtent :=
  step_of_literals_fault hrun hstream fun _ => copyLiterals_fault.2
    ⟨hoend, hlim, .inl ⟨Block.roomInSrc_eq_false.2 ⟨Nat.ne_of_gt hpos, hsize⟩, rfl⟩⟩

theorem step_of_literals_outside_dst {lits : List Byte} {code : Nat} (hrun : s.phase ≠ .idle)
    (hstream : s.streamHas (controlByte lits.length code :: extOf lits.length ++ lits))
    (hoend : s.work.op + lits.length ≤ s.work.oend) (hsize : s.dst.size < s.work.op + lits.length)
    (hpos : 0 < lits.length) : step ⟨P, s⟩ = .fault .dstOutsideExtent := by
  obtain ⟨hcontrol, hlits⟩ := Block.streamAt_append.1 (Block.streamHas_iff.1 hstream)
  have hip : s.work.ip + (controlByte lits.length code :: extOf lits.length).length =
      s.work.ip + 1 + litext lits.length := by
    rw [List.length_cons, extOf_length]
    omega
  rw [hip] at hlits
  have hmapped := Block.streamAt_le_size hlits hpos
  refine step_of_literals_fault hrun hcontrol fun tok => copyLiterals_fault.2
    ⟨hoend, hlits.2, .inr (.inl ⟨?_, ?_, rfl⟩)⟩
  · exact Bool.eq_true_of_not_eq_false fun hroom =>
      Nat.not_lt.2 hmapped (Block.roomInSrc_eq_false.1 hroom).2
  · exact Block.roomInDst_eq_false.2 ⟨Nat.ne_of_gt hpos, hsize⟩

/-! ## Faults of a running decoder behind the literal run -/

/-- Outside the margin, with the read limit further on, a sequence with its literals in the stream comes to
its steps behind the literals. -/
theorem step_eq_matchSteps {lits bs : List Byte} {code : Nat} (hrun : s.phase ≠ .idle)
    (hstream : s.streamHas (controlByte lits.length code :: extOf lits.length ++ lits ++ bs))
    (htakes : s.dstTakes lits.length)
    (hmargin : s.work.op + lits.length + P.decMargin ≤ s.work.oend)
    (hmore : s.work.ip + 1 + litext lits.length + lits.length < s.work.ilim) :
    ∃ u, s.BehindLiterals lits u ∧ u.streamAt u.work.ip bs ∧
      step ⟨P, s⟩ = (matchSteps code u).outcome := by
  obtain ⟨hcontrol, hfields, hbehind⟩ := Block.streamHas_literals hstream
  obtain ⟨u, hgo, hu⟩ := literalSteps_behind (controlByte lits.length code) hfields htakes
  refine ⟨u, hu, hu.streamAt hbehind, ?_⟩
  rw [step_of_controlByte hrun hcontrol, if_neg (by omega), exec_seqForm,
    seqSteps_eq_andThen_matchSteps, hgo, Flow.go_andThen]

theorem Block.BehindLiterals.src {lits : List Byte} {u : Block P} (h : s.BehindLiterals lits u) :
    u.src = s.src := Block.src_of_sameSetup h.frame.setup

/-- READ_OFFSET below the read limit and outside SRC's extent. -/
theorem matchSteps_of_offset_outside {code : Nat} (hlim : s.work.ip + 2 ≤ s.work.ilim)
    (hsize : s.src.size < s.work.ip + 2) : matchSteps code s = .fault .srcOutsideExtent := by
  have hoffset : readOffset s = .fault .srcOutsideExtent :=
    readOffset_fault.2 ⟨hlim, if_neg (Nat.not_le.2 hsize), (Block.srcFault_of_lt hsize).symm⟩
  rw [matchSteps, hoffset, Flow.fault_andThen, Flow.fault_andThen]

/-- A match extension of which nothing but bytes of 255 is mapped. -/
theorem matchSteps_of_extension_outside {offset j : Nat} (hlt : offset < 65536)
    (hstream : s.streamAt s.work.ip (le16 offset ++ List.replicate j 255))
    (hoffset : offset ≤ s.work.op) (hlim : s.work.ip + 2 + j < s.work.ilim)
    (hsize : s.src.size ≤ s.work.ip + 2 + j) : matchSteps 15 s = .fault .srcOutsideExtent := by
  obtain ⟨hbytes, hext⟩ := Block.streamAt_append.1 hstream
  have hgo : readOffset s = .go (s.afterOffset offset) := readOffset_completes hlt hbytes hoffset
  have hmatch : readMatchLen 15 (s.afterOffset offset) = .fault .srcOutsideExtent :=
    decExt_outside (s := s.afterOffset offset) setMatchLen
      (Block.streamAt_congr hext rfl fun _ _ => rfl) hlim hsize
  rw [matchSteps, hgo, Flow.go_andThen, hmatch, Flow.fault_andThen]

/-- A match that stays below the bound and passes DST's extent. -/
theorem matchSteps_of_match_outside {offset code : Nat} (hlt : offset < 65536)
    (hstream : s.streamAt s.work.ip (le16 offset ++ extOf code)) (hoffset : offset ≤ s.work.op)
    (hoend : s.work.op + (code + 4) ≤ s.work.oend) (hsize : s.dst.size < s.work.op + (code + 4)) :
    matchSteps code s = .fault .dstOutsideExtent := by
  rw [matchSteps, matchFields_go hlt hstream hoffset]
  exact copyMatch_fault.2
    ⟨hoend, .inl ⟨Block.roomInDst_eq_false.2 ⟨Nat.succ_ne_zero _, hsize⟩, rfl⟩⟩

/-! ## The obligations about a running decoder -/

/-- Settles O27: the launch, the control byte, the literal run and the match. -/
theorem decoderFaultsOnBrokenPremise : Obligations.DecoderFaultsOnBrokenPremise := by
  refine ⟨fun P s hargs hmeet => ⟨Block.startDecompress_of_overlap hargs hmeet .fixed,
      Block.startDecompress_of_overlap hargs hmeet .unknown⟩,
    fun P s hrun hip hsize => ?_,
    fun P s lits code hrun hstream hoend hsize hpos =>
      step_of_literals_outside_dst hrun hstream hoend hsize hpos,
    fun P s lits offset m hrun hm hlt hstream htakes hmargin hoffset hoend hsize => ?_⟩
  · rw [step_of_unread_nil hrun hip (Block.srcBytes_of_size_le _ hsize),
      Block.srcFault_of_lt (Nat.lt_succ_of_le hsize)]
  · obtain ⟨code, rfl⟩ := Nat.exists_eq_add_of_le' hm
    rw [seqBytes, List.append_assoc] at hstream
    obtain ⟨-, -, hbehind⟩ := Block.streamHas_literals hstream
    have hmore := (Nat.lt_add_of_pos_right (Nat.succ_pos _)).trans_le hbehind.2
    obtain ⟨u, hu, hbytes, hstep⟩ := step_eq_matchSteps hrun hstream htakes hmargin hmore
    have hfault := matchSteps_of_match_outside hlt hbytes (hu.op ▸ hoffset)
      (by rwa [hu.op, hu.frame.oend]) (by rwa [hu.op, hu.frame.dst])
    rw [hstep, hfault]
    rfl

/-- Settles O58: the literal extension, the literal run, the offset and the match extension. -/
theorem decoderFaultsOutsideSource : Obligations.DecoderFaultsOutsideSource := by
  refine ⟨fun P s code j hrun hstream hlim hsize =>
      step_of_literalExtension_outside hrun hstream hlim hsize,
    fun P s len code hrun hstream hpos hoend hlim hsize =>
      step_of_literals_outside_src hrun hstream hpos hoend hlim hsize,
    fun P s lits code hrun hstream htakes hmargin hlim hsize => ?_,
    fun P s lits offset j hrun hlt hstream htakes hmargin hoffset hlim hsize => ?_⟩
  · rw [← List.append_nil (_ ++ lits)] at hstream
    obtain ⟨u, hu, -, hstep⟩ := step_eq_matchSteps hrun hstream htakes hmargin (by omega)
    have hfault := matchSteps_of_offset_outside (s := u) (code := code)
      (by rwa [hu.ip, hu.frame.ilim]) (by rwa [hu.ip, hu.src])
    rw [hstep, hfault]
    rfl
  · rw [List.append_assoc] at hstream
    obtain ⟨u, hu, hbytes, hstep⟩ := step_eq_matchSteps hrun hstream htakes hmargin (by omega)
    have hfault := matchSteps_of_extension_outside hlt hbytes (hu.op ▸ hoffset)
      (by rwa [hu.ip, hu.frame.ilim]) (by rwa [hu.ip, hu.src])
    rw [hstep, hfault]
    rfl

end Sys2Proof.Machine
end

