-- ==== Sys2Proof/Proofs/ResetAndBound.lean ====
section
/-! The platform's reset (`70_reset_and_hazards.md` R345, log 19) and the bound of a COMPRESS output
(R343, `92_eei_decisions.md` D4). -/

namespace Sys2Proof.Machine

/-- Settles O2: the step takes the action, and `Block.resetBlock` is what it leaves. -/
theorem resetActionEffect : Obligations.ResetActionEffect := fun _ s rest hidle hhost =>
  ⟨Block.resetBlock { s with host := rest }, step_of_host hidle hhost, rfl, rfl, rfl, rfl, rfl, rfl,
    rfl, rfl, rfl, rfl⟩

/-- The two parts of `maxCompressLen` are the two arguments of the maximum in `bound`. -/
theorem le_min_iff_bound_le {n m : Nat} (hm : 8 ≤ m) :
    n ≤ min (m - 8) (20 * m / 21) ↔ bound n ≤ m := by
  unfold bound
  omega

/-- From five bits on, MAX_LEN is at least BOUND(0). -/
theorem eight_le_maxLen {x : Nat} (hx : 5 ≤ x) : 8 ≤ Config.maxLen x := by
  have hpow : 2 ^ 4 ≤ 2 ^ (x - 1) := Nat.pow_le_pow_right (by decide) (by omega)
  unfold Config.maxLen
  omega

/-- Settles O56: the equivalence by `le_min_iff_bound_le`, the values by evaluation. -/
theorem boundFitsResult : Obligations.BoundFitsResult :=
  ⟨fun _ => rfl, fun _ _ hx => le_min_iff_bound_le (eight_le_maxLen hx), fun _ => rfl, by decide⟩

end Sys2Proof.Machine
end
